-- ==== Sys2Proof/Word.lean ====
section
/-! DEFINITION. The elementary data of the block: bits, bytes, samples, and the sequences of them
(00_scope.md R10). A sample is an exact real number (R13) written as plain data: a finite sum of
rational multiples of cosines of rational turns. The types of commands and states take the carrier of
samples as an argument (R9, NUM), so that it can also be all of ℝ; `Sample` is the one that is executed. -/

namespace Sys2Proof

/-- R10: `Bit` is 0 or 1. -/
abbrev Bit := Bool

/-- R10: `Byte` is an integer 0..255. -/
abbrev Byte := BitVec 8

/-- R10: an "ordered sequence of bits (0/1), insertion order significant". -/
abbrev BitSeq := List Bit

/-- R10: a finite sequence of bytes. -/
abbrev ByteSeq := List Byte

/-- One term `coef · cos(2π · phase)` of a sample; the phase is in turns (R13). -/
structure CosTerm where
  phase : Rat
  coef : Rat
  deriving DecidableEq, Repr

/-- An exact real number: the sum of its terms. Every rational number, every value of the tone
tables (10_state.md R46) and every sum and product of such numbers is one. DESIGN CHOICE, log 5. -/
structure Sample where
  terms : List CosTerm
  deriving DecidableEq, Repr

/-- R10: a finite sequence of samples, the source's "Waveform". -/
abbrev SampleSeq := List Sample

end Sys2Proof
end

