-- ==== Sys2Proof/Syntax.lean ====
section
/-! DEFINITION. The commands of the block (30_encoding.md R80 to R86): the configuration record, the
command as the host presents it, and the fourteen decoded commands with their operand buffers. The types
take the carrier of samples as an argument (00_scope.md R9, R13: NUM); without one it is `Sample`. -/

namespace Sys2Proof

/-- ECC_EN, three bits: which parts of a frame are ECC-encoded (10_state.md R32). -/
structure EccEn where
  start : Bit
  payload : Bit
  stop : Bit
  deriving DecidableEq, Repr

/-- The configuration record, operand of CFGLOAD (30_encoding.md R83): nine named fields, each
possibly absent. The integer fields are signed, so that a non-positive value can be refused. -/
structure CfgRecord where
  frequency : Option Rat
  samplingRate : Option Int
  symbolsPerSecond : Option Int
  recordStart : Option ByteSeq
  recordEnd : Option ByteSeq
  toneSpacing : Option Rat
  threshold : Option Rat
  chunkLen : Option Int
  eccEnable : Option EccEn
  deriving DecidableEq, Repr

/-- The record with every field absent. -/
def CfgRecord.empty : CfgRecord := ⟨none, none, none, none, none, none, none, none, none⟩

/-- A command as the host presents it: the opcode byte and the operand buffers CFGIN, BITIN, SAMPIN
(20_memory.md R60). The opcode fixes which buffer is read (30_encoding.md R82). Log 12. -/
structure Command (S : Type := Sample) where
  op : Byte
  cfgin : CfgRecord
  bitin : BitSeq
  sampin : List S
  deriving DecidableEq, Repr

/-- The fourteen commands of 30_encoding.md R86, one constructor per row of the opcode table, each
with the operand buffer its row names. -/
inductive Instr (S : Type := Sample) where
  | cfgload (cfgin : CfgRecord)
  | rdstat
  | eccenc (bitin : BitSeq)
  | eccdec (bitin : BitSeq)
  | modbits (bitin : BitSeq)
  | txframe (bitin : BitSeq)
  | locate (sampin : List S)
  | demod (sampin : List S)
  | rxframe (sampin : List S)
  | detstart
  | detchunk (sampin : List S)
  | detstop
  | txon
  | txoff
  deriving DecidableEq, Repr

end Sys2Proof
end

