-- ==== Sys2Proof/Decode.lean ====
section
/-! DEFINITION. The decoder, total on every opcode byte and rejecting the reserved ones by name, and
after it the encoder, both from the opcode map 30_encoding.md R81, R86, R87. -/

namespace Sys2Proof

variable {S : Type}

/-- Why an opcode byte is reserved (30_encoding.md R87). -/
inductive DecodeError where
  /-- UNIT 5 to 15 -/
  | reservedUnit (unit : Nat)
  /-- a FN above the last listed one of its unit -/
  | reservedFn (unit fn : Nat)
  deriving DecidableEq, Repr

/-- `op[7:4]`, the UNIT field (30_encoding.md R81). -/
def unitOf (op : Byte) : Nat := (op.extractLsb' 4 4).toNat

/-- `op[3:0]`, the FN field (30_encoding.md R81). -/
def fnOf (op : Byte) : Nat := (op.extractLsb' 0 4).toNat

/-- The command a presented command is, by the opcode map of 30_encoding.md R86; the operand is the
buffer that the opcode's row names. -/
def decode (c : Command S) : Except DecodeError (Instr S) :=
  match unitOf c.op, fnOf c.op with
  | 0, 0 => .ok (.cfgload c.cfgin)
  | 0, 1 => .ok .rdstat
  | 1, 0 => .ok (.eccenc c.bitin)
  | 1, 1 => .ok (.eccdec c.bitin)
  | 2, 0 => .ok (.modbits c.bitin)
  | 2, 1 => .ok (.txframe c.bitin)
  | 3, 0 => .ok (.locate c.sampin)
  | 3, 1 => .ok (.demod c.sampin)
  | 3, 2 => .ok (.rxframe c.sampin)
  | 4, 0 => .ok .detstart
  | 4, 1 => .ok (.detchunk c.sampin)
  | 4, 2 => .ok .detstop
  | 4, 3 => .ok .txon
  | 4, 4 => .ok .txoff
  | u, f => if u < 5 then .error (.reservedFn u f) else .error (.reservedUnit u)

/-- The opcode byte of a command (30_encoding.md R86). -/
def opcode : Instr S → Byte
  | .cfgload _ => 0x00#8
  | .rdstat => 0x01#8
  | .eccenc _ => 0x10#8
  | .eccdec _ => 0x11#8
  | .modbits _ => 0x20#8
  | .txframe _ => 0x21#8
  | .locate _ => 0x30#8
  | .demod _ => 0x31#8
  | .rxframe _ => 0x32#8
  | .detstart => 0x40#8
  | .detchunk _ => 0x41#8
  | .detstop => 0x42#8
  | .txon => 0x43#8
  | .txoff => 0x44#8

/-- The command port with an opcode byte and every operand buffer empty. -/
def Command.bare (op : Byte) : Command S := ⟨op, CfgRecord.empty, [], []⟩

/-- The command as the host presents it: the opcode byte, the operand in the buffer that its row
names, the other buffers empty. -/
def encode (i : Instr S) : Command S :=
  match i with
  | .cfgload c => ⟨opcode i, c, [], []⟩
  | .rdstat => Command.bare (opcode i)
  | .eccenc b => ⟨opcode i, CfgRecord.empty, b, []⟩
  | .eccdec b => ⟨opcode i, CfgRecord.empty, b, []⟩
  | .modbits b => ⟨opcode i, CfgRecord.empty, b, []⟩
  | .txframe b => ⟨opcode i, CfgRecord.empty, b, []⟩
  | .locate x => ⟨opcode i, CfgRecord.empty, [], x⟩
  | .demod x => ⟨opcode i, CfgRecord.empty, [], x⟩
  | .rxframe x => ⟨opcode i, CfgRecord.empty, [], x⟩
  | .detstart => Command.bare (opcode i)
  | .detchunk x => ⟨opcode i, CfgRecord.empty, [], x⟩
  | .detstop => Command.bare (opcode i)
  | .txon => Command.bare (opcode i)
  | .txoff => Command.bare (opcode i)

/-- The command whose opcode byte is the table word `w`, with empty operand buffers: a buffer is an
abstract sequence and has no bits in the table (30_encoding.md R82). Log 11. -/
def tableCommand (w : Nat) : Command := Command.bare (BitVec.ofNat 8 w)

/-- The instruction the decoder reads from a word of the opcode table. There is one command length,
one byte (30_encoding.md R80): any other width, or a value above 255, is no command. -/
def decodeTableWord (nbits w : Nat) : Option Instr :=
  if nbits = 8 ∧ w < 256 then (decode (tableCommand w)).toOption else none

end Sys2Proof
end

