-- ==== Sys2Proof/Config.lean ====
section
/-! DEFINITION. What an implementation fixes: the build-time parameters of 00_scope.md R9, their types and
the decided values. The commands take them as arguments (Machine/Build.lean, Machine/State.lean); NUM, the
numerics record, is in Machine/Numerics.lean. -/

namespace Sys2Proof

/-- The local syndrome, the three digits `s1 s2 s3` (41_ecc.md R106). -/
abbrev Syndrome := Bit × Bit × Bit

/-- The classifier's similarity score (R9: `SCORE`). -/
inductive Score where
  /-- the plain dot product, 43_demodulator.md R160 -/
  | dot
  /-- the normalised dot product, 43_demodulator.md R161 -/
  | ndot
  deriving DecidableEq, Repr

namespace Config

/-- GUESS2, OPEN (41_ecc.md R112): the source gives no table, and "A proof must not rest on any
particular entry". No body: a position 0..6, and which of the six others is the second. Log 7. -/
opaque guess2Code : Syndrome → Fin 7 × Fin 6

/-- The pair of distinct positions that `guess2Code` names; every ordered pair of distinct
positions of 0..6 is the pair of exactly one code. -/
def pairOfCode (p : Fin 7 × Fin 6) : Nat × Nat :=
  (p.1.val, if p.2.val < p.1.val then p.2.val else p.2.val + 1)

/-- GUESS2: syndrome to a pair of distinct positions in 0..6 (R9). -/
def guess2 (s : Syndrome) : Nat × Nat := pairOfCode (guess2Code s)

/-- SCORE, decided `DOT` (R9, 92_eei_decisions.md D15). Log 8. -/
def score : Score := .dot

/-- MAX_FRAME_CHUNKS, decided `unlimited` (R9, D22), written `none`. Log 8. -/
def maxFrameChunks : Option Nat := none

/-- CNT_W, decided 32 (R9, D18). Log 8. -/
abbrev cntW : Nat := 32

end Config

end Sys2Proof
end

