-- ==== Sys2Proof/Machine/State.lean ====
section
/-! DEFINITION. The state of the block (10_state.md R20), what the host presents to it and what it
responds (30_encoding.md R88, 60_exceptions.md R240), and the state after reset (10_state.md R51). The
types take two build-time parameters of 00_scope.md R9 as arguments: the carrier `S` of samples (NUM's)
and the width `w` of the counter (CNT_W). Without them, as the host's `core` has them, they are `Sample`
and the decided 32. -/

namespace Sys2Proof.Machine

/-- DET_STATE (10_state.md R36). -/
inductive DetState where
  /-- "not recording" -/
  | idle
  /-- "accumulating" -/
  | recording
  deriving DecidableEq, Repr

/-- The nine configuration registers (10_state.md R24 to R32), written together by CFGLOAD. -/
structure Cfg where
  /-- FC, R24 -/
  fc : Rat
  /-- FS, R25 -/
  fs : Nat
  /-- RATE, R26 -/
  rate : Nat
  /-- KEY_START, R27 -/
  keyStart : ByteSeq
  /-- KEY_END, R28 -/
  keyEnd : ByteSeq
  /-- DF, R29 -/
  df : Rat
  /-- THRESH, R30 -/
  thresh : Rat
  /-- CHUNK_LEN, R31; `none` is the spec's own value `absent` -/
  chunkLen : Option Nat
  /-- ECC_EN, R32 -/
  eccEn : EccEn
  deriving DecidableEq, Repr

/-- The five required configuration fields, in the order of 40_control.md R90. -/
inductive CfgField where
  | frequency
  | samplingRate
  | symbolsPerSecond
  | recordStart
  | recordEnd
  deriving DecidableEq, Repr

/-- The status codes of 30_encoding.md R88. -/
inductive Status where
  | ok
  | configMissingField
  | noSyncFound
  | uncorrectableBlock
  | invalidEncoding
  | streamClosed
  | illegalCommand
  | notConfigured
  | configLocked
  | configInvalid
  | badChunkLength
  | detectorStopped
  deriving DecidableEq, Repr

/-- The number of a status (30_encoding.md R88). -/
def Status.code : Status → Nat
  | .ok => 0
  | .configMissingField => 1
  | .noSyncFound => 2
  | .uncorrectableBlock => 3
  | .invalidEncoding => 4
  | .streamClosed => 5
  | .illegalCommand => 16
  | .notConfigured => 17
  | .configLocked => 18
  | .configInvalid => 19
  | .badChunkLength => 20
  | .detectorStopped => 21

/-- What a command can raise, with the information it records (60_exceptions.md R231 to R239). The
statuses 3, 4 and 5 are never raised by the block (30_encoding.md R88). -/
inductive Error where
  | configMissingField (name : CfgField)
  | noSyncFound
  | illegalCommand
  | notConfigured
  | configLocked
  | configInvalid
  | badChunkLength
  | detectorStopped
  deriving DecidableEq, Repr

/-- The status of a raised error. -/
def Error.status : Error → Status
  | .configMissingField _ => .configMissingField
  | .noSyncFound => .noSyncFound
  | .illegalCommand => .illegalCommand
  | .notConfigured => .notConfigured
  | .configLocked => .configLocked
  | .configInvalid => .configInvalid
  | .badChunkLength => .badChunkLength
  | .detectorStopped => .detectorStopped

/-- The result of an `Ok` response: one result buffer of 20_memory.md R60, or nothing. -/
inductive Result (S : Type := Sample) (w : Nat := Config.cntW) where
  /-- no result buffer -/
  | empty
  /-- BITOUT -/
  | bits (out : BitSeq)
  /-- BITOUT and the count of guessed blocks (41_ecc.md R115, 43_demodulator.md R168) -/
  | bitsGuessed (out : BitSeq) (guessed : Nat)
  /-- SAMPOUT -/
  | samples (out : List S)
  /-- IDXOUT -/
  | indices (startIdx endIdx : Nat)
  /-- STATOUT (10_state.md R42) -/
  | stat (status : BitVec 32) (uncorrCnt : BitVec w) (detNchunks : Nat)
  deriving DecidableEq, Repr

/-- The events of 60_exceptions.md R240. -/
inductive Event (S : Type := Sample) where
  | startOfFrame
  | frameComplete (buf : List S)
  | frameOverrun
  deriving DecidableEq, Repr

/-- A response (30_encoding.md R88): status `Ok` with a result and events, or an error with its
information, no result and no event (60_exceptions.md R236). -/
inductive Response (S : Type := Sample) (w : Nat := Config.cntW) where
  | ok (result : Result S w) (events : List (Event S))
  | error (e : Error)
  deriving DecidableEq, Repr

variable {S : Type} {w : Nat}

/-- The status of a response. -/
def Response.status : Response S w → Status
  | .ok _ _ => .ok
  | .error e => e.status

/-- The events of a response. -/
def Response.events : Response S w → List (Event S)
  | .ok _ ev => ev
  | .error _ => []

/-- What the host can do to the block: issue a command, or reset it (70_reset_and_hazards.md R260:
"Reset is not a command, has no opcode"). -/
inductive Input (S : Type := Sample) where
  | command (c : Command S)
  | reset
  deriving DecidableEq, Repr

/-- The state: the fifteen elements of 10_state.md R20 (nine of them in `cfg`), and the model's own
interface, the host's pending inputs and the responses delivered so far, both oldest first. -/
structure State (S : Type := Sample) (w : Nat := Config.cntW) where
  /-- CFG_VALID, R23 -/
  cfgValid : Bit
  /-- FC, FS, RATE, KEY_START, KEY_END, DF, THRESH, CHUNK_LEN, ECC_EN, R24 to R32 -/
  cfg : Cfg
  /-- DET_RUN, R35 -/
  detRun : Bit
  /-- DET_STATE, R36 -/
  detState : DetState
  /-- DET_BUF, R37 -/
  detBuf : List S
  /-- TX_ACTIVE, R38 -/
  txActive : Bit
  /-- UNCORR_CNT, R40 -/
  uncorrCnt : BitVec w
  /-- the host's inputs not yet taken (log 1) -/
  inputs : List (Input S)
  /-- the responses delivered (log 2) -/
  responses : List (Response S w)
  deriving DecidableEq, Repr

/-- Why a step stops with a fault: never. The spec gives every command, opcode byte and operand an
effect, and its errors are responses, that is next states (60_exceptions.md R236). -/
inductive Fault where
  deriving DecidableEq, Repr

/-- Why a step has no meaning. -/
inductive Refusal where
  /-- raised by an arm of exec whose instruction has no meaning yet: by none in this model. Safe: the
  model stops where the block goes on. -/
  | notModelled (mnemonic : String)
  deriving DecidableEq, Repr

/-- What a meaning answers. -/
abbrev Out (S : Type := Sample) (w : Nat := Config.cntW) := Host.Outcome (State S w) Fault Refusal

/-- The configuration registers after reset: the spec calls them unspecified and unreadable
(10_state.md R51); zero, empty or absent here. DESIGN CHOICE, log 4. -/
def Cfg.reset : Cfg := ⟨0, 0, 0, [], [], 0, 0, none, ⟨false, false, false⟩⟩

/-- The state after reset (10_state.md R51, 70_reset_and_hazards.md R260), with no input pending and
no response delivered, for every carrier and counter width. -/
def State.initial : State S w where
  cfgValid := false
  cfg := Cfg.reset
  detRun := false
  detState := .idle
  detBuf := []
  txActive := false
  uncorrCnt := 0#w
  inputs := []
  responses := []

/-- The state after reset of the block as built: samples in `Sample`, CNT_W 32. -/
def State.reset : State := State.initial

end Sys2Proof.Machine
end

