-- ==== Sys2Proof/Machine/Flags.lean ====
section
/-! DEFINITION. The status word, the chunk count and the diagnostic counter (10_state.md R40 to R42). -/

namespace Sys2Proof.Machine

variable {S : Type} {w : Nat}

/-- One bit as a 32-bit word. -/
def bitWord (b : Bit) : BitVec 32 := if b then 1#32 else 0#32

/-- STATUS (10_state.md R42, 40_control.md R92): CFG_VALID, DET_RUN, DET_STATE and TX_ACTIVE in bits
0 to 3, bits 31:4 zero. -/
def State.statusWord (s : State S w) : BitVec 32 :=
  bitWord s.cfgValid ||| bitWord s.detRun <<< 1
    ||| bitWord (decide (s.detState = .recording)) <<< 2 ||| bitWord s.txActive <<< 3

/-- DET_NCHUNKS (40_control.md R92). -/
def State.detNchunks (s : State S w) : Nat :=
  match s.cfgValid, s.cfg.chunkLen with
  | true, some n => s.detBuf.length / n
  | _, _ => 0

/-- The saturating increment `min(UNCORR_CNT + n, 2^CNT_W - 1)`, CNT_W being the width `w` of
the counter (10_state.md R41, 00_scope.md R9). -/
def satAdd (c : BitVec w) (n : Nat) : BitVec w :=
  BitVec.ofNat w (min (c.toNat + n) (2 ^ w - 1))

end Sys2Proof.Machine
end

