-- ==== Sys2Proof/Machine/Ops.lean ====
section
/-! DEFINITION. The shared operations of the commands: respond, raise, the preamble, the counter, and
the reset event. -/

namespace Sys2Proof.Machine

variable {S : Type} {w : Nat}

/-- `respond v`, after the events `ev`: the command ends with status `Ok` (00_scope.md R14,
30_encoding.md R88). -/
def State.respond (s : State S w) (r : Result S w) (ev : List (Event S)) : State S w :=
  { s with responses := s.responses ++ [.ok r ev] }

/-- `raise E(info)`, the block's way of taking an exception (60_exceptions.md R236): the response
carries the error, no result and no event, and every write of the command is discarded, so `s` is the
state in which the command began. There is no return: no error is sticky (R238). -/
def State.raise (s : State S w) (e : Error) : State S w :=
  { s with responses := s.responses ++ [.error e] }

/-- The common preamble of every command but CFGLOAD and RDSTAT (40_control.md R91). -/
def configured (s : State S w) (o : Out S w) : Out S w :=
  if s.cfgValid then o else .next (s.raise .notConfigured)

/-- `UNCORR_CNT <- min(UNCORR_CNT + n, 2^CNT_W - 1)` (10_state.md R41). -/
def State.countGuessed (s : State S w) (n : Nat) : State S w :=
  { s with uncorrCnt := satAdd s.uncorrCnt n }

/-- The reset event (70_reset_and_hazards.md R260): every element of the block at its reset value;
the host's later inputs and the responses it has had are the host's and stay. Log 10. -/
def State.afterReset (s : State S w) : State S w :=
  { State.initial with inputs := s.inputs, responses := s.responses }

end Sys2Proof.Machine
end

