-- ==== Sys2Proof/Machine/Control.lean ====
section
/-! DEFINITION. The control commands CFGLOAD and RDSTAT (40_control.md). -/

namespace Sys2Proof.Machine

/-- A required field, or the error that names it (40_control.md R90, 60_exceptions.md R231). -/
def required {α : Type} (v : Option α) (name : CfgField) : Except Error α :=
  match v with
  | none => .error (.configMissingField name)
  | some a => .ok a

/-- The present values are legal (40_control.md R90): `fs ≥ 1`, `r ≥ 1`, `floor(fs / r) ≥ 1`,
`df > 0`, and `chunk_len ≥ 1` if present. -/
def legal (fs r : Int) (df : Rat) (chunkLen : Option Int) : Bool :=
  decide (1 ≤ fs) && decide (1 ≤ r) && decide (1 ≤ fs / r) && decide (0 < df)
    && (match chunkLen with
        | none => true
        | some n => decide (1 ≤ n))

/-- The registers a record loads, or the error it meets first: the required fields in order, then the
legal values, then the defaults of absent optional fields (40_control.md R90). -/
def loadCfg (c : CfgRecord) : Except Error Cfg := do
  let f ← required c.frequency .frequency
  let fs ← required c.samplingRate .samplingRate
  let r ← required c.symbolsPerSecond .symbolsPerSecond
  let ks ← required c.recordStart .recordStart
  let ke ← required c.recordEnd .recordEnd
  let df := c.toneSpacing.getD (r : Rat)
  if legal fs r df c.chunkLen then
    .ok { fc := f, fs := fs.toNat, rate := r.toNat, keyStart := ks, keyEnd := ke, df := df,
          thresh := c.threshold.getD 5, chunkLen := c.chunkLen.map Int.toNat,
          eccEn := c.eccEnable.getD ⟨true, true, true⟩ }
  else .error .configInvalid

variable {S : Type} {w : Nat}

/-- CFGLOAD, for every carrier and counter width (40_control.md R90). -/
def cfgloadOn (cfgin : CfgRecord) (s : State S w) : Out S w :=
  if s.cfgValid then .next (s.raise .configLocked)
  else
    match loadCfg cfgin with
    | .error e => .next (s.raise e)
    | .ok c => .next ({ s with cfgValid := true, cfg := c }.respond .empty [])

/-- CFGLOAD (40_control.md R90). -/
def execCfgload (cfgin : CfgRecord) (s : State) : Out := cfgloadOn cfgin s

/-- RDSTAT, for every carrier and counter width (40_control.md R92). -/
def rdstatOn (s : State S w) : Out S w :=
  .next (s.respond (.stat s.statusWord s.uncorrCnt s.detNchunks) [])

/-- RDSTAT (40_control.md R92). -/
def execRdstat (s : State) : Out := rdstatOn s

end Sys2Proof.Machine
end

