-- ==== Sys2Proof/Machine/Numerics.lean ====
section
/-! DEFINITION. Arithmetic on samples (00_scope.md R13). The algorithms take NUM, the numerics record;
`exactNum` is the exact instance, the normative one: sums, products and comparisons of the real
numbers that `Sample` writes down, decided by rational arithmetic alone. -/

namespace Sys2Proof.Machine

/-- NUM (R13): "a record of a carrier type with an embedding of the rationals, an addition, a
multiplication, a total order and a function `COS1(θ)`" of a phase in turns. -/
structure Num (S : Type) where
  ofRat : Rat → S
  add : S → S → S
  mul : S → S → S
  lt : S → S → Bool
  cos1 : Rat → S

/-- `Σ`, added to the embedded 0 from the first element on. No difference to an exact sum (log 13); under a
NUM that is not exact the order is open and this one a DESIGN CHOICE, log 16. -/
def Num.sum {S : Type} (N : Num S) (xs : List S) : S := xs.foldl N.add (N.ofRat 0)

/-- `Σ_n x[n] · y[n]` over the common length. -/
def Num.dot {S : Type} (N : Num S) (x y : List S) : S := N.sum (List.zipWith N.mul x y)

/-- The search of `argmaxFirst`: `best` is the greatest value so far, first met at `m`; the list
starts at index `k`. -/
def argmaxFrom {α : Type} (lt : α → α → Bool) : List α → α → Nat → Nat → Nat
  | [], _, m, _ => m
  | c :: cs, best, m, k =>
    if lt best c then argmaxFrom lt cs c k (k + 1) else argmaxFrom lt cs best m (k + 1)

/-- `argmax_first(c)`: the least index whose value no other exceeds (00_scope.md R14). -/
def argmaxFirst {α : Type} (lt : α → α → Bool) : List α → Nat
  | [] => 0
  | c :: cs => argmaxFrom lt cs c 0 1

/-! The exact instance. A sample is a list of terms `coef · cos(2π · phase)`. -/

/-- The same value with its phase in [0, 1/4): the cosine has period 1 in turns, is even, and
`cos(2π(1/2 - θ)) = -cos(2πθ)`; a quarter turn gives 0 and a sixth of a turn 1/2. -/
def foldTerm (t : CosTerm) : CosTerm :=
  let a := t.phase - (t.phase.floor : Rat)
  let b := if 1/2 < a then 1 - a else a
  let u : CosTerm := if 1/4 < b then ⟨1/2 - b, -t.coef⟩ else ⟨b, t.coef⟩
  if u.phase = 1/4 then ⟨0, 0⟩ else if u.phase = 1/6 then ⟨0, u.coef / 2⟩ else u

/-- Adds one term to a list of terms with rising phases. -/
def insertTerm (t : CosTerm) : List CosTerm → List CosTerm
  | [] => if t.coef = 0 then [] else [t]
  | u :: us =>
    if t.coef = 0 then u :: us
    else if t.phase < u.phase then t :: u :: us
    else if t.phase = u.phase then
      if t.coef + u.coef = 0 then us else ⟨u.phase, t.coef + u.coef⟩ :: us
    else u :: insertTerm t us

/-- The sample that is the sum of the terms, in canonical form (log 6). -/
def ofTerms (ts : List CosTerm) : Sample := ⟨ts.foldr (fun t acc => insertTerm (foldTerm t) acc) []⟩

/-- The product of two terms: `cos α · cos β = (cos(α + β) + cos(α - β)) / 2`. -/
def mulTerm (t u : CosTerm) : List CosTerm :=
  [⟨t.phase + u.phase, t.coef * u.coef / 2⟩, ⟨t.phase - u.phase, t.coef * u.coef / 2⟩]

/-- A rational number as a sample. -/
def exactOfRat (q : Rat) : Sample := ofTerms [⟨0, q⟩]

/-- `COS1(θ) = cos(2π·θ)` (R13). -/
def exactCos1 (θ : Rat) : Sample := ofTerms [⟨θ, 1⟩]

/-- The sum of two samples. -/
def exactAdd (a b : Sample) : Sample := ofTerms (a.terms ++ b.terms)

/-- The product of two samples. -/
def exactMul (a b : Sample) : Sample :=
  ofTerms (a.terms.flatMap fun t => b.terms.flatMap fun u => mulTerm t u)

/-- The difference of two samples. -/
def exactSub (a b : Sample) : Sample :=
  ofTerms (a.terms ++ b.terms.map fun t => ⟨t.phase, -t.coef⟩)

/-! The order. A rational enclosure of the value decides the sign unless the value is very small; and
a value that is not 0 cannot be smaller than a bound that its terms give, because a suitable integer
multiple of it is an algebraic integer of a cyclotomic field, whose norm is at least 1. -/

/-- `n` terms of `arctan(1/m) = Σ (-1)^k / ((2k+1) · m^(2k+1))`. -/
def atanInv (m : Nat) : Nat → Rat
  | 0 => 0
  | n + 1 => atanInv m n + mkRat (if n % 2 = 0 then 1 else -1) ((2 * n + 1) * m ^ (2 * n + 1))

/-- π to within `2^(-p)`: `π = 16·arctan(1/5) - 4·arctan(1/239)`. -/
def piApprox (p : Nat) : Rat := 16 * atanInv 5 (p / 4 + 2) - 4 * atanInv 239 (p / 4 + 2)

/-- The multiple of `2^(-p)` next below `q`. -/
def roundDown (q : Rat) (p : Nat) : Rat := mkRat (q.num * 2 ^ p / q.den) (2 ^ p)

/-- `n` terms of `Σ_j (-y)^j · (2k)! / (2k+2j)!`; for `k = 0` and `y = x²` the cosine series. -/
def cosSeries (y : Rat) : Nat → Nat → Rat
  | 0, _ => 0
  | n + 1, k => 1 - y / (((2 * k + 1) * (2 * k + 2) : Nat) : Rat) * cosSeries y n (k + 1)

/-- `cos(2π·θ)` to within `2^(-p)`, for `0 ≤ θ ≤ 1/4`. -/
def cosApprox (θ : Rat) (p : Nat) : Rat :=
  let x := roundDown (2 * θ * piApprox (p + 2)) (p + 3)
  cosSeries (x * x) (p / 2 + 5) 0

/-- A natural number not below the sum of the coefficients' magnitudes. -/
def coefBound (ts : List CosTerm) : Nat :=
  ts.foldr (fun t n => t.coef.num.natAbs / t.coef.den + 1 + n) 0

/-- The least common multiple of the phases' denominators. -/
def phaseDen (ts : List CosTerm) : Nat := ts.foldr (fun t n => Nat.lcm t.phase.den n) 1

/-- The least common multiple of the coefficients' denominators. -/
def coefDen (ts : List CosTerm) : Nat := ts.foldr (fun t n => Nat.lcm t.coef.den n) 1

/-- The value of the terms to within `2^(-p)`. -/
def approxTerms (ts : List CosTerm) (p : Nat) : Rat :=
  let q := p + Nat.log2 (coefBound ts) + 1
  ts.foldr (fun t acc => t.coef * cosApprox t.phase q + acc) 0

/-- The sign of the value, where precision `p` decides it. -/
def signAt (ts : List CosTerm) (p : Nat) : Option Int :=
  let a := approxTerms ts p
  let e := mkRat 1 (2 ^ p)
  if e < a then some 1 else if a < -e then some (-1) else none

/-- A precision at which a value that is not 0 has its sign decided. -/
def signBits (ts : List CosTerm) : Nat :=
  let d := coefDen ts
  Nat.log2 (4 * d * (2 * d * coefBound ts) ^ phaseDen ts) + 1

/-- The sign of a sample in canonical form: 1, 0 or -1. -/
def exactSign (a : Sample) : Int :=
  match signAt a.terms 32 with
  | some s => s
  | none => (signAt a.terms (signBits a.terms)).getD 0

/-- The order of the real numbers on samples (R13). -/
def exactLt (a b : Sample) : Bool := exactSign (exactSub b a) == 1

/-- NUM = exact (R13): the normative arithmetic. -/
def exactNum : Num Sample where
  ofRat := exactOfRat
  add := exactAdd
  mul := exactMul
  lt := exactLt
  cos1 := exactCos1

end Sys2Proof.Machine
end

