-- ==== Sys2Proof/Machine/Build.lean ====
section
/-! DEFINITION. One build of the block: the build-time parameters of 00_scope.md R9 as one argument of the
commands' meanings. The carrier of NUM is the argument `S`; CNT_W is the width argument of `State`. -/

namespace Sys2Proof.Machine

/-- The build-time parameters (00_scope.md R9); "none is state and none changes during a run". -/
structure Build (S : Type) where
  /-- NUM (R13) -/
  num : Num S
  /-- SCORE (43_demodulator.md R160, R161) -/
  score : Score
  /-- MAX_FRAME_CHUNKS, at least 1; `none` is `unlimited` (44_detector.md R191) -/
  maxFrameChunks : Option Nat
  /-- GUESS2: for every syndrome a position 0..6 and which of the six others (41_ecc.md R112) -/
  guess2Code : Syndrome → Fin 7 × Fin 6

/-- GUESS2 as a pair of distinct positions. -/
def Build.guess2 {S : Type} (P : Build S) (sy : Syndrome) : Nat × Nat := Config.pairOfCode (P.guess2Code sy)

/-- The build that `exec` and `step` are: exact arithmetic (log 13), the decided SCORE and MAX_FRAME_CHUNKS
(log 8), and the open GUESS2 (log 7). -/
abbrev Build.decided : Build Sample where
  num := exactNum
  score := Config.score
  maxFrameChunks := Config.maxFrameChunks
  guess2Code := Config.guess2Code

end Sys2Proof.Machine
end

