-- ==== Sys2Proof/Machine/Operands.lean ====
section
/-! DEFINITION. The operand forms: sequences, their granules, padding and truncation (00_scope.md R11,
20_memory.md R64 to R67). -/

namespace Sys2Proof.Machine

/-- `s[i..j)` (00_scope.md R11). -/
def slice {α : Type} (s : List α) (i j : Nat) : List α := (s.drop i).take (j - i)

/-- The whole granules of `n` elements of a sequence, `s[k·n .. (k+1)·n)` for
`k = 0 .. floor(len/n) - 1`; a final partial granule is left out (20_memory.md R67). -/
def granules {α : Type} (n : Nat) (s : List α) : List (List α) :=
  (List.range (s.length / n)).map fun k => slice s (k * n) ((k + 1) * n)

/-- Zeros appended on the right up to the next multiple of `n` bits (20_memory.md R67). -/
def padBits (n : Nat) (bits : BitSeq) : BitSeq :=
  bits ++ List.replicate ((n - bits.length % n) % n) false

/-- Bit `i` of a granule. -/
def bitAt (s : BitSeq) (i : Nat) : Bit := s.getD i false

/-- The bits of one byte, most significant first (00_scope.md R11, 20_memory.md R64). -/
def byteBits (b : Byte) : BitSeq := (List.range 8).map fun i => b.getLsbD (7 - i)

/-- `bytes_to_bits(B)`, bytes in order (00_scope.md R11). -/
def bytesToBits (bs : ByteSeq) : BitSeq := bs.flatMap byteBits

/-- `x mod 1` for a phase in turns (10_state.md R46). -/
def mod1 (x : Rat) : Rat := x - (x.floor : Rat)

end Sys2Proof.Machine
end

