-- ==== Sys2Proof/Machine/Ecc.lean ====
section
/-! DEFINITION. The Hamming SECDED encoder and decoder, ECCENC and ECCDEC (41_ecc.md). -/

namespace Sys2Proof.Machine

/-- One ECC block `[p1,p2,d1,p3,d2,d3,d4,pg]` of four data bits (41_ecc.md R100, R101). -/
def eccBlock (d1 d2 d3 d4 : Bit) : BitSeq :=
  let p1 := (d1 ^^ d2) ^^ d3
  let p2 := (d1 ^^ d2) ^^ d4
  let p3 := (d2 ^^ d3) ^^ d4
  let pg := (((((p1 ^^ p2) ^^ p3) ^^ d1) ^^ d2) ^^ d3) ^^ d4
  [p1, p2, d1, p3, d2, d3, d4, pg]

/-- `ecc_encode(bits)` (41_ecc.md R102). -/
def eccEncode (bits : BitSeq) : BitSeq :=
  (granules 4 (padBits 4 bits)).flatMap fun g =>
    eccBlock (bitAt g 0) (bitAt g 1) (bitAt g 2) (bitAt g 3)

/-- The syndrome `s1 s2 s3` of a received block (41_ecc.md R105, R106). -/
def syndrome (r : BitSeq) : Syndrome :=
  let d1 := bitAt r 2
  let d2 := bitAt r 4
  let d3 := bitAt r 5
  let d4 := bitAt r 6
  (bitAt r 0 != ((d1 ^^ d2) ^^ d3), bitAt r 1 != ((d1 ^^ d2) ^^ d4), bitAt r 3 != ((d2 ^^ d3) ^^ d4))

/-- `pg_calc`, from the seven received non-global bits (41_ecc.md R105). -/
def pgCalc (r : BitSeq) : Bit :=
  (((((bitAt r 0 ^^ bitAt r 1) ^^ bitAt r 2) ^^ bitAt r 3) ^^ bitAt r 4) ^^ bitAt r 5) ^^ bitAt r 6

/-- `SYN1`: the position whose flip gives the syndrome (41_ecc.md R107); none for `000`. -/
def syn1 : Syndrome → Option Nat
  | (true, false, false) => some 0
  | (false, true, false) => some 1
  | (true, true, false) => some 2
  | (false, false, true) => some 3
  | (true, true, true) => some 4
  | (true, false, true) => some 5
  | (false, true, true) => some 6
  | (false, false, false) => none

/-- The three cases of a received block (41_ecc.md R108). -/
inductive BlockCase where
  | noError
  | single
  | guess
  deriving DecidableEq, Repr

/-- The case of a received block (41_ecc.md R108). -/
def classify (r : BitSeq) : BlockCase :=
  if bitAt r 7 = pgCalc r then
    if syndrome r = (false, false, false) then .noError else .guess
  else .single

/-- `r[i] <- 1 - r[i]`. -/
def flipAt (r : BitSeq) (i : Nat) : BitSeq := r.set i (!bitAt r i)

/-- The four data bits of a block, `[r[2], r[4], r[5], r[6]]` (41_ecc.md R109). -/
def dataBits (r : BitSeq) : BitSeq := [bitAt r 2, bitAt r 4, bitAt r 5, bitAt r 6]

/-- The four bits a received block decodes to (41_ecc.md R109 to R111), with GUESS2 as `g`. -/
def decodeBlock (g : Syndrome → Nat × Nat) (r : BitSeq) : BitSeq :=
  match classify r with
  | .noError => dataBits r
  | .single =>
    match syn1 (syndrome r) with
    | some i => dataBits (flipAt r i)
    | none => dataBits r
  | .guess => dataBits (flipAt (flipAt r (g (syndrome r)).1) (g (syndrome r)).2)

/-- `ecc_decode(bits)`, with GUESS2 as `g`: the data bits and the number of guessed blocks
(41_ecc.md R113). -/
def eccDecode (g : Syndrome → Nat × Nat) (bits : BitSeq) : BitSeq × Nat :=
  ((granules 8 bits).flatMap (decodeBlock g),
    (granules 8 bits).countP fun r => decide (classify r = .guess))

/-- The spec's default table for vectors (41_ecc.md R112); exec does not use it. -/
def guess2Default : Syndrome → Nat × Nat
  | (true, false, false) => (1, 2)
  | (false, true, false) => (0, 2)
  | (true, true, false) => (0, 1)
  | (false, false, true) => (0, 5)
  | (true, false, true) => (0, 3)
  | (false, true, true) => (0, 4)
  | (true, true, true) => (0, 6)
  | (false, false, false) => (0, 1)

variable {S : Type} {w : Nat}

/-- ECCENC, for every carrier and counter width (41_ecc.md R103). -/
def eccencOn (bitin : BitSeq) (s : State S w) : Out S w :=
  configured s (.next (s.respond (.bits (eccEncode bitin)) []))

/-- ECCENC (41_ecc.md R103). -/
def execEccenc (bitin : BitSeq) (s : State) : Out := eccencOn bitin s

/-- ECCDEC of a build (41_ecc.md R115). -/
def eccdecWith (P : Build S) (bitin : BitSeq) (s : State S w) : Out S w :=
  let d := eccDecode P.guess2 bitin
  configured s (.next ((s.countGuessed d.2).respond (.bitsGuessed d.1 d.2) []))

/-- ECCDEC (41_ecc.md R115). -/
def execEccdec (bitin : BitSeq) (s : State) : Out := eccdecWith Build.decided bitin s

end Sys2Proof.Machine
end

