-- ==== Sys2Proof/Machine/Tables.lean ====
section
/-! DEFINITION. The derived tables, functions of the configuration registers and of nothing else
(10_state.md R43 to R48), and the symbol alphabet (42_modulator.md R131, R132). -/

namespace Sys2Proof.Machine

/-- SPS, samples per symbol (10_state.md R43). -/
def Cfg.sps (c : Cfg) : Nat := c.fs / c.rate

/-- SYMBOL_TIME in seconds; no rule reads it (10_state.md R44). -/
def Cfg.symbolTime (c : Cfg) : Rat := 1 / (c.rate : Rat)

/-- The four rows of the alphabet, in ascending frequency (42_modulator.md R131). -/
inductive Row where
  | r0
  | r1
  | r2
  | r3
  deriving DecidableEq, Repr

/-- The rows in alphabet order. -/
def Row.all : List Row := [.r0, .r1, .r2, .r3]

/-- `row(b0, b1)` (42_modulator.md R132). -/
def rowOf : Bit → Bit → Row
  | true, false => .r0
  | true, true => .r1
  | false, true => .r2
  | false, false => .r3

/-- `dibit(i)` (42_modulator.md R132). -/
def Row.dibit : Row → Bit × Bit
  | .r0 => (true, false)
  | .r1 => (true, true)
  | .r2 => (false, true)
  | .r3 => (false, false)

/-- The row of an index 0 to 3 of the alphabet. -/
def Row.ofIndex : Nat → Row
  | 0 => .r0
  | 1 => .r1
  | 2 => .r2
  | _ => .r3

/-- FREQ, the tone frequencies in Hz (10_state.md R45). -/
def Cfg.freq (c : Cfg) : Row → Rat
  | .r0 => c.fc - 3 / 2 * c.df
  | .r1 => c.fc - 1 / 2 * c.df
  | .r2 => c.fc + 1 / 2 * c.df
  | .r3 => c.fc + 3 / 2 * c.df

/-- TONE, the reference bursts: `TONE[i][n] = COS1((FREQ[i] · n / FS) mod 1)` (10_state.md R46). -/
def Cfg.tone {S : Type} (N : Num S) (c : Cfg) (i : Row) : List S :=
  (List.range c.sps).map fun (n : Nat) => N.cos1 (mod1 (c.freq i * (n : Rat) / (c.fs : Rat)))

/-- START_BITS (10_state.md R47). -/
def Cfg.startBits (c : Cfg) : BitSeq := bytesToBits c.keyStart

/-- END_BITS (10_state.md R47). -/
def Cfg.endBits (c : Cfg) : BitSeq := bytesToBits c.keyEnd

/-- One part of a frame: through the ECC encoder or not (10_state.md R32). -/
def codedIf (enable : Bit) (bits : BitSeq) : BitSeq := if enable then eccEncode bits else bits

/-- START_CODED (10_state.md R48). -/
def Cfg.startCoded (c : Cfg) : BitSeq := codedIf c.eccEn.start c.startBits

/-- END_CODED (10_state.md R48). -/
def Cfg.endCoded (c : Cfg) : BitSeq := codedIf c.eccEn.stop c.endBits

end Sys2Proof.Machine
end

