-- ==== Sys2Proof/Machine/Modulator.lean ====
section
/-! DEFINITION. The FSK symbol modulator, MODBITS and TXFRAME (42_modulator.md), and the reference
waveforms START_REF and END_REF (10_state.md R49, R50). -/

namespace Sys2Proof.Machine

/-- The dibit mapper: the alphabet row of every symbol, the input padded to even length
(42_modulator.md R130, R132). -/
def symbolRows (bits : BitSeq) : List Row :=
  (granules 2 (padBits 2 bits)).map fun w => rowOf (bitAt w 0) (bitAt w 1)

/-- `modulate(bits)` (42_modulator.md R134). -/
def modulate {S : Type} (N : Num S) (c : Cfg) (bits : BitSeq) : List S :=
  (symbolRows bits).flatMap (c.tone N)

/-- START_REF (10_state.md R49). -/
def Cfg.startRef {S : Type} (N : Num S) (c : Cfg) : List S := modulate N c c.startCoded

/-- END_REF (10_state.md R50). -/
def Cfg.endRef {S : Type} (N : Num S) (c : Cfg) : List S := modulate N c c.endCoded

/-- `frame(payload)` (42_modulator.md R137). -/
def frame {S : Type} (N : Num S) (c : Cfg) (payload : BitSeq) : List S :=
  c.startRef N ++ modulate N c (codedIf c.eccEn.payload payload) ++ c.endRef N

variable {S : Type} {w : Nat}

/-- MODBITS of a build (42_modulator.md R135). -/
def modbitsWith (P : Build S) (bitin : BitSeq) (s : State S w) : Out S w :=
  configured s (.next (s.respond (.samples (modulate P.num s.cfg bitin)) []))

/-- MODBITS (42_modulator.md R135). -/
def execModbits (bitin : BitSeq) (s : State) : Out := modbitsWith Build.decided bitin s

/-- TXFRAME of a build (42_modulator.md R138). -/
def txframeWith (P : Build S) (bitin : BitSeq) (s : State S w) : Out S w :=
  configured s (.next (s.respond (.samples (frame P.num s.cfg bitin)) []))

/-- TXFRAME (42_modulator.md R138). -/
def execTxframe (bitin : BitSeq) (s : State) : Out := txframeWith Build.decided bitin s

end Sys2Proof.Machine
end

