-- ==== Sys2Proof/Machine/Demodulator.lean ====
section
/-! DEFINITION. The matched-filter demodulator, LOCATE, DEMOD and RXFRAME (43_demodulator.md). -/

namespace Sys2Proof.Machine

/-- `xcorr_valid(x, ref)` for `len(ref) ≤ len(x)`: `c[k] = Σ_j x[k + j] · ref[j]`
(43_demodulator.md R151). -/
def xcorrValid {S : Type} (N : Num S) (x ref : List S) : List S :=
  (List.range (x.length - ref.length + 1)).map fun k => N.dot (slice x k (k + ref.length)) ref

/-- `locate_frame(signal, start_ref, end_ref)`; `none` is `NoSyncFound` (43_demodulator.md R153,
R154). -/
def locateFrame {S : Type} (N : Num S) (signal startRef endRef : List S) : Option (Nat × Nat) :=
  if startRef.length > signal.length ∨ endRef.length > signal.length then none
  else
    let startIdx := argmaxFirst N.lt (xcorrValid N signal startRef) + startRef.length
    let endIdx := argmaxFirst N.lt (xcorrValid N signal endRef)
    if startIdx ≥ endIdx then none else some (startIdx, endIdx)

/-- `v·|v|` for the dot product `v`, by which `ndotLt` compares scores of unequal norms. DEDUCED for the exact
NUM, log 14; under a NUM that is not exact a DESIGN CHOICE, log 16. -/
def signedSquare {S : Type} (N : Num S) (a : S) : S :=
  if N.lt a (N.ofRat 0) then N.mul (N.ofRat (-1)) (N.mul a a) else N.mul a a

/-- The order of the normalised scores `a/√g` and `b/√h` for positive `g` and `h`, without the square
root: `a·|a|·h < b·|b|·g`. The window's own norm divides all four scores alike; a window of norm 0
has four products 0, which tie (43_demodulator.md R161). DEDUCED for the exact NUM, log 14. DESIGN CHOICE
under a NUM that is not exact, log 16: R161 divides by square roots, which the record of 00_scope.md R13 does
not have, so how such a NUM decides is open; the model compares these products in that NUM. -/
def ndotLt {S : Type} (N : Num S) (u v : S × S) : Bool :=
  N.lt (N.mul (signedSquare N u.1) v.2) (N.mul (signedSquare N v.1) u.2)

/-- `decide(w)`: the first row in alphabet order whose score no other exceeds
(43_demodulator.md R160 to R162); for NDOT by `ndotLt` (log 14; under a NUM that is not exact the model's
choice, log 16). -/
def decideRow {S : Type} (N : Num S) (score : Score) (c : Cfg) (w : List S) : Row :=
  match score with
  | .dot => Row.ofIndex (argmaxFirst N.lt (Row.all.map fun i => N.dot w (c.tone N i)))
  | .ndot =>
    Row.ofIndex (argmaxFirst (ndotLt N)
      (Row.all.map fun i => (N.dot w (c.tone N i), N.dot (c.tone N i) (c.tone N i))))

/-- `demodulate(seg)` (43_demodulator.md R163). -/
def demodulate {S : Type} (N : Num S) (score : Score) (c : Cfg) (seg : List S) : BitSeq :=
  (granules c.sps seg).flatMap fun w =>
    [(decideRow N score c w).dibit.1, (decideRow N score c w).dibit.2]

/-- `receive(signal)` (43_demodulator.md R167), with GUESS2 as `g`; `none` is `NoSyncFound`. -/
def receive {S : Type} (N : Num S) (score : Score) (g : Syndrome → Nat × Nat) (c : Cfg)
    (signal : List S) : Option (BitSeq × Nat) :=
  match locateFrame N signal (c.startRef N) (c.endRef N) with
  | none => none
  | some (b, e) =>
    let bits := demodulate N score c (slice signal b e)
    if c.eccEn.payload then some (eccDecode g bits) else some (bits, 0)

variable {S : Type} {w : Nat}

/-- LOCATE of a build (43_demodulator.md R157). -/
def locateWith (P : Build S) (sampin : List S) (s : State S w) : Out S w :=
  configured s <|
    match locateFrame P.num sampin (s.cfg.startRef P.num) (s.cfg.endRef P.num) with
    | none => .next (s.raise .noSyncFound)
    | some (b, e) => .next (s.respond (.indices b e) [])

/-- DEMOD of a build (43_demodulator.md R164). -/
def demodWith (P : Build S) (sampin : List S) (s : State S w) : Out S w :=
  configured s (.next (s.respond (.bits (demodulate P.num P.score s.cfg sampin)) []))

/-- RXFRAME of a build (43_demodulator.md R168). -/
def rxframeWith (P : Build S) (sampin : List S) (s : State S w) : Out S w :=
  configured s <|
    match receive P.num P.score P.guess2 s.cfg sampin with
    | none => .next (s.raise .noSyncFound)
    | some (out, n) => .next ((s.countGuessed n).respond (.bitsGuessed out n) [])

/-- LOCATE (43_demodulator.md R157). -/
def execLocate (sampin : SampleSeq) (s : State) : Out := locateWith Build.decided sampin s

/-- DEMOD (43_demodulator.md R164). -/
def execDemod (sampin : SampleSeq) (s : State) : Out := demodWith Build.decided sampin s

/-- RXFRAME (43_demodulator.md R168). -/
def execRxframe (sampin : SampleSeq) (s : State) : Out := rxframeWith Build.decided sampin s

end Sys2Proof.Machine
end

