-- ==== Sys2Proof/Machine/Detector.lean ====
section
/-! DEFINITION. The real-time frame detector, DETSTART, DETCHUNK, DETSTOP, TXON and TXOFF
(44_detector.md). -/

namespace Sys2Proof.Machine

/-- The correlation of the rolling correlator: the shorter sequence slides over the longer
(44_detector.md R181). -/
def rollingCorr {S : Type} (N : Num S) (x ref : List S) : List S :=
  if ref.length ≤ x.length then xcorrValid N x ref else xcorrValid N ref x

/-- `peak(x, ref)`, the greatest value of the correlation (44_detector.md R181). -/
def peak {S : Type} (N : Num S) (x ref : List S) : S :=
  (rollingCorr N x ref).getD (argmaxFirst N.lt (rollingCorr N x ref)) (N.ofRat 0)

/-- `hit(x, ref)`: `peak(x, ref) > THRESH`, strictly (44_detector.md R183). -/
def hit {S : Type} (N : Num S) (thresh : Rat) (x ref : List S) : Bool :=
  N.lt (N.ofRat thresh) (peak N x ref)

/-- A buffer of more than MAX_FRAME_CHUNKS chunks (44_detector.md R191); never when unlimited. -/
def overrun (maxChunks : Option Nat) (chunkLen len : Nat) : Bool :=
  match maxChunks with
  | none => false
  | some m => decide (m < len / chunkLen)

variable {S : Type} {w : Nat}

/-- The detector's transition on a chunk of the right length (44_detector.md R184 to R191). -/
def detTransition (P : Build S) (chunkLen : Nat) (x : List S) (s : State S w) : State S w :=
  match s.detState with
  | .idle =>
    if s.txActive = false ∧ hit P.num s.cfg.thresh x (s.cfg.startRef P.num) = true then
      { s with detState := .recording, detBuf := x }.respond .empty [.startOfFrame]
    else s.respond .empty []
  | .recording =>
    let buf := s.detBuf ++ x
    if overrun P.maxFrameChunks chunkLen buf.length = true then
      { s with detState := .idle, detBuf := [] }.respond .empty [.frameOverrun]
    else if hit P.num s.cfg.thresh x (s.cfg.endRef P.num) = true then
      { s with detState := .idle, detBuf := [] }.respond .empty [.frameComplete buf]
    else { s with detBuf := buf }.respond .empty []

/-- DETCHUNK after the preamble (44_detector.md R184, 60_exceptions.md R239). -/
def detChunk (P : Build S) (x : List S) (s : State S w) : State S w :=
  match s.cfg.chunkLen with
  | none => s.raise .notConfigured
  | some n =>
    if s.detRun = false then s.raise .detectorStopped
    else if x.length ≠ n then s.raise .badChunkLength
    else detTransition P n x s

/-- DETCHUNK of a build (44_detector.md R184). -/
def detchunkWith (P : Build S) (sampin : List S) (s : State S w) : Out S w :=
  configured s (.next (detChunk P sampin s))

/-- DETSTART, for every carrier and counter width (44_detector.md R182). -/
def detstartOn (s : State S w) : Out S w :=
  configured s <|
    match s.cfg.chunkLen with
    | none => .next (s.raise .notConfigured)
    | some _ =>
      if s.detRun = false then
        .next ({ s with detRun := true, detState := .idle, detBuf := [] }.respond .empty [])
      else .next (s.respond .empty [])

/-- DETSTART (44_detector.md R182). -/
def execDetstart (s : State) : Out := detstartOn s

/-- DETCHUNK (44_detector.md R184). -/
def execDetchunk (sampin : SampleSeq) (s : State) : Out := detchunkWith Build.decided sampin s

/-- DETSTOP, for every carrier and counter width (44_detector.md R192). -/
def detstopOn (s : State S w) : Out S w :=
  configured s (.next ({ s with detRun := false, detState := .idle, detBuf := [] }.respond .empty []))

/-- DETSTOP (44_detector.md R192). -/
def execDetstop (s : State) : Out := detstopOn s

/-- TXON, for every carrier and counter width (44_detector.md R194). -/
def txonOn (s : State S w) : Out S w :=
  configured s (.next ({ s with txActive := true }.respond .empty []))

/-- TXON (44_detector.md R194). -/
def execTxon (s : State) : Out := txonOn s

/-- TXOFF, for every carrier and counter width (44_detector.md R195). -/
def txoffOn (s : State S w) : Out S w :=
  configured s (.next ({ s with txActive := false }.respond .empty []))

/-- TXOFF (44_detector.md R195). -/
def execTxoff (s : State) : Out := txoffOn s

end Sys2Proof.Machine
end

