-- ==== Sys2Proof/Machine/Dispatch.lean ====
section
/-! DEFINITION. The dispatch: one arm per command (30_encoding.md R86). -/

namespace Sys2Proof.Machine

def exec (i : Instr) (s : State) : Host.Outcome State Fault Refusal :=
  match i with
  | .cfgload cfgin => Sys2Proof.Machine.execCfgload cfgin s
  | .rdstat => Sys2Proof.Machine.execRdstat s
  | .eccenc bitin => Sys2Proof.Machine.execEccenc bitin s
  | .eccdec bitin => Sys2Proof.Machine.execEccdec bitin s
  | .modbits bitin => Sys2Proof.Machine.execModbits bitin s
  | .txframe bitin => Sys2Proof.Machine.execTxframe bitin s
  | .locate sampin => Sys2Proof.Machine.execLocate sampin s
  | .demod sampin => Sys2Proof.Machine.execDemod sampin s
  | .rxframe sampin => Sys2Proof.Machine.execRxframe sampin s
  | .detstart => Sys2Proof.Machine.execDetstart s
  | .detchunk sampin => Sys2Proof.Machine.execDetchunk sampin s
  | .detstop => Sys2Proof.Machine.execDetstop s
  | .txon => Sys2Proof.Machine.execTxon s
  | .txoff => Sys2Proof.Machine.execTxoff s

end Sys2Proof.Machine
end

