-- ==== Sys2Proof/Machine/Fetch.lean ====
section
/-! DEFINITION. What a step does with the host's next input: a reset, a command, or a reserved opcode; and
the block with every build-time parameter of 00_scope.md R9 as an argument, of which `exec` and `step` are
the build `Build.decided`. -/

namespace Sys2Proof.Machine

variable {S : Type} {w : Nat}

/-- The commands of a build (30_encoding.md R86): NUM and its carrier, SCORE, MAX_FRAME_CHUNKS and GUESS2 are
`P`, CNT_W is `w`. The commands that no parameter touches have one meaning for all builds. -/
def execWith (P : Build S) (i : Instr S) (s : State S w) : Out S w :=
  match i with
  | .cfgload cfgin => cfgloadOn cfgin s
  | .rdstat => rdstatOn s
  | .eccenc bitin => eccencOn bitin s
  | .eccdec bitin => eccdecWith P bitin s
  | .modbits bitin => modbitsWith P bitin s
  | .txframe bitin => txframeWith P bitin s
  | .locate sampin => locateWith P sampin s
  | .demod sampin => demodWith P sampin s
  | .rxframe sampin => rxframeWith P sampin s
  | .detstart => detstartOn s
  | .detchunk sampin => detchunkWith P sampin s
  | .detstop => detstopOn s
  | .txon => txonOn s
  | .txoff => txoffOn s

/-- The effect of one input (`s` no longer lists it), the commands being `run`: the reset event
(70_reset_and_hazards.md R260), the decoded command, or, for a reserved opcode, `IllegalCommand`, the first
check of the preamble (40_control.md R91, 30_encoding.md R87). -/
def takeInput (run : Instr S → State S w → Out S w) (i : Input S) (s : State S w) : Out S w :=
  match i with
  | .reset => .next s.afterReset
  | .command c =>
    match decode c with
    | .ok instr => run instr s
    | .error _ => .next (s.raise .illegalCommand)

/-- One step, the commands being `run`: the block takes the host's oldest pending input (20_memory.md R71);
with none it holds its state (60_exceptions.md R251; log 3). -/
def takeOldest (run : Instr S → State S w → Out S w) (s : State S w) : Out S w :=
  match s.inputs with
  | [] => .next s
  | i :: rest => takeInput run i { s with inputs := rest }

/-- One step of a build. -/
def stepWith (P : Build S) (s : State S w) : Out S w := takeOldest (execWith P) s

/-- The host presents the table word `w` as its next command, before what it has pending. -/
def presentWord (s : State) (w : Nat) : State :=
  { s with inputs := .command (tableCommand w) :: s.inputs }

end Sys2Proof.Machine
end

