-- ==== Sys2Proof/Machine/Step.lean ====
section
/-! DEFINITION. One step: the block takes the host's oldest pending input (20_memory.md R71). -/

namespace Sys2Proof.Machine

/-- One step of the block as built: the host's oldest input, with `exec` for the commands. -/
def step (s : State) : Host.Outcome State Fault Refusal := takeOldest exec s

/-- The state in which the next step takes the command of the table word `w`; the width carries no
more, since every command is one opcode byte (30_encoding.md R80). Log 11. -/
def State.withFetchWord (s : State) (_nbits w : Nat) : State := presentWord s w

end Sys2Proof.Machine
end

