-- ==== Sys2Proof/WellFormed.lean ====
section
/-! DEFINITION. Well-formed commands: the sample operands are in the canonical form of log 6. The
spec forbids no operand (43_demodulator.md R157, R164: "any `SampleSeq`"), so nothing else is
checked; an operand out of canonical form still has its meaning as a sum of terms. -/

namespace Sys2Proof

/-- A canonical term: the coefficient is not zero; the phase lies in [0, 1/4), and is not 1/6, where
the cosine is rational. -/
def CosTerm.wf (t : CosTerm) : Bool :=
  decide (t.coef ≠ 0) && decide (0 ≤ t.phase) && decide (t.phase < 1/4) && decide (t.phase ≠ 1/6)

/-- The phases rise strictly, all above `lo`. -/
def CosTerm.risingFrom (lo : Rat) : List CosTerm → Bool
  | [] => true
  | t :: ts => decide (lo < t.phase) && CosTerm.risingFrom t.phase ts

/-- A sample in canonical form: canonical terms with strictly rising phases. -/
def Sample.wf (a : Sample) : Bool :=
  a.terms.all CosTerm.wf && CosTerm.risingFrom (-1) a.terms

/-- A command whose sample operand, if it has one, is in canonical form. -/
def Instr.wf : Instr → Bool
  | .cfgload _ => true
  | .rdstat => true
  | .eccenc _ => true
  | .eccdec _ => true
  | .modbits _ => true
  | .txframe _ => true
  | .locate x => x.all Sample.wf
  | .demod x => x.all Sample.wf
  | .rxframe x => x.all Sample.wf
  | .detstart => true
  | .detchunk x => x.all Sample.wf
  | .detstop => true
  | .txon => true
  | .txoff => true

end Sys2Proof
end

