-- ==== Sys2Proof/Safety.lean ====
section
/-! DEFINITION. What claims are stated in: the real number a sample is, the real numerics of
00_scope.md R13 and the build of the block with them, and the invariant of the block's state. Nothing here
is executed. -/

namespace Sys2Proof

/-- The real number a term is. -/
noncomputable def CosTerm.toReal (t : CosTerm) : ℝ := (t.coef : ℝ) * Real.cos (2 * Real.pi * (t.phase : ℝ))

/-- The real number a sample is. -/
noncomputable def Sample.toReal (a : Sample) : ℝ := (a.terms.map CosTerm.toReal).sum

/-- A command with its samples mapped. -/
def Instr.map {S T : Type} (f : S → T) : Instr S → Instr T
  | .cfgload c => .cfgload c
  | .rdstat => .rdstat
  | .eccenc b => .eccenc b
  | .eccdec b => .eccdec b
  | .modbits b => .modbits b
  | .txframe b => .txframe b
  | .locate x => .locate (x.map f)
  | .demod x => .demod (x.map f)
  | .rxframe x => .rxframe (x.map f)
  | .detstart => .detstart
  | .detchunk x => .detchunk (x.map f)
  | .detstop => .detstop
  | .txon => .txon
  | .txoff => .txoff

namespace Machine

open Classical in
/-- NUM over the real numbers themselves: "`+`, `·`, `<`, `≤`, `=` on the reals, `cos` the real
cosine, `π` the circle constant" (00_scope.md R13). -/
noncomputable def realNum : Num ℝ where
  ofRat q := (q : ℝ)
  add a b := a + b
  mul a b := a * b
  lt a b := decide (a < b)
  cos1 θ := Real.cos (2 * Real.pi * (θ : ℝ))

/-- The build with the real numbers themselves for samples, the other parameters the same. -/
noncomputable def Build.toReal {S : Type} (P : Build S) : Build ℝ :=
  ⟨realNum, P.score, P.maxFrameChunks, P.guess2Code⟩

/-- The block of the spec's own `Sample`, any real number (00_scope.md R10), with the decided parameters: its
commands are `execWith realBuild`, its steps `stepWith realBuild`, its states `State ℝ`. It computes with
arbitrary reals and so is not executed; log 5 says how `exec` relates to it. -/
noncomputable def realBuild : Build ℝ := Build.decided.toReal

/-! The block over another carrier of samples: every sample mapped, everything else the same. -/

section Carrier

variable {S T : Type} {w : Nat}

/-- A result with its samples mapped. -/
def Result.map (f : S → T) : Result S w → Result T w
  | .empty => .empty
  | .bits b => .bits b
  | .bitsGuessed b n => .bitsGuessed b n
  | .samples x => .samples (x.map f)
  | .indices b e => .indices b e
  | .stat st u n => .stat st u n

/-- An event with its samples mapped. -/
def Event.map (f : S → T) : Event S → Event T
  | .startOfFrame => .startOfFrame
  | .frameComplete x => .frameComplete (x.map f)
  | .frameOverrun => .frameOverrun

/-- A response with its samples mapped. -/
def Response.map (f : S → T) : Response S w → Response T w
  | .ok r ev => .ok (r.map f) (ev.map (Event.map f))
  | .error e => .error e

/-- An input with its samples mapped. -/
def Input.map (f : S → T) : Input S → Input T
  | .command c => .command ⟨c.op, c.cfgin, c.bitin, c.sampin.map f⟩
  | .reset => .reset

/-- A state with its samples mapped: DET_BUF, and the samples of inputs and responses. -/
def State.map (f : S → T) (s : State S w) : State T w where
  cfgValid := s.cfgValid
  cfg := s.cfg
  detRun := s.detRun
  detState := s.detState
  detBuf := s.detBuf.map f
  txActive := s.txActive
  uncorrCnt := s.uncorrCnt
  inputs := s.inputs.map (Input.map f)
  responses := s.responses.map (Response.map f)

end Carrier

/-- A waveform as real numbers. -/
noncomputable def waveReal (x : SampleSeq) : List ℝ := x.map Sample.toReal

/-- Sample `n` of a waveform as a real number; 0 beyond its end. -/
noncomputable def sampleAt (x : SampleSeq) (n : Nat) : ℝ := (waveReal x).getD n 0

/-- `Σ_j x[k + j] · ref[j]` for sequences of arbitrary real numbers (43_demodulator.md R151). -/
noncomputable def corrReal (x ref : List ℝ) (k : Nat) : ℝ :=
  ∑ j ∈ Finset.range ref.length, x.getD (k + j) 0 * ref.getD j 0

/-- `peak(x, ref) > th` for arbitrary real samples: some correlation exceeds `th`, the shorter sequence
sliding over the longer (44_detector.md R181, R183). -/
def HitReal (th : Rat) (x ref : List ℝ) : Prop :=
  (ref.length ≤ x.length ∧ ∃ k, k ≤ x.length - ref.length ∧ (th : ℝ) < corrReal x ref k) ∨
  (x.length < ref.length ∧ ∃ k, k ≤ ref.length - x.length ∧ (th : ℝ) < corrReal ref x k)

/-- Sample `n` of the burst of row `i`, `cos(2π · FREQ[i] · n / FS)` (10_state.md R46). -/
noncomputable def Cfg.toneReal (c : Cfg) (i : Row) (n : Nat) : ℝ :=
  Real.cos (2 * Real.pi * (c.freq i : ℝ) * n / c.fs)

/-- `Σ_j x[k + j] · ref[j]` over the real numbers (43_demodulator.md R151). -/
noncomputable def corrAt (x ref : SampleSeq) (k : Nat) : ℝ :=
  ∑ j ∈ Finset.range ref.length, sampleAt x (k + j) * sampleAt ref j

/-- The score of the window that begins at `k` against row `i` (43_demodulator.md R160). -/
noncomputable def Cfg.scoreAt (c : Cfg) (x : SampleSeq) (k : Nat) (i : Row) : ℝ :=
  ∑ n ∈ Finset.range c.sps, sampleAt x (k + n) * c.toneReal i n

/-- The Gram matrix of the four bursts (43_demodulator.md R165). -/
noncomputable def Cfg.gram (c : Cfg) (i j : Row) : ℝ :=
  ∑ n ∈ Finset.range c.sps, c.toneReal i n * c.toneReal j n

/-- The norm of a window (43_demodulator.md R161). -/
noncomputable def waveNorm (w : SampleSeq) : ℝ :=
  Real.sqrt (∑ n ∈ Finset.range w.length, sampleAt w n * sampleAt w n)

/-- The normalised score of a window against row `i`; 0 for a window of norm 0 (43_demodulator.md R161). -/
noncomputable def Cfg.normScore (c : Cfg) (w : SampleSeq) (i : Row) : ℝ :=
  if waveNorm w = 0 then 0 else c.scoreAt w 0 i / (waveNorm w * Real.sqrt (c.gram i i))

/-- `m` is the least index below `n` whose value no other exceeds (00_scope.md R14, `argmax_first`). -/
def FirstMax (v : Nat → ℝ) (n m : Nat) : Prop :=
  m < n ∧ (∀ k, k < n → v k ≤ v m) ∧ ∀ k, k < m → v k < v m

/-- The fourteen opcode bytes of 30_encoding.md R86. -/
def opcodeBytes : List Byte :=
  [0x00#8, 0x01#8, 0x10#8, 0x11#8, 0x20#8, 0x21#8, 0x30#8, 0x31#8, 0x32#8, 0x40#8, 0x41#8, 0x42#8, 0x43#8, 0x44#8]

/-- A loaded configuration holds legal values (10_state.md R25, R26, R29, R31). -/
def Cfg.Legal (c : Cfg) : Prop :=
  1 ≤ c.fs ∧ 1 ≤ c.rate ∧ c.rate ≤ c.fs ∧ 0 < c.df ∧ ∀ n, c.chunkLen = some n → 1 ≤ n

/-- The condition of 43_demodulator.md R166 on a configuration. -/
def Cfg.Orthogonal (c : Cfg) : Prop :=
  c.Legal ∧ c.rate ∣ c.fs ∧ (∃ m : Nat, 1 ≤ m ∧ c.df = (m : Rat) * c.rate) ∧
    (∃ z : Int, 2 * c.fc = (z : Rat) * c.rate) ∧ 0 < c.freq .r0 ∧ c.freq .r3 < (c.fs : Rat) / 2

/-- DET_STATE and DET_BUF agree (10_state.md R37): empty in `Idle`; in `Recording` a positive number
of chunks. -/
def State.BufOk {S : Type} {w : Nat} (s : State S w) : Prop :=
  (s.detState = .idle → s.detBuf = []) ∧
  (s.detState = .recording →
    s.detRun = true ∧ ∃ n k, s.cfg.chunkLen = some n ∧ 1 ≤ k ∧ s.detBuf.length = k * n)

/-- The invariant of the block: a loaded configuration is legal (10_state.md R23 to R31), the detector
runs only with a chunk length (44_detector.md R182), the buffer agrees with the detector's state
(10_state.md R37), and before a configuration is loaded everything else is at its reset value
(40_control.md R91, 10_state.md R51). -/
structure State.Inv {S : Type} {w : Nat} (s : State S w) : Prop where
  legal : s.cfgValid = true → s.cfg.Legal
  running : s.detRun = true → s.cfgValid = true ∧ ∃ n, s.cfg.chunkLen = some n
  buf : s.BufOk
  unconfigured : s.cfgValid = false → s.txActive = false ∧ s.uncorrCnt = 0#w

/-- With a limit of `m` chunks, DET_BUF is never longer than `m` chunks (44_detector.md R191). -/
def State.WithinLimit {S : Type} {w : Nat} (limit : Option Nat) (s : State S w) : Prop :=
  ∀ m n, limit = some m → s.cfg.chunkLen = some n → s.detBuf.length ≤ m * n

end Machine

end Sys2Proof
end

