-- ==== Sys2Proof/Certificates/Slice0/Obligations.lean ====
section
/-! DEFINITION. The statements for the provers. `s.respond r ev` is `s` with the response `Ok` of result
`r` and events `ev` delivered, `s.raise e` is `s` with the error response `e` delivered, and nothing else
of `s` changed: every equation below is also the command's frame. The lists `inputs` and `responses` that the
statements speak of are the model's own, not elements of the block (logs 1 and 2). -/

open Sys2Proof Sys2Proof.Machine

/-! ## Reset, step, decode -/

/-- 10_state.md R51: the six values the spec gives for reset; and that the configuration registers, which
the spec leaves unspecified (their values are the model's choice, log 4), are unobservable until a CFGLOAD
has written all of them: another content gives every command the same response and the same effect. -/
def Obligations.ResetLeavesTheSpecValues : Prop :=
  (State.reset.cfgValid = false ∧ State.reset.detRun = false ∧ State.reset.detState = .idle ∧
    State.reset.detBuf = [] ∧ State.reset.txActive = false ∧ State.reset.uncorrCnt = 0#32) ∧
  ∀ (s t : State) (c : Cfg) (i : Instr), s.cfgValid = false → exec i s = .next t →
    ∃ t', exec i { s with cfg := c } = .next t' ∧ (t.cfgValid = true → t' = t) ∧
      (t.cfgValid = false → t' = { t with cfg := c })

/-- 70_reset_and_hazards.md R260: a reset puts the block in the reset state. That the host's later inputs
and the responses it has had stay is the model's choice, log 10; so are the values of the configuration
registers in that state, which the spec leaves unspecified, log 4. -/
def Obligations.ResetEventRestoresTheBlock : Prop :=
  ∀ (s : State) (rest : List Input), s.inputs = .reset :: rest →
    step s = .next { State.reset with inputs := rest, responses := s.responses }

/-- 20_memory.md R71: the block executes the host's commands one at a time in the order issued. A step
takes the oldest input; when its bytes decode to a command, the step is that command's meaning. That the
block holds its state when there is no input is the model's choice, log 3. -/
def Obligations.StepRunsTheDecodedCommand : Prop :=
  (∀ (s : State) (c : Command) (rest : List Input) (i : Instr),
    s.inputs = .command c :: rest → decode c = .ok i → step s = exec i { s with inputs := rest }) ∧
  ∀ s : State, s.inputs = [] → step s = .next s

/-- A word of the opcode table placed for the next step is run by it (log 11). -/
def Obligations.PlacedWordIsTheNextCommand : Prop :=
  ∀ (s : State) (w : Nat) (i : Instr), decodeTableWord 8 w = some i → step (s.withFetchWord 8 w) = exec i s

/-- 30_encoding.md R86: the opcode words of one command of every unit, written bit by bit, with the
operand in the buffer that the table names; and two reserved words. -/
def Obligations.OpcodeWordsDecode : Prop :=
  ∀ (r : CfgRecord) (b : BitSeq) (x : SampleSeq),
    decode ⟨0b00000000#8, r, b, x⟩ = .ok (.cfgload r) ∧
    decode ⟨0b00000001#8, r, b, x⟩ = .ok .rdstat ∧
    decode ⟨0b00010001#8, r, b, x⟩ = .ok (.eccdec b) ∧
    decode ⟨0b00100001#8, r, b, x⟩ = .ok (.txframe b) ∧
    decode ⟨0b00110010#8, r, b, x⟩ = .ok (.rxframe x) ∧
    decode ⟨0b01000001#8, r, b, x⟩ = .ok (.detchunk x) ∧
    decode ⟨0b01000100#8, r, b, x⟩ = .ok .txoff ∧
    decode ⟨0b01000101#8, r, b, x⟩ = .error (.reservedFn 4 5) ∧
    decode ⟨0b01010000#8, r, b, x⟩ = .error (.reservedUnit 5)

/-- Decode and encode agree: decoding the encoding of a command gives it back, with every operand; a
presented command decodes exactly when its opcode byte is one of the fourteen, and then its encoding is
the presented command with the buffers that its row does not name emptied. -/
def Obligations.EncodeDecodeAgree : Prop :=
  (∀ i : Instr, decode (encode i) = .ok i) ∧
  (∀ c : Command, c.op ∈ opcodeBytes ↔ ∃ i, decode c = .ok i) ∧
  ∀ (c : Command) (i : Instr), decode c = .ok i →
    (encode i).op = c.op ∧
    (encode i).cfgin = (if c.op = 0x00#8 then c.cfgin else CfgRecord.empty) ∧
    (encode i).bitin = (if c.op ∈ [0x10#8, 0x11#8, 0x20#8, 0x21#8] then c.bitin else []) ∧
    (encode i).sampin = (if c.op ∈ [0x30#8, 0x31#8, 0x32#8, 0x41#8] then c.sampin else [])

/-- 30_encoding.md R87: the reserved opcode bytes, by UNIT and FN, are exactly those outside the table,
and the response to one is `IllegalCommand`, whatever its operand buffers and the state. -/
def Obligations.ReservedOpcodesAreIllegal : Prop :=
  ∀ c : Command,
    ((5 ≤ c.op.toNat / 16 ∨ (c.op.toNat / 16 ≤ 2 ∧ 1 < c.op.toNat % 16) ∨
      (c.op.toNat / 16 = 3 ∧ 2 < c.op.toNat % 16) ∨ (c.op.toNat / 16 = 4 ∧ 4 < c.op.toNat % 16)) ↔
      c.op ∉ opcodeBytes) ∧
    (c.op ∉ opcodeBytes → ∀ (s : State) (rest : List Input), s.inputs = .command c :: rest →
      step s = .next (State.raise { s with inputs := rest } .illegalCommand))

/-- 40_control.md R91: the preamble's two checks, in order. -/
def Obligations.PreambleChecksInOrder : Prop :=
  ∀ (s : State) (c : Command) (rest : List Input), s.inputs = .command c :: rest →
    (c.op ∉ opcodeBytes → step s = .next (State.raise { s with inputs := rest } .illegalCommand)) ∧
    (c.op ∈ opcodeBytes → s.cfgValid = false → c.op ≠ 0x00#8 → c.op ≠ 0x01#8 →
      step s = .next (State.raise { s with inputs := rest } .notConfigured))

/-! ## Control -/

/-- 40_control.md R90: CFGLOAD, all of it: the lock first, then the absent fields in order, then the
illegal values, then the load of the nine registers and CFG_VALID, with the defaults. -/
def Obligations.CfgloadFollowsItsRule : Prop :=
  ∀ (s : State) (c : CfgRecord),
    (s.cfgValid = true → exec (.cfgload c) s = .next (s.raise .configLocked)) ∧
    (s.cfgValid = false →
      (c.frequency = none → exec (.cfgload c) s = .next (s.raise (.configMissingField .frequency))) ∧
      ∀ f, c.frequency = some f →
      (c.samplingRate = none → exec (.cfgload c) s = .next (s.raise (.configMissingField .samplingRate))) ∧
      ∀ fs, c.samplingRate = some fs →
      (c.symbolsPerSecond = none → exec (.cfgload c) s = .next (s.raise (.configMissingField .symbolsPerSecond))) ∧
      ∀ r, c.symbolsPerSecond = some r →
      (c.recordStart = none → exec (.cfgload c) s = .next (s.raise (.configMissingField .recordStart))) ∧
      ∀ ks, c.recordStart = some ks →
      (c.recordEnd = none → exec (.cfgload c) s = .next (s.raise (.configMissingField .recordEnd))) ∧
      ∀ ke, c.recordEnd = some ke →
      ∀ df : Rat, (∀ d, c.toneSpacing = some d → df = d) → (c.toneSpacing = none → df = (r : Rat)) →
      ((fs < 1 ∨ r < 1 ∨ ⌊(fs : Rat) / (r : Rat)⌋ < 1 ∨ df ≤ 0 ∨ ∃ n, c.chunkLen = some n ∧ n < 1) →
        exec (.cfgload c) s = .next (s.raise .configInvalid)) ∧
      (1 ≤ fs → 1 ≤ r → 1 ≤ ⌊(fs : Rat) / (r : Rat)⌋ → 0 < df → (∀ n, c.chunkLen = some n → 1 ≤ n) →
        exec (.cfgload c) s = .next (State.respond { s with
          cfgValid := true
          cfg :=
            { fc := f
              fs := fs.toNat
              rate := r.toNat
              keyStart := ks
              keyEnd := ke
              df := df
              thresh := c.threshold.getD 5
              chunkLen := c.chunkLen.map Int.toNat
              eccEn := c.eccEnable.getD ⟨true, true, true⟩ } } .empty [])))

/-- 40_control.md R92: RDSTAT, legal in every state; the bits of STATUS one by one; the chunk count, and
the division exact in every state that meets the invariant. -/
def Obligations.RdstatReportsTheStatus : Prop :=
  ∀ s : State, ∃ (st : BitVec 32) (n : Nat),
    exec .rdstat s = .next (s.respond (.stat st s.uncorrCnt n) []) ∧
    st.getLsbD 0 = s.cfgValid ∧ st.getLsbD 1 = s.detRun ∧
    st.getLsbD 2 = decide (s.detState = .recording) ∧ st.getLsbD 3 = s.txActive ∧
    (∀ k, 4 ≤ k → st.getLsbD k = false) ∧
    (s.cfgValid = false ∨ s.cfg.chunkLen = none → n = 0) ∧
    ∀ m, s.cfgValid = true → s.cfg.chunkLen = some m →
      n = s.detBuf.length / m ∧ (s.Inv → n * m = s.detBuf.length)

/-! ## ECC -/

/-- 41_ecc.md R102, R103: ECCENC completes whenever the block is configured; its length and every block,
by the parity equations, with the last group zero-padded. -/
def Obligations.EccencBlockFormula : Prop :=
  ∀ (s : State) (bits : BitSeq), s.cfgValid = true →
    ∃ out : BitSeq, exec (.eccenc bits) s = .next (s.respond (.bits out) []) ∧
      out.length = 8 * ((bits.length + 3) / 4) ∧
      ∀ g, g < (bits.length + 3) / 4 → ∀ d1 d2 d3 d4 : Bit,
        d1 = bits.getD (4 * g) false → d2 = bits.getD (4 * g + 1) false →
        d3 = bits.getD (4 * g + 2) false → d4 = bits.getD (4 * g + 3) false →
        ∀ p1 p2 p3 pg : Bit,
          p1 = (d1 ^^ d2 ^^ d3) → p2 = (d1 ^^ d2 ^^ d4) → p3 = (d2 ^^ d3 ^^ d4) →
          pg = (p1 ^^ p2 ^^ p3 ^^ d1 ^^ d2 ^^ d3 ^^ d4) →
          (out.drop (8 * g)).take 8 = [p1, p2, d1, p3, d2, d3, d4, pg]

/-- 41_ecc.md R104: the sixteen codewords, in the order of the data 0000 to 1111, as bytes; any two differ
in at least four positions; each has its recomputed parities equal to the received ones. -/
def Obligations.CodewordTable : Prop :=
  ((List.range 16).map fun d => eccEncode ((byteBits (BitVec.ofNat 8 d)).drop 4)) =
    ([0x00#8, 0x53#8, 0x95#8, 0xC6#8, 0xD8#8, 0x8B#8, 0x4D#8, 0x1E#8,
      0xE1#8, 0xB2#8, 0x74#8, 0x27#8, 0x39#8, 0x6A#8, 0xAC#8, 0xFF#8] : List Byte).map byteBits ∧
  (∀ x y : Fin 16, x ≠ y →
    4 ≤ ((List.zip (eccEncode ((byteBits (BitVec.ofNat 8 x)).drop 4))
      (eccEncode ((byteBits (BitVec.ofNat 8 y)).drop 4))).countP fun p => p.1 != p.2)) ∧
  ∀ d1 d2 d3 d4 : Bit, classify (eccBlock d1 d2 d3 d4) = .noError

/-- 41_ecc.md R107: flipping position 0 to 7 of any codeword gives the syndromes of the table; the seven
non-zero ones are different, and `SYN1` names the position of each. -/
def Obligations.SyndromeOfSinglePosition : Prop :=
  (∀ d1 d2 d3 d4 : Bit, ((List.range 8).map fun k => syndrome (flipAt (eccBlock d1 d2 d3 d4) k)) =
    [(true, false, false), (false, true, false), (true, true, false), (false, false, true),
     (true, true, true), (true, false, true), (false, true, true), (false, false, false)]) ∧
  ∀ sy : Syndrome, sy ≠ (false, false, false) → ∃ k : Fin 7, ∀ j : Fin 7,
    (syn1 sy = some j.val ↔ j = k) ∧ (syndrome (flipAt (eccBlock false false false false) j) = sy ↔ j = k)

/-- 41_ecc.md R105, R106, R108 to R111: the recomputed global parity and the syndrome of a received block by
their equations; the three cases by the parity and the syndrome; and what each emits and counts: the data
bits unchanged; the data bits after the one flip among positions 0 to 6 that makes the syndrome 000, or
none where it is 000 already; the data bits after the two flips that GUESS2 names, for every table of
distinct positions, counted as one. -/
def Obligations.BlockDecisionRules : Prop :=
  ∀ (g : Syndrome → Nat × Nat) (r : BitSeq), r.length = 8 →
    (∀ sy, (g sy).1 < 7 ∧ (g sy).2 < 7 ∧ (g sy).1 ≠ (g sy).2) →
    ∀ (data : BitSeq → BitSeq) (flip : BitSeq → Nat → BitSeq),
      (∀ q, data q = [q.getD 2 false, q.getD 4 false, q.getD 5 false, q.getD 6 false]) →
      (∀ q i, flip q i = q.set i (!q.getD i false)) →
      syndrome r = (r.getD 0 false != (r.getD 2 false ^^ r.getD 4 false ^^ r.getD 5 false),
        r.getD 1 false != (r.getD 2 false ^^ r.getD 4 false ^^ r.getD 6 false),
        r.getD 3 false != (r.getD 4 false ^^ r.getD 5 false ^^ r.getD 6 false)) ∧
      pgCalc r = (r.getD 0 false ^^ r.getD 1 false ^^ r.getD 2 false ^^ r.getD 3 false ^^ r.getD 4 false ^^
        r.getD 5 false ^^ r.getD 6 false) ∧
      (r.getD 7 false ≠ pgCalc r ↔ r.countP id % 2 = 1) ∧
      (r.getD 7 false = pgCalc r → syndrome r = (false, false, false) →
        classify r = .noError ∧ eccDecode g r = (data r, 0)) ∧
      (r.getD 7 false ≠ pgCalc r → classify r = .single ∧
        (syndrome r = (false, false, false) → eccDecode g r = (data r, 0)) ∧
        (syndrome r ≠ (false, false, false) → ∃ i, i < 7 ∧
          syndrome (flip r i) = (false, false, false) ∧ eccDecode g r = (data (flip r i), 0))) ∧
      (r.getD 7 false = pgCalc r → syndrome r ≠ (false, false, false) →
        classify r = .guess ∧
        eccDecode g r = (data (flip (flip r (g (syndrome r)).1) (g (syndrome r)).2), 1))

/-- 41_ecc.md R113, R115: ECCDEC completes whenever the block is configured; its length, every block's four
bits, the count of guessed blocks, and the saturating write of UNCORR_CNT, its only write. GUESS2 is the
constant without a body (log 7), a pair of distinct positions in 0 to 6 for every syndrome. -/
def Obligations.EccdecDecodesBlocks : Prop :=
  (∀ sy, (Config.guess2 sy).1 < 7 ∧ (Config.guess2 sy).2 < 7 ∧ (Config.guess2 sy).1 ≠ (Config.guess2 sy).2) ∧
  ∀ (s : State) (bits : BitSeq), s.cfgValid = true →
    ∃ (out : BitSeq) (n : Nat),
      exec (.eccdec bits) s = .next (State.respond { s with
        uncorrCnt := BitVec.ofNat 32 (min (s.uncorrCnt.toNat + n) (2 ^ 32 - 1)) } (.bitsGuessed out n) []) ∧
      out.length = 4 * (bits.length / 8) ∧
      n = ((List.range (bits.length / 8)).countP fun g => decide (classify ((bits.drop (8 * g)).take 8) = .guess)) ∧
      ∀ g, g < bits.length / 8 →
        (out.drop (4 * g)).take 4 = decodeBlock Config.guess2 ((bits.drop (8 * g)).take 8)

/-- 41_ecc.md R114: for every GUESS2, decoding an encoding gives the data and its padding zeros, uncounted;
one flip anywhere is corrected, uncounted; two flips are always guessed and counted, four bits out; every
non-zero syndrome has a position. Under the spec's default table 112 of the 448 double flips decode right. -/
def Obligations.EccRoundTripAndErrors : Prop :=
  (∀ (g : Syndrome → Nat × Nat) (x : BitSeq),
    eccDecode g (eccEncode x) = (x ++ List.replicate ((4 - x.length % 4) % 4) false, 0)) ∧
  (∀ (g : Syndrome → Nat × Nat) (d1 d2 d3 d4 : Bit) (k : Nat), k < 8 →
    eccDecode g (flipAt (eccBlock d1 d2 d3 d4) k) = ([d1, d2, d3, d4], 0)) ∧
  (∀ (g : Syndrome → Nat × Nat) (d1 d2 d3 d4 : Bit) (j k : Nat), j < k → k < 8 →
    classify (flipAt (flipAt (eccBlock d1 d2 d3 d4) j) k) = .guess ∧
    (eccDecode g (flipAt (flipAt (eccBlock d1 d2 d3 d4) j) k)).1.length = 4 ∧
    (eccDecode g (flipAt (flipAt (eccBlock d1 d2 d3 d4) j) k)).2 = 1) ∧
  (∀ sy : Syndrome, sy = (false, false, false) ∨ ∃ k, k < 7 ∧ syn1 sy = some k) ∧
  ((List.range 16).map fun d =>
    ((List.range 8).map fun k => (List.range k).countP fun j =>
      let data := (byteBits (BitVec.ofNat 8 d)).drop 4
      decide ((eccDecode guess2Default (flipAt (flipAt (eccEncode data) j) k)).1 = data)).sum).sum = 112

/-- 10_state.md R41, for every CNT_W: the increment saturates, never wraps, and the order of additions does
not matter. -/
def Obligations.CounterSaturates : Prop :=
  ∀ w : Nat,
    (∀ (c : BitVec w) (n : Nat), (satAdd c n).toNat = min (c.toNat + n) (2 ^ w - 1) ∧ c.toNat ≤ (satAdd c n).toNat) ∧
    (∀ (c : BitVec w) (m n : Nat), satAdd (satAdd c m) n = satAdd c (m + n)) ∧
    ∀ (c : BitVec w) (m n : Nat), satAdd (satAdd c m) n = satAdd (satAdd c n) m

/-! ## Modulator -/

/-- 42_modulator.md R131, R132: the two total functions of the alphabet, that they are inverse, the tone of
every dibit, in ascending order for `DF > 0`, and that neighbouring rows differ in one bit. -/
def Obligations.AlphabetIsABijection : Prop :=
  rowOf true false = .r0 ∧ rowOf true true = .r1 ∧ rowOf false true = .r2 ∧ rowOf false false = .r3 ∧
  Row.dibit .r0 = (true, false) ∧ Row.dibit .r1 = (true, true) ∧ Row.dibit .r2 = (false, true) ∧
  Row.dibit .r3 = (false, false) ∧
  (∀ b0 b1 : Bit, (rowOf b0 b1).dibit = (b0, b1)) ∧ (∀ i : Row, rowOf i.dibit.1 i.dibit.2 = i) ∧
  (∀ c : Cfg, c.freq (rowOf true false) = c.fc - 3 / 2 * c.df ∧ c.freq (rowOf true true) = c.fc - 1 / 2 * c.df ∧
    c.freq (rowOf false true) = c.fc + 1 / 2 * c.df ∧ c.freq (rowOf false false) = c.fc + 3 / 2 * c.df ∧
    (0 < c.df → c.freq .r0 < c.freq .r1 ∧ c.freq .r1 < c.freq .r2 ∧ c.freq .r2 < c.freq .r3)) ∧
  ∀ k, k < 3 → ((Row.ofIndex k).dibit.1 = (Row.ofIndex (k + 1)).dibit.1 ↔
    (Row.ofIndex k).dibit.2 ≠ (Row.ofIndex (k + 1)).dibit.2)

/-- 10_state.md R45: the four tone frequencies, and that they rise strictly when `DF > 0`. -/
def Obligations.ToneFrequencies : Prop :=
  ∀ c : Cfg, c.freq .r0 = c.fc - 3 / 2 * c.df ∧ c.freq .r1 = c.fc - 1 / 2 * c.df ∧
    c.freq .r2 = c.fc + 1 / 2 * c.df ∧ c.freq .r3 = c.fc + 3 / 2 * c.df ∧
    (0 < c.df → c.freq .r0 < c.freq .r1 ∧ c.freq .r1 < c.freq .r2 ∧ c.freq .r2 < c.freq .r3)

/-- 10_state.md R47 with 00_scope.md R11: the key bits, each byte most significant bit first. -/
def Obligations.KeyBitsMostSignificantFirst : Prop :=
  (∀ c : Cfg, c.startBits = bytesToBits c.keyStart ∧ c.endBits = bytesToBits c.keyEnd ∧
    c.startBits.length = 8 * c.keyStart.length ∧ c.endBits.length = 8 * c.keyEnd.length) ∧
  ∀ (bs : ByteSeq) (k i : Nat), k < bs.length → i < 8 →
    (bytesToBits bs)[8 * k + i]? = some (decide ((bs.getD k 0#8).toNat / 2 ^ (7 - i) % 2 = 1))

/-- 42_modulator.md R134, R135 with 10_state.md R46: MODBITS completes whenever the block is configured;
the length, and every sample as the real cosine of its dibit's tone, with the input padded to even length;
an odd input and the same input with a 0 appended give the same response; the waveform of an even input
followed by another is the one waveform followed by the other. -/
def Obligations.ModbitsWaveform : Prop :=
  ∀ (s : State) (bits : BitSeq), s.cfgValid = true →
    ∃ w : SampleSeq, exec (.modbits bits) s = .next (s.respond (.samples w) []) ∧
      w.length = s.cfg.sps * ((bits.length + 1) / 2) ∧
      (∀ k n, k < (bits.length + 1) / 2 → n < s.cfg.sps → ∀ f : Rat,
        f = (match bits.getD (2 * k) false, bits.getD (2 * k + 1) false with
          | true, false => s.cfg.fc - 3 / 2 * s.cfg.df
          | true, true => s.cfg.fc - 1 / 2 * s.cfg.df
          | false, true => s.cfg.fc + 1 / 2 * s.cfg.df
          | false, false => s.cfg.fc + 3 / 2 * s.cfg.df) →
        sampleAt w (k * s.cfg.sps + n) = Real.cos (2 * Real.pi * (f : ℝ) * n / s.cfg.fs)) ∧
      (bits.length % 2 = 1 → exec (.modbits (bits ++ [false])) s = exec (.modbits bits) s) ∧
      ∀ (more : BitSeq) (v : SampleSeq), bits.length % 2 = 0 →
        exec (.modbits more) s = .next (s.respond (.samples v) []) →
        exec (.modbits (bits ++ more)) s = .next (s.respond (.samples (w ++ v)) [])

/-- 10_state.md R46, 42_modulator.md R133: a burst has SPS samples, the cosines of its tone, also as a phase
in turns and as a phase accumulator, starts at phase zero, and stays within [-1, 1]. -/
def Obligations.BurstsStartAtPhaseZero : Prop :=
  ∀ (c : Cfg) (i : Row), (c.tone exactNum i).length = c.sps ∧
    (∀ n : Nat, n < c.sps → sampleAt (c.tone exactNum i) n = Real.cos (2 * Real.pi * (c.freq i : ℝ) * n / c.fs) ∧
      sampleAt (c.tone exactNum i) n = Real.cos (2 * Real.pi * (mod1 (c.freq i * n / c.fs) : Rat)) ∧
      sampleAt (c.tone exactNum i) n = Real.cos (2 * Real.pi * (mod1 (n * mod1 (c.freq i / c.fs)) : Rat))) ∧
    (1 ≤ c.sps → sampleAt (c.tone exactNum i) 0 = 1) ∧
    ∀ n, |sampleAt (c.tone exactNum i) n| ≤ 1

/-- 10_state.md R48 to R50: the coded key bits, the reference waveforms and their lengths. -/
def Obligations.ReferenceWaveforms : Prop :=
  ∀ c : Cfg,
    (c.eccEn.start = true → c.startCoded = eccEncode c.startBits ∧
      (c.startRef exactNum).length = 8 * c.sps * c.keyStart.length) ∧
    (c.eccEn.start = false → c.startCoded = c.startBits) ∧
    (c.eccEn.stop = true → c.endCoded = eccEncode c.endBits ∧
      (c.endRef exactNum).length = 8 * c.sps * c.keyEnd.length) ∧
    (c.eccEn.stop = false → c.endCoded = c.endBits) ∧
    c.startRef exactNum = modulate exactNum c c.startCoded ∧
    2 * (c.startRef exactNum).length = c.sps * c.startCoded.length ∧
    c.endRef exactNum = modulate exactNum c c.endCoded ∧
    2 * (c.endRef exactNum).length = c.sps * c.endCoded.length

/-- 42_modulator.md R137, R138: TXFRAME completes whenever the block is configured and answers the three
waveforms that MODBITS answers for the three parts, each part ECC-encoded (as ECCENC answers) or not; no
state is written, TX_ACTIVE neither; with all parts encoded and whole bytes, the length of R138. -/
def Obligations.TxframeIsThreeParts : Prop :=
  ∀ (s : State) (payload : BitSeq), s.cfgValid = true →
    ∃ (a b c : BitSeq) (wa wb wc : SampleSeq),
      exec (.txframe payload) s = .next (s.respond (.samples (wa ++ wb ++ wc)) []) ∧
      exec (.modbits a) s = .next (s.respond (.samples wa) []) ∧
      exec (.modbits b) s = .next (s.respond (.samples wb) []) ∧
      exec (.modbits c) s = .next (s.respond (.samples wc) []) ∧
      (s.cfg.eccEn.start = true → exec (.eccenc s.cfg.startBits) s = .next (s.respond (.bits a) [])) ∧
      (s.cfg.eccEn.start = false → a = s.cfg.startBits) ∧
      (s.cfg.eccEn.payload = true → exec (.eccenc payload) s = .next (s.respond (.bits b) [])) ∧
      (s.cfg.eccEn.payload = false → b = payload) ∧
      (s.cfg.eccEn.stop = true → exec (.eccenc s.cfg.endBits) s = .next (s.respond (.bits c) [])) ∧
      (s.cfg.eccEn.stop = false → c = s.cfg.endBits) ∧
      ∀ m, s.cfg.eccEn = ⟨true, true, true⟩ → payload.length = 8 * m →
        (wa ++ wb ++ wc).length = s.cfg.sps * 8 * (s.cfg.keyStart.length + m + s.cfg.keyEnd.length)

/-! ## Demodulator -/

/-- 43_demodulator.md R153, R154, R157: LOCATE completes whenever the block is configured and the search
succeeds, and raises `NoSyncFound` otherwise: a reference longer than the signal first, then the first
greatest real correlations with START_REF and END_REF, the start moved past its delimiter. -/
def Obligations.LocateFindsFirstMaxima : Prop :=
  ∀ (s : State) (x r e : SampleSeq), s.cfgValid = true →
    r = s.cfg.startRef exactNum → e = s.cfg.endRef exactNum →
    (r.length > x.length ∨ e.length > x.length → exec (.locate x) s = .next (s.raise .noSyncFound)) ∧
    (r.length ≤ x.length → e.length ≤ x.length →
      ∃ a b, FirstMax (corrAt x r) (x.length - r.length + 1) a ∧ FirstMax (corrAt x e) (x.length - e.length + 1) b ∧
        (a + r.length < b → exec (.locate x) s = .next (s.respond (.indices (a + r.length) b) [])) ∧
        (b ≤ a + r.length → exec (.locate x) s = .next (s.raise .noSyncFound)))

/-- 43_demodulator.md R158 (a) to (d), and of (f) the positive factor: silence, empty keys, a reference as
long as the signal, and scaling by a positive constant. -/
def Obligations.LocatorCornerCases : Prop :=
  ∀ (c : Cfg) (x : SampleSeq),
    ((∀ n, sampleAt x n = 0) → locateFrame exactNum x (c.startRef exactNum) (c.endRef exactNum) = none) ∧
    (c.keyEnd = [] → locateFrame exactNum x (c.startRef exactNum) (c.endRef exactNum) = none) ∧
    (c.keyStart = [] → (c.endRef exactNum).length ≤ x.length →
      ∀ b, FirstMax (corrAt x (c.endRef exactNum)) (x.length - (c.endRef exactNum).length + 1) b →
        locateFrame exactNum x (c.startRef exactNum) (c.endRef exactNum) = if 1 ≤ b then some (0, b) else none) ∧
    ((c.startRef exactNum).length = x.length →
      locateFrame exactNum x (c.startRef exactNum) (c.endRef exactNum) = none) ∧
    ∀ (y : SampleSeq) (g : ℝ), 0 < g → y.length = x.length → (∀ n, sampleAt y n = g * sampleAt x n) →
      locateFrame exactNum y (c.startRef exactNum) (c.endRef exactNum) =
        locateFrame exactNum x (c.startRef exactNum) (c.endRef exactNum)

/-- 43_demodulator.md R160, R162 to R164: DEMOD completes whenever the block is configured; two bits for
every whole window, the dibit of the first row in alphabet order with the greatest real score. -/
def Obligations.DemodDecidesGreatestScore : Prop :=
  ∀ (s : State) (x : SampleSeq), s.cfgValid = true →
    ∃ out : BitSeq, exec (.demod x) s = .next (s.respond (.bits out) []) ∧
      out.length = 2 * (x.length / s.cfg.sps) ∧
      ∀ k, k < x.length / s.cfg.sps → ∃ m,
        FirstMax (fun i => s.cfg.scoreAt x (k * s.cfg.sps) (Row.ofIndex i)) 4 m ∧
        out[2 * k]? = some (Row.ofIndex m).dibit.1 ∧ out[2 * k + 1]? = some (Row.ofIndex m).dibit.2

/-- 43_demodulator.md R161: with `SCORE = NDOT` the decision is the first greatest normalised score, 0 for
a window of norm 0; every burst has norm at least 1; and the two scores decide alike when the four bursts
have equal norms. -/
def Obligations.NormalisedScoreDecision : Prop :=
  ∀ (c : Cfg) (w : SampleSeq), 1 ≤ c.sps → w.length = c.sps →
    (∃ m, FirstMax (fun i => c.normScore w (Row.ofIndex i)) 4 m ∧ decideRow exactNum .ndot c w = Row.ofIndex m) ∧
    (∀ i, 1 ≤ Real.sqrt (c.gram i i)) ∧
    ((∀ i j, c.gram i i = c.gram j j) → decideRow exactNum .ndot c w = decideRow exactNum .dot c w)

/-- 00_scope.md R13: the algorithms over the model's exact samples (the model's choice, log 5) are those over
the real numbers: waveforms, hits, frame boundaries, symbol decisions and received frames are those of NUM
over the reals, for both scores and every GUESS2. -/
def Obligations.ExactNumericsIsReal : Prop :=
  (∀ (c : Cfg) (bits : BitSeq), waveReal (modulate exactNum c bits) = modulate realNum c bits) ∧
  (∀ (th : Rat) (x r : SampleSeq), hit exactNum th x r = hit realNum th (waveReal x) (waveReal r)) ∧
  (∀ x r e : SampleSeq, locateFrame exactNum x r e = locateFrame realNum (waveReal x) (waveReal r) (waveReal e)) ∧
  (∀ (score : Score) (c : Cfg) (x : SampleSeq),
    demodulate exactNum score c x = demodulate realNum score c (waveReal x)) ∧
  ∀ (score : Score) (g : Syndrome → Nat × Nat) (c : Cfg) (x : SampleSeq),
    receive exactNum score g c x = receive realNum score g c (waveReal x)

/-- 43_demodulator.md R165: the zero-noise round trip of modulator and classifier holds for a legal
configuration exactly when, for DOT, every row is the first greatest of its column of the Gram matrix, and,
for NDOT, the four bursts are pairwise different. -/
def Obligations.ZeroNoiseRoundTrip : Prop :=
  ∀ c : Cfg, c.Legal →
    ((∀ bits : BitSeq, bits.length % 2 = 0 → demodulate exactNum .dot c (modulate exactNum c bits) = bits) ↔
      ∀ j, j < 4 → FirstMax (fun i => c.gram (Row.ofIndex i) (Row.ofIndex j)) 4 j) ∧
    ((∀ bits : BitSeq, bits.length % 2 = 0 → demodulate exactNum .ndot c (modulate exactNum c bits) = bits) ↔
      ∀ i j : Row, i ≠ j → ∃ n, n < c.sps ∧ c.toneReal i n ≠ c.toneReal j n)

/-- 43_demodulator.md R166: under the orthogonality condition the four bursts are orthogonal and of energy
SPS/2, and the round trip holds for both scores. -/
def Obligations.OrthogonalTones : Prop :=
  ∀ c : Cfg, c.Orthogonal →
    (∀ i j : Row, c.gram i j = if i = j then (c.sps : ℝ) / 2 else 0) ∧
    ∀ (score : Score) (bits : BitSeq), bits.length % 2 = 0 →
      demodulate exactNum score c (modulate exactNum c bits) = bits

/-- 43_demodulator.md R169: scaling a window by a positive constant does not change the decision, for
either score; under the orthogonality condition the negated burst of row `j` decides row 1 for `j = 0` and
row 0 otherwise. -/
def Obligations.AmplitudeAndPolarity : Prop :=
  ∀ (score : Score) (c : Cfg) (w v : SampleSeq), v.length = w.length →
    (∀ g : ℝ, 0 < g → (∀ n, sampleAt v n = g * sampleAt w n) → decideRow exactNum score c v = decideRow exactNum score c w) ∧
    (∀ j : Row, c.Orthogonal → w = c.tone exactNum j → (∀ n, sampleAt v n = -sampleAt w n) →
      decideRow exactNum score c v = if j = .r0 then .r1 else .r0)

/-- 43_demodulator.md R167, R168: RXFRAME raises `NoSyncFound`, writing nothing, where a reference is longer
than the signal or the first greatest correlations do not leave a segment; else it completes, and answers
what ECCDEC answers (with its write of UNCORR_CNT) for what DEMOD answers for the segment between the
delimiters, or those bits and 0, UNCORR_CNT unchanged, when the payload is not encoded. -/
def Obligations.RxframeIsTheReceivePath : Prop :=
  ∀ (s : State) (x r e : SampleSeq), s.cfgValid = true →
    r = s.cfg.startRef exactNum → e = s.cfg.endRef exactNum →
    (r.length > x.length ∨ e.length > x.length → exec (.rxframe x) s = .next (s.raise .noSyncFound)) ∧
    ∀ a b, r.length ≤ x.length → e.length ≤ x.length →
      FirstMax (corrAt x r) (x.length - r.length + 1) a → FirstMax (corrAt x e) (x.length - e.length + 1) b →
      (b ≤ a + r.length → exec (.rxframe x) s = .next (s.raise .noSyncFound)) ∧
      (a + r.length < b → ∃ (coded out : BitSeq) (n : Nat),
        exec (.demod ((x.drop (a + r.length)).take (b - (a + r.length)))) s = .next (s.respond (.bits coded) []) ∧
        exec (.rxframe x) s = .next (State.respond { s with
          uncorrCnt := BitVec.ofNat 32 (min (s.uncorrCnt.toNat + n) (2 ^ 32 - 1)) } (.bitsGuessed out n) []) ∧
        (s.cfg.eccEn.payload = true → exec (.eccdec coded) s = exec (.rxframe x) s) ∧
        (s.cfg.eccEn.payload = false → exec (.rxframe x) s = .next (s.respond (.bitsGuessed coded 0) [])))

/-- 20_memory.md R67: padding zeros and dropped tails make no difference to a response; MODBITS, ECCENC,
ECCDEC and DEMOD of a configured block complete at every length, and DETCHUNK of a running detector at the
length CHUNK_LEN, any other length being refused; LOCATE answers at every length, with `NoSyncFound` for a
signal shorter than a reference. -/
def Obligations.PaddingIsInvisible : Prop :=
  ∀ s : State,
    (∀ bits : BitSeq, bits.length % 2 = 1 → exec (.modbits (bits ++ [false])) s = exec (.modbits bits) s) ∧
    (∀ (bits : BitSeq) (n : Nat), n < 4 → (bits.length + n) % 4 = 0 →
      exec (.eccenc (bits ++ List.replicate n false)) s = exec (.eccenc bits) s) ∧
    (∀ bits tail : BitSeq, bits.length % 8 = 0 → tail.length < 8 → exec (.eccdec (bits ++ tail)) s = exec (.eccdec bits) s) ∧
    (∀ x tail : SampleSeq, x.length % s.cfg.sps = 0 → tail.length < s.cfg.sps →
      exec (.demod (x ++ tail)) s = exec (.demod x) s) ∧
    (s.cfgValid = true → ∀ (bits : BitSeq) (x : SampleSeq),
      (∃ w, exec (.modbits bits) s = .next (s.respond (.samples w) [])) ∧
      (∃ out, exec (.eccenc bits) s = .next (s.respond (.bits out) [])) ∧
      (∃ out n, exec (.eccdec bits) s = .next ((s.countGuessed n).respond (.bitsGuessed out n) [])) ∧
      (∃ out, exec (.demod x) s = .next (s.respond (.bits out) [])) ∧
      (x.length < (s.cfg.startRef exactNum).length ∨ x.length < (s.cfg.endRef exactNum).length →
        exec (.locate x) s = .next (s.raise .noSyncFound)) ∧
      (exec (.locate x) s = .next (s.raise .noSyncFound) ∨
        ∃ b e, exec (.locate x) s = .next (s.respond (.indices b e) [])) ∧
      ∀ n, s.detRun = true → s.cfg.chunkLen = some n →
        (x.length ≠ n → exec (.detchunk x) s = .next (s.raise .badChunkLength)) ∧
        (x.length = n → ∃ t ev, exec (.detchunk x) s = .next t ∧ t.responses = s.responses ++ [.ok .empty ev]))

/-! ## Detector -/

/-- 44_detector.md R182: DETSTART. -/
def Obligations.DetstartRule : Prop :=
  ∀ s : State, s.cfgValid = true →
    (s.cfg.chunkLen = none → exec .detstart s = .next (s.raise .notConfigured)) ∧
    ∀ n, s.cfg.chunkLen = some n →
      (s.detRun = false → exec .detstart s =
        .next (State.respond { s with detRun := true, detState := .idle, detBuf := [] } .empty [])) ∧
      (s.detRun = true → exec .detstart s = .next (s.respond .empty []))

/-- 44_detector.md R192: DETSTOP clears the run bit, discards the buffer, emits nothing; while stopped it
changes nothing, in every state that meets the invariant. -/
def Obligations.DetstopRule : Prop :=
  ∀ s : State, s.cfgValid = true →
    exec .detstop s = .next (State.respond { s with detRun := false, detState := .idle, detBuf := [] } .empty []) ∧
    (s.Inv → s.detRun = false → exec .detstop s = .next (s.respond .empty []))

/-- 44_detector.md R194, R195: TXON and TXOFF write TX_ACTIVE and nothing else, detector running or not. -/
def Obligations.TxGateSetAndClear : Prop :=
  ∀ s : State, s.cfgValid = true →
    exec .txon s = .next (State.respond { s with txActive := true } .empty []) ∧
    exec .txoff s = .next (State.respond { s with txActive := false } .empty [])

/-- 44_detector.md R181, R183: the peak is the greatest real correlation, the shorter sequence sliding over
the longer; a hit is a peak strictly above the threshold; scaling every sample of the chunk by a positive
factor scales the peak by it. -/
def Obligations.RollingCorrelatorPeak : Prop :=
  ∀ (th : Rat) (x r : SampleSeq),
    (r.length ≤ x.length → (∃ k, k ≤ x.length - r.length ∧ (peak exactNum x r).toReal = corrAt x r k) ∧
      ∀ k, k ≤ x.length - r.length → corrAt x r k ≤ (peak exactNum x r).toReal) ∧
    (x.length < r.length → (∃ k, k ≤ r.length - x.length ∧ (peak exactNum x r).toReal = corrAt r x k) ∧
      ∀ k, k ≤ r.length - x.length → corrAt r x k ≤ (peak exactNum x r).toReal) ∧
    (r.length = 0 → (peak exactNum x r).toReal = 0) ∧
    (hit exactNum th x r = true ↔ (th : ℝ) < (peak exactNum x r).toReal) ∧
    ∀ (y : SampleSeq) (g : ℝ), 0 < g → y.length = x.length → (∀ n, sampleAt y n = g * sampleAt x n) →
      (peak exactNum y r).toReal = g * (peak exactNum x r).toReal

/-- 44_detector.md R184 with 60_exceptions.md R239: the three refusals of DETCHUNK, in order. -/
def Obligations.DetchunkRefusals : Prop :=
  ∀ (s : State) (x : SampleSeq), s.cfgValid = true →
    (s.cfg.chunkLen = none → exec (.detchunk x) s = .next (s.raise .notConfigured)) ∧
    ∀ n, s.cfg.chunkLen = some n →
      (s.detRun = false → exec (.detchunk x) s = .next (s.raise .detectorStopped)) ∧
      (s.detRun = true → x.length ≠ n → exec (.detchunk x) s = .next (s.raise .badChunkLength))

/-- 44_detector.md R185 to R187: DETCHUNK in `Idle`: where the gate is open and some real correlation of the
chunk with START_REF exceeds the threshold, the recording starts with this chunk; else nothing changes. -/
def Obligations.DetchunkInIdle : Prop :=
  ∀ (s : State) (x r : SampleSeq), s.cfgValid = true → s.detRun = true → s.detState = .idle →
    s.cfg.chunkLen = some x.length → r = s.cfg.startRef exactNum →
    (s.txActive = true → exec (.detchunk x) s = .next (s.respond .empty [])) ∧
    (s.txActive = false →
      ((r.length ≤ x.length ∧ ∃ k, k ≤ x.length - r.length ∧ (s.cfg.thresh : ℝ) < corrAt x r k) ∨
        (x.length < r.length ∧ ∃ k, k ≤ r.length - x.length ∧ (s.cfg.thresh : ℝ) < corrAt r x k) →
        exec (.detchunk x) s =
          .next (State.respond { s with detState := .recording, detBuf := x } .empty [.startOfFrame])) ∧
      ((r.length ≤ x.length ∧ ∀ k, k ≤ x.length - r.length → corrAt x r k ≤ (s.cfg.thresh : ℝ)) ∨
        (x.length < r.length ∧ ∀ k, k ≤ r.length - x.length → corrAt r x k ≤ (s.cfg.thresh : ℝ)) →
        exec (.detchunk x) s = .next (s.respond .empty [])))

/-- 44_detector.md R188, R189: DETCHUNK in `Recording`, whatever TX_ACTIVE: where some real correlation of
the chunk with END_REF exceeds the threshold, the whole buffer with this chunk is emitted and the detector
is `Idle` with an empty buffer; else the chunk is appended. In a state that meets the invariant the emitted
buffer is a whole number of chunks, at least two. -/
def Obligations.DetchunkInRecording : Prop :=
  ∀ (s : State) (x r : SampleSeq), s.cfgValid = true → s.detRun = true → s.detState = .recording →
    s.cfg.chunkLen = some x.length → r = s.cfg.endRef exactNum →
    ((r.length ≤ x.length ∧ ∃ k, k ≤ x.length - r.length ∧ (s.cfg.thresh : ℝ) < corrAt x r k) ∨
      (x.length < r.length ∧ ∃ k, k ≤ r.length - x.length ∧ (s.cfg.thresh : ℝ) < corrAt r x k) →
      exec (.detchunk x) s = .next (State.respond { s with detState := .idle, detBuf := [] } .empty
        [.frameComplete (s.detBuf ++ x)])) ∧
    ((r.length ≤ x.length ∧ ∀ k, k ≤ x.length - r.length → corrAt x r k ≤ (s.cfg.thresh : ℝ)) ∨
      (x.length < r.length ∧ ∀ k, k ≤ r.length - x.length → corrAt r x k ≤ (s.cfg.thresh : ℝ)) →
      exec (.detchunk x) s = .next (State.respond { s with detBuf := s.detBuf ++ x } .empty [])) ∧
    (s.Inv → ∃ k, 2 ≤ k ∧ (s.detBuf ++ x).length = k * x.length)

/-- 44_detector.md R186: in `Idle` a chunk is dropped while the gate is closed, whatever it holds; in
`Recording` TX_ACTIVE is not read. -/
def Obligations.TransmitGateActsOnlyInIdle : Prop :=
  ∀ (s : State) (x : SampleSeq), s.cfgValid = true → s.detRun = true → s.cfg.chunkLen = some x.length →
    (s.detState = .idle → s.txActive = true → exec (.detchunk x) s = .next (s.respond .empty [])) ∧
    (s.detState = .recording → ∃ t, exec (.detchunk x) s = .next t ∧
      ∀ b : Bit, exec (.detchunk x) { s with txActive := b } = .next { t with txActive := b })

/-- 44_detector.md R191, for every build, that is every NUM, SCORE, GUESS2 and CNT_W: with MAX_FRAME_CHUNKS =
`m`, a chunk that would make the buffer longer than `m` chunks discards it, without an end test; any other
chunk acts as with no limit; `exec` has no limit. -/
def Obligations.FrameLengthLimit : Prop :=
  (∀ (S : Type) (w : Nat) (P : Build S) (m n : Nat) (s : State S w) (x : List S), 1 ≤ m → 1 ≤ n →
    s.cfgValid = true → s.cfg.chunkLen = some n → x.length = n → s.detRun = true →
    (s.detState = .recording → m * n < s.detBuf.length + n → (∃ k, s.detBuf.length = k * n) →
      execWith { P with maxFrameChunks := some m } (.detchunk x) s =
        .next (State.respond { s with detState := .idle, detBuf := [] } .empty [.frameOverrun])) ∧
    (s.detState = .recording → s.detBuf.length + n ≤ m * n →
      execWith { P with maxFrameChunks := some m } (.detchunk x) s =
        execWith { P with maxFrameChunks := none } (.detchunk x) s) ∧
    (s.detState = .idle →
      execWith { P with maxFrameChunks := some m } (.detchunk x) s =
        execWith { P with maxFrameChunks := none } (.detchunk x) s)) ∧
  ∀ (s : State) (x : SampleSeq),
    exec (.detchunk x) s = execWith { Build.decided with maxFrameChunks := none } (.detchunk x) s

/-- 44_detector.md R197: the source's scenario, five steps. -/
def Obligations.DetectorScenario : Prop :=
  ∀ (s : State) (c1 c2 c3 c4 c5 : SampleSeq) (rest : List Input),
    s.cfgValid = true → s.detRun = true → s.detState = .idle → s.txActive = false →
    s.cfg.chunkLen = some c1.length → c2.length = c1.length → c3.length = c1.length →
    c4.length = c1.length → c5.length = c1.length →
    hit exactNum s.cfg.thresh c1 (s.cfg.startRef exactNum) = true →
    hit exactNum s.cfg.thresh c2 (s.cfg.endRef exactNum) = false →
    hit exactNum s.cfg.thresh c3 (s.cfg.endRef exactNum) = false →
    hit exactNum s.cfg.thresh c4 (s.cfg.endRef exactNum) = false →
    hit exactNum s.cfg.thresh c5 (s.cfg.endRef exactNum) = true →
    s.inputs = [c1, c2, c3, c4, c5].map (fun x => Input.command (encode (.detchunk x))) ++ rest →
    Sys2Proof.core.run 5 s = .next { s with
      detState := .idle
      detBuf := []
      inputs := rest
      responses := s.responses ++ [.ok .empty [.startOfFrame], .ok .empty [], .ok .empty [], .ok .empty [],
        .ok .empty [.frameComplete (c1 ++ c2 ++ c3 ++ c4 ++ c5)]] }

/-- 44_detector.md R196 (a) to (d): an empty key, and silence, hit exactly when the threshold is negative. -/
def Obligations.DetectorCornerCases : Prop :=
  (∀ (th : Rat) (x r : SampleSeq), (r = [] ∨ ∀ n, sampleAt x n = 0) → (hit exactNum th x r = true ↔ th < 0)) ∧
  ∀ c : Cfg, (c.keyStart = [] → c.startRef exactNum = []) ∧ (c.keyEnd = [] → c.endRef exactNum = [])

/-- 44_detector.md R198: no step but DETSTOP and reset clears DET_RUN; an RXFRAME, whether it raises or not,
touches none of DET_RUN, DET_STATE and DET_BUF. -/
def Obligations.DetectorNeverStopsItself : Prop :=
  (∀ s s' : State, step s = .next s' → s.detRun = true → s'.detRun = false →
    ∃ rest, s.inputs = .reset :: rest ∨ ∃ c, s.inputs = .command c :: rest ∧ c.op = 0x42#8) ∧
  ∀ (s s' : State) (x : SampleSeq), exec (.rxframe x) s = .next s' →
    s'.detRun = s.detRun ∧ s'.detState = s.detState ∧ s'.detBuf = s.detBuf

/-- 60_exceptions.md R238, R249: a command that is not DETSTART, DETCHUNK or DETSTOP leaves DET_RUN,
DET_STATE and DET_BUF alone, whatever it responds; 10_state.md R20, R38: only TXON and TXOFF write TX_ACTIVE.
That no command touches the pending inputs is about the model's own list, log 1 (DESIGN CHOICE); the spec's
nearest words are 40_control.md R93, "no command changes which command comes next". -/
def Obligations.DetectorUndisturbed : Prop :=
  ∀ (s s' : State) (i : Instr), exec i s = .next s' →
    (i ≠ .detstart → i ≠ .detstop → (∀ x, i ≠ .detchunk x) →
      s'.detRun = s.detRun ∧ s'.detState = s.detState ∧ s'.detBuf = s.detBuf) ∧
    (i ≠ .txon → i ≠ .txoff → s'.txActive = s.txActive) ∧
    s'.inputs = s.inputs

/-! ## The whole machine -/

/-- The invariant of Safety.lean holds after reset. -/
def Obligations.InvariantAtReset : Prop := State.reset.Inv

/-- Every step keeps the invariant: a loaded configuration stays legal (10_state.md R25, R26, R29, R31), the
detector runs only with a chunk length, the buffer is empty in `Idle` and a positive multiple of CHUNK_LEN
in `Recording` (R37), and an unconfigured block is otherwise at reset. -/
def Obligations.StepKeepsInvariant : Prop :=
  ∀ s s' : State, s.Inv → step s = .next s' → s'.Inv

/-- 10_state.md R33: once a configuration is loaded no command changes any configuration register or
CFG_VALID; a second CFGLOAD is refused and changes nothing; reset unlocks. -/
def Obligations.ConfigurationIsImmutable : Prop :=
  (∀ (s s' : State) (i : Instr), s.cfgValid = true → exec i s = .next s' → s'.cfgValid = true ∧ s'.cfg = s.cfg) ∧
  (∀ s s' : State, s.cfgValid = true → step s = .next s' →
    (s'.cfgValid = true ∧ s'.cfg = s.cfg) ∨ ∃ rest, s.inputs = .reset :: rest ∧ s'.cfgValid = false) ∧
  ∀ (s : State) (c : CfgRecord), s.cfgValid = true → exec (.cfgload c) s = .next (s.raise .configLocked)

/-- 30_encoding.md R88: every command, of whatever opcode, ends with exactly one response; a result comes
only with `Ok`, and is of the buffer that the command's row names; only DETCHUNK emits events; which command
raises which status, in which state; the statuses 3, 4 and 5 are never a response's. -/
def Obligations.OneResponsePerCommand : Prop :=
  ∀ (s s' : State) (c : Command) (rest : List Input), s.inputs = .command c :: rest → step s = .next s' →
    s'.inputs = rest ∧ ∃ r : Response, s'.responses = s.responses ++ [r] ∧
      r.status.code ∈ [0, 1, 2, 16, 17, 18, 19, 20, 21] ∧
      (r.events ≠ [] → c.op = 0x41#8) ∧
      (r.status.code = 1 → c.op = 0x00#8) ∧
      (r.status.code = 2 → c.op ∈ [0x30#8, 0x32#8]) ∧
      (r.status.code = 16 ↔ c.op ∉ opcodeBytes) ∧
      (r.status.code = 17 ↔ c.op ∈ opcodeBytes ∧
        ((s.cfgValid = false ∧ c.op ≠ 0x00#8 ∧ c.op ≠ 0x01#8) ∨
          (s.cfgValid = true ∧ s.cfg.chunkLen = none ∧ c.op ∈ [0x40#8, 0x41#8]))) ∧
      (r.status.code = 18 ↔ c.op = 0x00#8 ∧ s.cfgValid = true) ∧
      (r.status.code = 19 → c.op = 0x00#8) ∧
      (r.status.code = 20 → c.op = 0x41#8 ∧ s.cfg.chunkLen ≠ some c.sampin.length) ∧
      (r.status.code = 21 → c.op = 0x41#8 ∧ s.detRun = false) ∧
      ∀ v ev, r = .ok v ev →
        (v = .empty ↔ c.op ∈ [0x00#8, 0x40#8, 0x41#8, 0x42#8, 0x43#8, 0x44#8]) ∧
        ((∃ b, v = .bits b) ↔ c.op ∈ [0x10#8, 0x31#8]) ∧
        ((∃ b n, v = .bitsGuessed b n) ↔ c.op ∈ [0x11#8, 0x32#8]) ∧
        ((∃ w, v = .samples w) ↔ c.op ∈ [0x20#8, 0x21#8]) ∧
        ((∃ b e, v = .indices b e) ↔ c.op = 0x30#8) ∧
        ((∃ st u n, v = .stat st u n) ↔ c.op = 0x01#8)

/-- 60_exceptions.md R240: events come only from DETCHUNK, at most one per command; `StartOfFrame` exactly
with the move from `Idle` to `Recording`, `FrameComplete` exactly with the move back that a DETCHUNK makes,
carrying the buffer and the last chunk. (No `FrameOverrun`: MAX_FRAME_CHUNKS is unlimited in exec.) -/
def Obligations.EventsMarkTransitions : Prop :=
  ∀ (s s' : State) (c : Command) (rest : List Input) (r : Response),
    s.inputs = .command c :: rest → step s = .next s' → s'.responses = s.responses ++ [r] →
    (r.events = [] ∨ (c.op = 0x41#8 ∧ (r.events = [.startOfFrame] ∨
      r.events = [.frameComplete (s.detBuf ++ c.sampin)]))) ∧
    (r.events = [.startOfFrame] ↔ s.detState = .idle ∧ s'.detState = .recording) ∧
    ((∃ b, r.events = [.frameComplete b]) ↔ s.detState = .recording ∧ s'.detState = .idle ∧ c.op = 0x41#8)

/-- 60_exceptions.md R236: a command that raises leaves every element of the block as it was, and responds
without result and events. -/
def Obligations.RaisedErrorsChangeNothing : Prop :=
  ∀ (s s' : State) (c : Command) (rest : List Input) (e : Error),
    s.inputs = .command c :: rest → step s = .next s' → s'.responses = s.responses ++ [.error e] →
    s' = { s with inputs := rest, responses := s.responses ++ [.error e] }

/-- 20_memory.md R72: ECCENC, MODBITS, TXFRAME, LOCATE and DEMOD write no state and are functions of the
configuration and the operand; ECCDEC and RXFRAME likewise but for UNCORR_CNT. -/
def Obligations.PureCommandsAreFunctions : Prop :=
  ∀ (s t : State) (i : Instr), s.cfgValid = t.cfgValid → s.cfg = t.cfg →
    ((∃ b, i = .eccenc b ∨ i = .modbits b ∨ i = .txframe b) ∨ (∃ x, i = .locate x ∨ i = .demod x) →
      ∃ r, exec i s = .next { s with responses := s.responses ++ [r] } ∧
        exec i t = .next { t with responses := t.responses ++ [r] }) ∧
    ((∃ b, i = .eccdec b) ∨ (∃ x, i = .rxframe x) →
      ∃ (r : Response) (n : Nat),
        exec i s = .next { s with uncorrCnt := satAdd s.uncorrCnt n, responses := s.responses ++ [r] } ∧
        exec i t = .next { t with uncorrCnt := satAdd t.uncorrCnt n, responses := t.responses ++ [r] })

/-- 10_state.md R40: UNCORR_CNT changes only by ECCDEC, RXFRAME and reset, and only reset lowers it. -/
def Obligations.CounterWrittenOnlyByDecoders : Prop :=
  ∀ s s' : State, step s = .next s' →
    (∃ rest, s.inputs = .reset :: rest ∧ s'.uncorrCnt = 0#32) ∨
    (s.uncorrCnt.toNat ≤ s'.uncorrCnt.toNat ∧
      (s.uncorrCnt ≠ s'.uncorrCnt → ∃ c rest, s.inputs = .command c :: rest ∧ (c.op = 0x11#8 ∨ c.op = 0x32#8)))

/-- Every sample that MODBITS and TXFRAME respond is in the canonical form of log 6, so that they can be
given back as operands; the model's own form, not the spec's. -/
def Obligations.EmittedWaveformsAreCanonical : Prop :=
  ∀ (s s' : State) (b : BitSeq) (w : SampleSeq),
    exec (.modbits b) s = .next s' ∨ exec (.txframe b) s = .next s' →
    s'.responses = s.responses ++ [.ok (.samples w) []] →
    (Instr.locate w).wf = true ∧ (Instr.demod w).wf = true ∧ (Instr.rxframe w).wf = true ∧
      ∀ n, |sampleAt w n| ≤ 1

/-- Every step and every command ends in a next state, whatever the state, the pending inputs and the
build-time parameters: no command, opcode byte or operand stops the block. 40_control.md R93 says that every
command terminates, and 60_exceptions.md R236, R237 how errors and refusals are taken; that a refusal is such a
response, and not the end of the run that R237 also allows, is the model's choice, log 15, and that a step
without input answers the same state is its choice, log 3. -/
def Obligations.StepAlwaysGoesOn : Prop :=
  (∀ s : State, ∃ s', step s = .next s') ∧ (∀ (s : State) (i : Instr), ∃ s', exec i s = .next s') ∧
  ∀ (S : Type) (w : Nat) (P : Build S) (s : State S w),
    (∃ s', stepWith P s = .next s') ∧ ∀ i, ∃ s', execWith P i s = .next s'

/-! ## Every build, and every real operand -/

/-- 00_scope.md R9, R10, R13: `exec` and `step` are the decided build of the block; and a build with exact
samples (the model's choice, log 5) is the same block as the build with the real numbers for samples: mapping
every sample of state and command to its real number maps the next state, whatever SCORE, MAX_FRAME_CHUNKS,
GUESS2 and CNT_W. -/
def Obligations.RealBlockRunsAlike : Prop :=
  (∀ (i : Instr) (s : State), exec i s = execWith Build.decided i s) ∧
  (∀ s : State, step s = stepWith Build.decided s) ∧
  ∀ (w : Nat) (P : Build Sample) (s t : State Sample w), P.num = exactNum →
    (∀ i : Instr, execWith P i s = .next t →
      execWith P.toReal (i.map Sample.toReal) (s.map Sample.toReal) = .next (t.map Sample.toReal)) ∧
    (stepWith P s = .next t → stepWith P.toReal (s.map Sample.toReal) = .next (t.map Sample.toReal))

/-- 43_demodulator.md R151 to R168, 44_detector.md R181 to R189, for samples that are arbitrary real numbers
(00_scope.md R10), whatever the other parameters of the build: LOCATE answers the first greatest correlations
with the two references or raises `NoSyncFound`; DEMOD under DOT decides the first greatest score of every
whole window; RXFRAME is LOCATE, DEMOD of the segment, and ECCDEC if the payload is encoded; DETCHUNK starts
or completes a frame exactly where a correlation exceeds THRESH, and the buffer holds the chunks as they are. -/
def Obligations.RealOperandsAreReceived : Prop :=
  ∀ (w : Nat) (P : Build ℝ) (s : State ℝ w) (x r e : List ℝ), P.num = realNum → s.cfgValid = true →
    r = s.cfg.startRef realNum → e = s.cfg.endRef realNum →
    (r.length > x.length ∨ e.length > x.length → execWith P (.locate x) s = .next (s.raise .noSyncFound)) ∧
    (∀ a b, r.length ≤ x.length → e.length ≤ x.length →
      FirstMax (corrReal x r) (x.length - r.length + 1) a → FirstMax (corrReal x e) (x.length - e.length + 1) b →
      (a + r.length < b → execWith P (.locate x) s = .next (s.respond (.indices (a + r.length) b) [])) ∧
      (b ≤ a + r.length → execWith P (.locate x) s = .next (s.raise .noSyncFound))) ∧
    (P.score = .dot → ∃ out : BitSeq, execWith P (.demod x) s = .next (s.respond (.bits out) []) ∧
      out.length = 2 * (x.length / s.cfg.sps) ∧
      ∀ k m, k < x.length / s.cfg.sps →
        FirstMax (fun i => ∑ n ∈ Finset.range s.cfg.sps,
          x.getD (k * s.cfg.sps + n) 0 * s.cfg.toneReal (Row.ofIndex i) n) 4 m →
        out[2 * k]? = some (Row.ofIndex m).dibit.1 ∧ out[2 * k + 1]? = some (Row.ofIndex m).dibit.2) ∧
    (execWith P (.locate x) s = .next (s.raise .noSyncFound) → execWith P (.rxframe x) s = .next (s.raise .noSyncFound)) ∧
    (∀ a b out, execWith P (.locate x) s = .next (s.respond (.indices a b) []) →
      execWith P (.demod ((x.drop a).take (b - a))) s = .next (s.respond (.bits out) []) →
      (s.cfg.eccEn.payload = true → execWith P (.rxframe x) s = execWith P (.eccdec out) s) ∧
      (s.cfg.eccEn.payload = false → execWith P (.rxframe x) s = .next (s.respond (.bitsGuessed out 0) []))) ∧
    (s.detRun = true → s.cfg.chunkLen = some x.length → s.detState = .idle → s.txActive = false →
      (HitReal s.cfg.thresh x r → execWith P (.detchunk x) s =
        .next (State.respond { s with detState := .recording, detBuf := x } .empty [.startOfFrame])) ∧
      (¬HitReal s.cfg.thresh x r → execWith P (.detchunk x) s = .next (s.respond .empty []))) ∧
    (s.detRun = true → s.cfg.chunkLen = some x.length → s.detState = .recording → P.maxFrameChunks = none →
      (HitReal s.cfg.thresh x e → execWith P (.detchunk x) s =
        .next (State.respond { s with detState := .idle, detBuf := [] } .empty [.frameComplete (s.detBuf ++ x)])) ∧
      (¬HitReal s.cfg.thresh x e → execWith P (.detchunk x) s =
        .next (State.respond { s with detBuf := s.detBuf ++ x } .empty [])))

/-- 00_scope.md R9: every step of every build, that is for every carrier and NUM, SCORE, MAX_FRAME_CHUNKS,
GUESS2 and CNT_W, keeps the invariant of the block, and with it DET_BUF within MAX_FRAME_CHUNKS chunks
(44_detector.md R191); the state after reset meets both. -/
def Obligations.EveryBuildKeepsInvariant : Prop :=
  ∀ (S : Type) (w : Nat) (P : Build S), (∀ m, P.maxFrameChunks = some m → 1 ≤ m) →
    ((State.initial : State S w).Inv ∧ (State.initial : State S w).WithinLimit P.maxFrameChunks) ∧
    ∀ s s' : State S w, s.Inv → stepWith P s = .next s' →
      s'.Inv ∧ (s.WithinLimit P.maxFrameChunks → s'.WithinLimit P.maxFrameChunks)
end

