-- ==== Sys2Proof/Laws/Real.lean ====
section
/-! SUPPORT. The sums, products and cosines of samples are those of the real numbers they write down. -/

namespace Sys2Proof.Machine

/-- The real number a list of terms is. -/
noncomputable def termsReal (ts : List CosTerm) : ℝ := (ts.map CosTerm.toReal).sum

@[simp] theorem termsReal_nil : termsReal [] = 0 := rfl

@[simp] theorem termsReal_cons (t : CosTerm) (ts : List CosTerm) :
    termsReal (t :: ts) = t.toReal + termsReal ts := by
  simp [termsReal]

@[simp] theorem termsReal_append (ts us : List CosTerm) :
    termsReal (ts ++ us) = termsReal ts + termsReal us := by
  simp [termsReal]

theorem toReal_eq_termsReal (a : Sample) : a.toReal = termsReal a.terms := rfl

/-- Each phase in turns, reduced to its fractional part, gives the same cosine. -/
theorem cos_turn_fract (q : Rat) :
    Real.cos (2 * Real.pi * ((q - (q.floor : Rat) : Rat) : ℝ)) = Real.cos (2 * Real.pi * (q : ℝ)) := by
  have h : 2 * Real.pi * ((q - (q.floor : Rat) : Rat) : ℝ)
      = 2 * Real.pi * (q : ℝ) - (q.floor : ℤ) * (2 * Real.pi) := by
    push_cast
    ring
  rw [h, Real.cos_sub_int_mul_two_pi]

theorem cos_turn_compl (q : Rat) :
    Real.cos (2 * Real.pi * ((1 - q : Rat) : ℝ)) = Real.cos (2 * Real.pi * (q : ℝ)) := by
  have h : 2 * Real.pi * ((1 - q : Rat) : ℝ) = 2 * Real.pi - 2 * Real.pi * (q : ℝ) := by
    push_cast
    ring
  rw [h, Real.cos_two_pi_sub]

theorem cos_turn_half (q : Rat) :
    Real.cos (2 * Real.pi * ((1 / 2 - q : Rat) : ℝ)) = -Real.cos (2 * Real.pi * (q : ℝ)) := by
  have h : 2 * Real.pi * ((1 / 2 - q : Rat) : ℝ) = Real.pi - 2 * Real.pi * (q : ℝ) := by
    push_cast
    ring
  rw [h, Real.cos_pi_sub]

theorem cos_quarter_turn : Real.cos (2 * Real.pi * ((1 / 4 : Rat) : ℝ)) = 0 := by
  have h : 2 * Real.pi * ((1 / 4 : Rat) : ℝ) = Real.pi / 2 := by
    push_cast
    ring
  rw [h, Real.cos_pi_div_two]

theorem cos_sixth_turn : Real.cos (2 * Real.pi * ((1 / 6 : Rat) : ℝ)) = 1 / 2 := by
  have h : 2 * Real.pi * ((1 / 6 : Rat) : ℝ) = Real.pi / 3 := by
    push_cast
    ring
  rw [h, Real.cos_pi_div_three]

@[simp] theorem cos_zero_turn : Real.cos (2 * Real.pi * ((0 : Rat) : ℝ)) = 1 := by simp

/-- Folding a term keeps its value. -/
theorem foldTerm_toReal (t : CosTerm) : (foldTerm t).toReal = t.toReal := by
  obtain ⟨θ, c⟩ := t
  simp only [foldTerm]
  set a := θ - (θ.floor : Rat) with ha
  have ha' := cos_turn_fract θ
  rw [← ha] at ha'
  set b := if 1/2 < a then 1 - a else a with hb
  have hb' : Real.cos (2 * Real.pi * (b : ℝ)) = Real.cos (2 * Real.pi * (a : ℝ)) := by
    rw [hb]
    split
    · exact cos_turn_compl a
    · rfl
  set u : CosTerm := if 1/4 < b then ⟨1/2 - b, -c⟩ else ⟨b, c⟩ with hu
  have hu' : u.toReal = (c : ℝ) * Real.cos (2 * Real.pi * (b : ℝ)) := by
    rw [hu]
    split
    · simp only [CosTerm.toReal]
      rw [cos_turn_half]
      push_cast
      ring
    · rfl
  have hgoal : u.toReal = CosTerm.toReal ⟨θ, c⟩ := by rw [hu', hb', ha']; rfl
  split
  · rename_i h
    rw [← hgoal]
    simp only [CosTerm.toReal, h, cos_quarter_turn]
    simp
  · split
    · rename_i h
      rw [← hgoal]
      simp only [CosTerm.toReal, h, cos_sixth_turn, cos_zero_turn]
      push_cast
      ring
    · exact hgoal

/-- Inserting a term adds its value. -/
theorem insertTerm_termsReal (t : CosTerm) (ts : List CosTerm) :
    termsReal (insertTerm t ts) = t.toReal + termsReal ts := by
  induction ts with
  | nil =>
    simp only [insertTerm]
    split
    · simp [CosTerm.toReal, *]
    · simp
  | cons u us ih =>
    simp only [insertTerm]
    split
    · simp [CosTerm.toReal, *]
    · split
      · simp
      · split
        · rename_i h
          have hsum : t.toReal + u.toReal
              = ((t.coef + u.coef : Rat) : ℝ) * Real.cos (2 * Real.pi * (u.phase : ℝ)) := by
            simp only [CosTerm.toReal, h]
            push_cast
            ring
          split
          · rename_i h0
            rw [h0] at hsum
            rw [termsReal_cons, ← add_assoc, hsum]
            simp
          · rw [termsReal_cons, termsReal_cons, ← add_assoc, hsum]
            rfl
        · rw [termsReal_cons, ih, termsReal_cons]
          ring

/-- The sample of a list of terms is the sum of the terms. -/
theorem ofTerms_toReal (ts : List CosTerm) : (ofTerms ts).toReal = termsReal ts := by
  rw [toReal_eq_termsReal]
  induction ts with
  | nil => rfl
  | cons t ts ih =>
    simp only [ofTerms, List.foldr_cons] at ih ⊢
    rw [insertTerm_termsReal, foldTerm_toReal, ih, termsReal_cons]

theorem exactOfRat_toReal (q : Rat) : (exactOfRat q).toReal = (q : ℝ) := by
  rw [exactOfRat, ofTerms_toReal]
  simp [CosTerm.toReal]

theorem exactCos1_toReal (θ : Rat) : (exactCos1 θ).toReal = Real.cos (2 * Real.pi * (θ : ℝ)) := by
  rw [exactCos1, ofTerms_toReal]
  simp [CosTerm.toReal]

theorem exactAdd_toReal (a b : Sample) : (exactAdd a b).toReal = a.toReal + b.toReal := by
  rw [exactAdd, ofTerms_toReal, termsReal_append]
  rfl

theorem termsReal_neg (ts : List CosTerm) :
    termsReal (ts.map fun t => ⟨t.phase, -t.coef⟩) = -termsReal ts := by
  induction ts with
  | nil => simp
  | cons t ts ih =>
    rw [List.map_cons, termsReal_cons, ih, termsReal_cons]
    simp only [CosTerm.toReal]
    push_cast
    ring

theorem exactSub_toReal (a b : Sample) : (exactSub a b).toReal = a.toReal - b.toReal := by
  rw [exactSub, ofTerms_toReal, termsReal_append, termsReal_neg]
  simp only [toReal_eq_termsReal]
  ring

theorem mulTerm_termsReal (t u : CosTerm) : termsReal (mulTerm t u) = t.toReal * u.toReal := by
  simp only [mulTerm, termsReal_cons, termsReal_nil, CosTerm.toReal]
  push_cast
  have h1 : 2 * Real.pi * ((t.phase : ℝ) + u.phase) = 2 * Real.pi * t.phase + 2 * Real.pi * u.phase := by ring
  have h2 : 2 * Real.pi * ((t.phase : ℝ) - u.phase) = 2 * Real.pi * t.phase - 2 * Real.pi * u.phase := by ring
  rw [h1, h2, Real.cos_add, Real.cos_sub]
  ring

theorem termsReal_flatMap {α : Type} (xs : List α) (f : α → List CosTerm) :
    termsReal (xs.flatMap f) = (xs.map fun x => termsReal (f x)).sum := by
  induction xs with
  | nil => simp
  | cons x xs ih => simp [ih]

theorem exactMul_toReal (a b : Sample) : (exactMul a b).toReal = a.toReal * b.toReal := by
  rw [exactMul, ofTerms_toReal, termsReal_flatMap]
  simp only [termsReal_flatMap, mulTerm_termsReal, List.sum_map_mul_left]
  rw [List.sum_map_mul_right]
  rfl

end Sys2Proof.Machine
end

