-- ==== Sys2Proof/Laws/Gap.lean ====
section
/-! SUPPORT. A sum of cosines of rational turns with integer coefficients that is not 0 is bounded away
from 0: the fact that lets exact comparisons end. -/

namespace Sys2Proof.Machine
open Finset

/-- The real number `Σ n · 2cos(2πk/N)`. -/
noncomputable def cosCombo (N : ℕ) (l : List (ℤ × ℕ)) : ℝ :=
  (l.map fun p => (p.1 : ℝ) * (2 * Real.cos (2 * Real.pi * ((p.2 : ℝ) / N)))).sum

/-- A sum over powers of a number on the unit circle is bounded by its coefficients. -/
theorem norm_rootSum_le {w : ℂ} (hw : ‖w‖ = 1) (l : List (ℤ × ℕ)) :
    ‖(l.map fun p => (p.1 : ℂ) * (w ^ p.2 + w⁻¹ ^ p.2)).sum‖ ≤ ((l.map fun p => 2 * p.1.natAbs).sum : ℕ) := by
  induction l with
  | nil => simp
  | cons p l ih =>
    simp only [List.map_cons, List.sum_cons]
    push_cast at ih ⊢
    refine (norm_add_le _ _).trans (add_le_add ?_ ih)
    have h1 : ‖w ^ p.2 + w⁻¹ ^ p.2‖ ≤ 2 := by
      refine (norm_add_le _ _).trans ?_
      simp [hw]
      norm_num
    have h2 : ‖(p.1 : ℂ)‖ = (p.1.natAbs : ℝ) := by
      rw [Complex.norm_intCast, Nat.cast_natAbs, Int.cast_abs]
    rw [norm_mul, h2, mul_comm]
    exact mul_le_mul_of_nonneg_right h1 (by positivity)

/-- The sum over powers of `e^(2πi/N)` and of its inverse is the sum of cosines. -/
theorem rootSum_eq_cosCombo {N : ℕ} (l : List (ℤ × ℕ)) :
    (l.map fun p => (p.1 : ℂ) * (Complex.exp (2 * Real.pi * Complex.I / N) ^ p.2
      + (Complex.exp (2 * Real.pi * Complex.I / N))⁻¹ ^ p.2)).sum = (cosCombo N l : ℂ) := by
  induction l with
  | nil => simp [cosCombo]
  | cons p l ih =>
    simp only [cosCombo, List.map_cons, List.sum_cons] at ih ⊢
    rw [ih]
    push_cast
    congr 2
    rw [← Complex.exp_neg, ← Complex.exp_nat_mul, ← Complex.exp_nat_mul, Complex.cos]
    have e1 : (p.2 : ℂ) * (2 * Real.pi * Complex.I / N) = 2 * Real.pi * (p.2 / N) * Complex.I := by ring
    have e2 : (p.2 : ℂ) * -(2 * Real.pi * Complex.I / N) = -(2 * Real.pi * (p.2 / N)) * Complex.I := by ring
    rw [e1, e2]
    ring

/-- A combination with integer coefficients that is not 0 is bounded away from 0: it is an algebraic
integer whose conjugates are bounded, and its norm is a non-zero integer. -/
theorem cosCombo_gap_of_field {N : ℕ} (hN : 0 < N) (K : Type) [Field K] [CharZero K] [Algebra ℚ K]
    [IsCyclotomicExtension {N} ℚ K] (l : List (ℤ × ℕ)) (M : ℕ)
    (hM : (l.map fun p => 2 * p.1.natAbs).sum ≤ M) (hne : cosCombo N l ≠ 0) :
    1 ≤ |cosCombo N l| * (M : ℝ) ^ N := by
  classical
  have hfd : FiniteDimensional ℚ K := IsCyclotomicExtension.finiteDimensional {N} ℚ K
  have hN0 : NeZero N := ⟨hN.ne'⟩
  have hN0' : NeZero ((N : ℕ) : ℚ) := ⟨by exact_mod_cast hN.ne'⟩
  have hz := IsCyclotomicExtension.zeta_spec N ℚ K
  set z := IsCyclotomicExtension.zeta N ℚ K
  set b : K := (l.map fun p => (p.1 : K) * (z ^ p.2 + z⁻¹ ^ p.2)).sum with hb
  have hirr := Polynomial.cyclotomic.irreducible_rat hN
  let E := hz.embeddingsEquivPrimitiveRoots ℂ hirr
  -- the value of an embedding
  have hσ : ∀ σ : K →ₐ[ℚ] ℂ,
      σ b = (l.map fun p => (p.1 : ℂ) * ((σ z) ^ p.2 + (σ z)⁻¹ ^ p.2)).sum := by
    intro σ
    rw [hb, map_list_sum, List.map_map]
    congr 1
    refine List.map_congr_left fun p _ => ?_
    simp
  have hσz : ∀ σ : K →ₐ[ℚ] ℂ, ‖σ z‖ = 1 := by
    intro σ
    have h1 : (σ z) ^ N = 1 := by rw [← map_pow, hz.pow_eq_one, map_one]
    exact Complex.norm_eq_one_of_pow_eq_one h1 hN.ne'
  have hle : ∀ σ : K →ₐ[ℚ] ℂ, ‖σ b‖ ≤ (M : ℝ) := by
    intro σ
    rw [hσ]
    exact (norm_rootSum_le (hσz σ) l).trans (by exact_mod_cast hM)
  -- the embedding that gives the real number
  have hroot : Complex.exp (2 * Real.pi * Complex.I / N) ∈ primitiveRoots N ℂ :=
    (mem_primitiveRoots hN).2 (Complex.isPrimitiveRoot_exp N hN.ne')
  obtain ⟨σ₀, hσ₀⟩ : ∃ σ₀ : K →ₐ[ℚ] ℂ, σ₀ z = Complex.exp (2 * Real.pi * Complex.I / N) := by
    refine ⟨E.symm ⟨_, hroot⟩, ?_⟩
    have := IsPrimitiveRoot.embeddingsEquivPrimitiveRoots_apply_coe hz ℂ hirr (E.symm ⟨_, hroot⟩)
    rw [← this]
    exact congrArg Subtype.val (E.apply_symm_apply ⟨_, hroot⟩)
  have hval : σ₀ b = (cosCombo N l : ℂ) := by rw [hσ, hσ₀, rootSum_eq_cosCombo]
  have hb0 : b ≠ 0 := by
    intro h
    rw [h, map_zero] at hval
    exact hne (by exact_mod_cast hval.symm)
  -- its norm is a non-zero integer
  have hint : IsIntegral ℤ b := by
    have hzi : IsIntegral ℤ z := hz.isIntegral hN
    have hzi' : IsIntegral ℤ z⁻¹ := hz.inv.isIntegral hN
    refine mem_integralClosure_iff ℤ K |>.1 (list_sum_mem ?_)
    intro x hx
    obtain ⟨p, -, rfl⟩ := List.mem_map.1 hx
    refine (mem_integralClosure_iff ℤ K).2 (IsIntegral.mul ?_ ((hzi.pow _).add (hzi'.pow _)))
    exact isIntegral_algebraMap (R := ℤ) (x := p.1)
  obtain ⟨m, hm⟩ := IsIntegrallyClosed.isIntegral_iff.1 (Algebra.isIntegral_norm ℚ hint)
  have hm0 : m ≠ 0 := by
    rintro rfl
    rw [map_zero] at hm
    exact hb0 (Algebra.norm_eq_zero_iff.1 hm.symm)
  have hprod : ((m : ℂ)) = ∏ σ : K →ₐ[ℚ] ℂ, σ b := by
    rw [← Algebra.norm_eq_prod_embeddings ℚ ℂ b, ← hm]
    simp
  have hone : (1 : ℝ) ≤ ∏ σ : K →ₐ[ℚ] ℂ, ‖σ b‖ := by
    rw [← norm_prod, ← hprod, Complex.norm_intCast]
    exact_mod_cast Int.one_le_abs hm0
  have hMpos : (1 : ℝ) ≤ M := by
    rcases Nat.eq_zero_or_pos M with h | h
    · have h2 := hle σ₀
      rw [h, hval] at h2
      simp at h2
      exact absurd h2 hne
    · exact_mod_cast h
  have hcard : (univ.erase σ₀).card ≤ N := by
    have h1 : (univ : Finset (K →ₐ[ℚ] ℂ)).card = Nat.totient N := by
      rw [Finset.card_univ, Fintype.card_congr E, Fintype.card_coe, Complex.card_primitiveRoots]
    exact ((Finset.card_erase_le).trans h1.le).trans (Nat.totient_le N)
  rw [← Finset.mul_prod_erase univ _ (Finset.mem_univ σ₀)] at hone
  refine hone.trans (mul_le_mul ?_ ?_ (by positivity) (abs_nonneg _))
  · rw [hval, Complex.norm_real, Real.norm_eq_abs]
  · calc ∏ σ ∈ univ.erase σ₀, ‖σ b‖ ≤ ∏ _σ ∈ univ.erase σ₀, (M : ℝ) :=
          Finset.prod_le_prod (fun _ _ => norm_nonneg _) fun σ _ => hle σ
      _ = (M : ℝ) ^ (univ.erase σ₀).card := by rw [Finset.prod_const]
      _ ≤ (M : ℝ) ^ N := pow_le_pow_right₀ hMpos hcard

/-- A combination with integer coefficients that is not 0 is bounded away from 0. -/
theorem cosCombo_gap {N : ℕ} (hN : 0 < N) (l : List (ℤ × ℕ)) (M : ℕ)
    (hM : (l.map fun p => 2 * p.1.natAbs).sum ≤ M) (hne : cosCombo N l ≠ 0) :
    1 ≤ |cosCombo N l| * (M : ℝ) ^ N := by
  have hN0 : NeZero N := ⟨hN.ne'⟩
  have hN1 : NeZero ((N : ℕ) : ℚ) := ⟨by exact_mod_cast hN.ne'⟩
  have hK := CyclotomicField.isCyclotomicExtension N ℚ
  exact @cosCombo_gap_of_field N hN (CyclotomicField N ℚ) _ _ _ hK l M hM hne
end Sys2Proof.Machine
end

