-- ==== Sys2Proof/Laws/Approx.lean ====
section
/-! SUPPORT. The rational enclosures of π, of cosines and of samples, and the sign they decide: the
comparisons of the exact numerics are those of the real numbers. -/

namespace Sys2Proof.Machine
open Finset

theorem atanInv_eq_sum (m n : ℕ) :
    ((atanInv m n : Rat) : ℝ) = ∑ i ∈ range n, (-1 : ℝ) ^ i * ((1 / (m : ℝ)) ^ (2 * i + 1) / (2 * i + 1 : ℕ)) := by
  induction n with
  | zero => simp [atanInv]
  | succ n ih =>
    rw [sum_range_succ, ← ih, atanInv, Rat.cast_add, Rat.mkRat_eq_div]
    congr 1
    rcases Nat.even_or_odd n with h | h
    · rw [if_pos (Nat.even_iff.1 h), h.neg_one_pow]
      push_cast
      rw [one_div_pow]
      field_simp
    · rw [if_neg (by rw [Nat.odd_iff.1 h]; decide), h.neg_one_pow]
      push_cast
      rw [one_div_pow]
      field_simp

theorem atanInv_error (m : ℕ) (hm : 2 ≤ m) (n : ℕ) :
    |Real.arctan (m : ℝ)⁻¹ - (atanInv m n : Rat)| ≤ (1 / (m : ℝ)) ^ (2 * n + 1) := by
  have hm' : (2 : ℝ) ≤ m := by exact_mod_cast hm
  have hx0 : (0 : ℝ) < 1 / m := by positivity
  have hx1 : (1 : ℝ) / m < 1 := by rw [div_lt_one (by linarith)]; linarith
  set x : ℝ := 1 / m with hx
  let f : ℕ → ℝ := fun i => x ^ (2 * i + 1) / (2 * i + 1 : ℕ)
  have hanti : Antitone f := by
    refine antitone_nat_of_succ_le fun i => ?_
    show x ^ (2 * (i + 1) + 1) / ((2 * (i + 1) + 1 : ℕ) : ℝ) ≤ x ^ (2 * i + 1) / ((2 * i + 1 : ℕ) : ℝ)
    refine div_le_div₀ (by positivity) (pow_le_pow_of_le_one hx0.le hx1.le (by omega)) (by positivity) ?_
    exact_mod_cast (by omega : 2 * i + 1 ≤ 2 * (i + 1) + 1)
  have hsum := Real.hasSum_arctan (x := x) (by rw [Real.norm_eq_abs, abs_of_pos hx0]; exact hx1)
  have htend : Filter.Tendsto (fun n => ∑ i ∈ range n, (-1 : ℝ) ^ i * f i) Filter.atTop (nhds (Real.arctan x)) := by
    refine (hsum.tendsto_sum_nat).congr fun n => sum_congr rfl fun i _ => ?_
    simp only [f]
    rw [mul_div_assoc]
  have hS : ((atanInv m n : Rat) : ℝ) = ∑ i ∈ range n, (-1 : ℝ) ^ i * f i := atanInv_eq_sum m n
  have hf : f n ≤ x ^ (2 * n + 1) := by
    refine div_le_self (by positivity) ?_
    exact_mod_cast (by omega : 1 ≤ 2 * n + 1)
  rw [← one_div, ← hx, hS]
  refine le_trans ?_ hf
  obtain ⟨k, rfl | rfl⟩ := Nat.even_or_odd' n
  · have h1 := hanti.alternating_series_le_tendsto htend k
    have h2 := hanti.tendsto_le_alternating_series htend k
    rw [sum_range_succ] at h2
    rw [abs_of_nonneg (by linarith)]
    have : (-1 : ℝ) ^ (2 * k) = 1 := by simp
    rw [this] at h2
    linarith
  · have h1 := hanti.alternating_series_le_tendsto htend (k + 1)
    have h2 := hanti.tendsto_le_alternating_series htend k
    rw [show 2 * (k + 1) = 2 * k + 1 + 1 by ring, sum_range_succ] at h1
    rw [abs_of_nonpos (by linarith)]
    have : (-1 : ℝ) ^ (2 * k + 1) = -1 := by rw [pow_succ]; simp
    rw [this] at h1
    linarith

/-- `piApprox p` is π to within `2^(-p)`. -/
theorem piApprox_error (p : ℕ) : |Real.pi - (piApprox p : Rat)| ≤ (1 / 2 : ℝ) ^ p := by
  set n := p / 4 + 2 with hn
  have h5 := atanInv_error 5 (by norm_num) n
  have h239 := atanInv_error 239 (by norm_num) n
  have hM := Real.four_mul_arctan_inv_5_sub_arctan_inv_239
  have hdef : ((piApprox p : Rat) : ℝ) = 16 * (atanInv 5 n : Rat) - 4 * (atanInv 239 n : Rat) := by
    simp only [piApprox, ← hn]
    push_cast
    ring
  have hle : (1 / (239 : ℝ)) ^ (2 * n + 1) ≤ (1 / 5 : ℝ) ^ (2 * n + 1) :=
    pow_le_pow_left₀ (by norm_num) (by norm_num) _
  have hpow : 20 * (1 / 5 : ℝ) ^ (2 * n + 1) ≤ (1 / 2 : ℝ) ^ p := by
    have e1 : 20 * (1 / 5 : ℝ) ^ (2 * n + 1) = 4 * (1 / 25 : ℝ) ^ (p / 4 + 2) := by
      rw [pow_succ, pow_mul, hn]; norm_num; ring
    have e2 : (1 / 25 : ℝ) ^ (p / 4) ≤ (1 / 16 : ℝ) ^ (p / 4) := pow_le_pow_left₀ (by norm_num) (by norm_num) _
    have e3 : (1 / 16 : ℝ) ^ (p / 4) * (1 / 8) ≤ (1 / 2 : ℝ) ^ p := by
      have : (1 / 16 : ℝ) ^ (p / 4) * (1 / 8) = (1 / 2 : ℝ) ^ (4 * (p / 4) + 3) := by
        rw [pow_add, pow_mul]; norm_num
      rw [this]
      exact pow_le_pow_of_le_one (by norm_num) (by norm_num) (by omega)
    rw [e1, pow_add]
    have e4 : (0 : ℝ) ≤ (1 / 16 : ℝ) ^ (p / 4) := by positivity
    nlinarith
  push_cast at h5 h239
  rw [abs_le] at h5 h239 ⊢
  rw [hdef]
  constructor <;> nlinarith

/-- `roundDown q p` is `q` to within `2^(-p)`. -/
theorem roundDown_error (q : Rat) (p : ℕ) : |((roundDown q p : Rat) : ℝ) - (q : ℝ)| ≤ (1 / 2 : ℝ) ^ p := by
  have hden : (0 : ℤ) < (q.den : ℤ) := by exact_mod_cast q.den_pos
  set z : ℤ := q.num * 2 ^ p with hz
  have h1 := Int.emod_add_mul_ediv z q.den
  have h2 := Int.emod_nonneg z hden.ne'
  have h3 := Int.emod_lt_of_pos z hden
  have hd : (0 : ℝ) < (q.den : ℝ) := by exact_mod_cast q.den_pos
  have hp : (0 : ℝ) < (2 : ℝ) ^ p := by positivity
  have hq : (q : ℝ) = (q.num : ℝ) / (q.den : ℝ) := by
    exact Rat.cast_def q
  have hr : ((roundDown q p : Rat) : ℝ) = ((z / (q.den : ℤ) : ℤ) : ℝ) / (2 : ℝ) ^ p := by
    rw [roundDown, Rat.mkRat_eq_div]
    push_cast
    rfl
  have hz' : (z : ℝ) = (q.num : ℝ) * 2 ^ p := by rw [hz]; push_cast; rfl
  have h1' : ((z % (q.den : ℤ) : ℤ) : ℝ) + (q.den : ℝ) * ((z / (q.den : ℤ) : ℤ) : ℝ) = (z : ℝ) := by exact_mod_cast h1
  have h2' : (0 : ℝ) ≤ ((z % (q.den : ℤ) : ℤ) : ℝ) := by exact_mod_cast h2
  have h3' : ((z % (q.den : ℤ) : ℤ) : ℝ) < (q.den : ℝ) := by exact_mod_cast h3
  rw [hr, hq, one_div_pow, abs_le]
  set d : ℝ := (q.den : ℝ)
  set w : ℝ := ((z / (q.den : ℤ) : ℤ) : ℝ)
  set m : ℝ := ((z % (q.den : ℤ) : ℤ) : ℝ)
  have key : w / 2 ^ p - (q.num : ℝ) / d = -(m / d) / 2 ^ p := by
    have : (q.num : ℝ) = (m + d * w) / 2 ^ p := by rw [h1', hz']; field_simp
    rw [this]; field_simp; ring
  rw [key]
  have hmd : m / d ≤ 1 := by rw [div_le_one hd]; exact h3'.le
  have hmd0 : 0 ≤ m / d := by positivity
  constructor
  · rw [neg_div, neg_le_neg_iff]
    exact div_le_div_of_nonneg_right hmd hp.le
  · rw [neg_div]
    have : 0 ≤ m / d / 2 ^ p := by positivity
    have : (0 : ℝ) ≤ 1 / 2 ^ p := by positivity
    linarith

theorem cosSeries_eq_sum (y : Rat) (n k : ℕ) :
    ((cosSeries y n k : Rat) : ℝ)
      = ∑ j ∈ range n, (-(y : ℝ)) ^ j * ((2 * k).factorial / (2 * k + 2 * j).factorial : ℝ) := by
  induction n generalizing k with
  | zero => simp [cosSeries]
  | succ n ih =>
    rw [sum_range_succ', cosSeries]
    push_cast
    rw [ih, mul_sum, sub_eq_add_neg, add_comm, ← sum_neg_distrib]
    have hk : ((2 * k).factorial : ℝ) ≠ 0 := by exact_mod_cast (2 * k).factorial_ne_zero
    congr 1
    · refine sum_congr rfl fun j _ => ?_
      have e1 : 2 * (k + 1) + 2 * j = 2 * k + 2 * (j + 1) := by ring
      have e2 : ((2 * (k + 1)).factorial : ℝ) = (2 * k + 2) * (2 * k + 1) * (2 * k).factorial := by
        rw [show 2 * (k + 1) = 2 * k + 1 + 1 by ring, Nat.factorial_succ, Nat.factorial_succ]
        push_cast
        ring
      have e3 : ((2 * k + 2 * (j + 1)).factorial : ℝ) ≠ 0 := by exact_mod_cast Nat.factorial_ne_zero _
      rw [e1, e2, pow_succ]
      field_simp
    · simp [hk]

theorem expSeries_re (x : ℝ) (n : ℕ) :
    (∑ m ∈ range (2 * n), ((x : ℂ) * Complex.I) ^ m / (m.factorial : ℂ)).re
      = ∑ j ∈ range n, (-(x * x)) ^ j / ((2 * j).factorial : ℝ) := by
  induction n with
  | zero => simp
  | succ n ih =>
    rw [show 2 * (n + 1) = 2 * n + 1 + 1 by ring, sum_range_succ, sum_range_succ, Complex.add_re,
      Complex.add_re, ih, sum_range_succ]
    have h1 : ((x : ℂ) * Complex.I) ^ (2 * n) = (((-(x * x)) ^ n : ℝ) : ℂ) := by
      rw [pow_mul, mul_pow, Complex.I_sq]
      push_cast
      ring
    have h2 : ((x : ℂ) * Complex.I) ^ (2 * n + 1) = (((-(x * x)) ^ n * x : ℝ) : ℂ) * Complex.I := by
      rw [pow_succ, h1]
      push_cast
      ring
    rw [h1, h2]
    have e1 : ((((-(x * x)) ^ n : ℝ) : ℂ) / ((2 * n).factorial : ℂ)).re = (-(x * x)) ^ n / ((2 * n).factorial : ℝ) := by
      rw [← Complex.ofReal_natCast, ← Complex.ofReal_div, Complex.ofReal_re]
    have e2 : ((((-(x * x)) ^ n * x : ℝ) : ℂ) * Complex.I / ((2 * n + 1).factorial : ℂ)).re = 0 := by
      rw [← Complex.ofReal_natCast, mul_div_right_comm, ← Complex.ofReal_div, Complex.re_ofReal_mul, Complex.I_re, mul_zero]
    rw [e1, e2, add_zero]

theorem four_pow_le_factorial (n : ℕ) : 4 ^ n ≤ n.factorial * 128 := by
  induction n with
  | zero => decide
  | succ n ih =>
    rcases Nat.lt_or_ge n 3 with h | h
    · interval_cases n <;> decide
    · rw [pow_succ, Nat.factorial_succ]
      nlinarith

/-- The Taylor polynomial of the cosine on [-2, 2]. -/
theorem cosSeries_error (x : Rat) (hx : |(x : ℝ)| ≤ 2) (p : ℕ) :
    |Real.cos x - (cosSeries (x * x) (p / 2 + 5) 0 : Rat)| ≤ (1 / 2 : ℝ) ^ (p + 1) := by
  set K := p / 2 + 5 with hK
  have hz : ‖((x : ℝ) : ℂ) * Complex.I‖ = |(x : ℝ)| := by simp
  have hn : ‖((x : ℝ) : ℂ) * Complex.I‖ / ((2 * K).succ : ℝ) ≤ 1 / 2 := by
    rw [hz, div_le_iff₀ (by positivity)]
    have : (11 : ℝ) ≤ ((2 * K).succ : ℝ) := by exact_mod_cast (by omega : 11 ≤ (2 * K).succ)
    linarith
  have hb := Complex.exp_bound' hn
  have hre := (Complex.abs_re_le_norm _).trans hb
  rw [Complex.sub_re, Complex.exp_ofReal_mul_I_re, expSeries_re, hz] at hre
  have hser : ((cosSeries (x * x) K 0 : Rat) : ℝ) = ∑ j ∈ range K, (-((x : ℝ) * x)) ^ j / ((2 * j).factorial : ℝ) := by
    rw [cosSeries_eq_sum]
    refine sum_congr rfl fun j _ => ?_
    push_cast
    simp [div_eq_mul_inv]
  rw [hser]
  refine hre.trans ?_
  have h4 : ((4 : ℝ)) ^ (2 * K) ≤ ((2 * K).factorial : ℝ) * 128 := by exact_mod_cast four_pow_le_factorial (2 * K)
  have hf : (0 : ℝ) < ((2 * K).factorial : ℝ) := by exact_mod_cast (2 * K).factorial_pos
  have hpow : |(x : ℝ)| ^ (2 * K) ≤ 2 ^ (2 * K) := pow_le_pow_left₀ (abs_nonneg _) hx _
  have h5 : |(x : ℝ)| ^ (2 * K) / ((2 * K).factorial : ℝ) ≤ 128 * (1 / 2) ^ (2 * K) := by
    rw [div_le_iff₀ hf]
    refine hpow.trans ?_
    have e : (2 : ℝ) ^ (2 * K) = 4 ^ (2 * K) * (1 / 2) ^ (2 * K) := by rw [← mul_pow]; norm_num
    rw [e]
    have : (0 : ℝ) ≤ (1 / 2 : ℝ) ^ (2 * K) := by positivity
    nlinarith
  have h6 : (1 / 2 : ℝ) ^ (2 * K) ≤ (1 / 2) ^ (p + 9) :=
    pow_le_pow_of_le_one (by norm_num) (by norm_num) (by omega)
  have h7 : (1 / 2 : ℝ) ^ (p + 9) = (1 / 2) ^ (p + 1) * (1 / 256) := by
    rw [show p + 9 = (p + 1) + 8 by ring, pow_add]; norm_num
  rw [h7] at h6
  linarith

theorem cosApprox_error (θ : Rat) (h0 : 0 ≤ θ) (h1 : θ ≤ 1 / 4) (p : ℕ) :
    |Real.cos (2 * Real.pi * (θ : ℝ)) - (cosApprox θ p : Rat)| ≤ (1 / 2 : ℝ) ^ p := by
  have hpi := piApprox_error (p + 2)
  have hrd := roundDown_error (2 * θ * piApprox (p + 2)) (p + 3)
  set x := roundDown (2 * θ * piApprox (p + 2)) (p + 3) with hx
  have hθ0 : (0 : ℝ) ≤ θ := by exact_mod_cast h0
  have hθ1 : (θ : ℝ) ≤ 1 / 4 := by
    have := (Rat.cast_le (K := ℝ)).2 h1
    push_cast at this
    exact this
  push_cast at hrd
  have hA : (1 / 2 : ℝ) ^ (p + 2) = (1 / 2) ^ p / 4 := by rw [pow_add]; norm_num; ring
  have hB : (1 / 2 : ℝ) ^ (p + 3) = (1 / 2) ^ p / 8 := by rw [pow_add]; norm_num; ring
  have hC : (1 / 2 : ℝ) ^ (p + 1) = (1 / 2) ^ p / 2 := by rw [pow_add]; norm_num; ring
  have hp1 : (1 / 2 : ℝ) ^ p ≤ 1 := pow_le_one₀ (by norm_num) (by norm_num)
  have hp0 : (0 : ℝ) < (1 / 2 : ℝ) ^ p := by positivity
  have hdiff : |2 * Real.pi * (θ : ℝ) - (x : ℝ)| ≤ (1 / 2) ^ p / 4 := by
    have e : 2 * Real.pi * (θ : ℝ) - (x : ℝ)
        = 2 * θ * (Real.pi - (piApprox (p + 2) : Rat)) - ((x : ℝ) - 2 * θ * (piApprox (p + 2) : Rat)) := by ring
    rw [e]
    refine (abs_sub _ _).trans ?_
    rw [abs_mul, abs_of_nonneg (by linarith : (0 : ℝ) ≤ 2 * θ)]
    rw [hA] at hpi
    rw [hB] at hrd
    have : 2 * (θ : ℝ) * |Real.pi - (piApprox (p + 2) : Rat)| ≤ 1 / 2 * ((1 / 2) ^ p / 4) :=
      mul_le_mul (by linarith) hpi (abs_nonneg _) (by norm_num)
    linarith
  have hxabs : |(x : ℝ)| ≤ 2 := by
    have hpi' := Real.pi_lt_d2
    have hpi0 := Real.pi_pos
    have : |(x : ℝ)| ≤ |2 * Real.pi * (θ : ℝ)| + (1 / 2) ^ p / 4 := by
      have := abs_sub_abs_le_abs_sub (x : ℝ) (2 * Real.pi * (θ : ℝ))
      rw [abs_sub_comm] at this
      linarith
    have h2 : |2 * Real.pi * (θ : ℝ)| ≤ 1.6 := by
      rw [abs_of_nonneg (by positivity)]
      nlinarith
    linarith
  have hs := cosSeries_error x hxabs p
  have hl := Real.abs_cos_sub_cos_le (2 * Real.pi * (θ : ℝ)) (x : ℝ)
  have hdef : cosApprox θ p = cosSeries (x * x) (p / 2 + 5) 0 := rfl
  rw [hdef]
  rw [hC] at hs
  have := abs_sub_le (Real.cos (2 * Real.pi * (θ : ℝ))) (Real.cos x) (cosSeries (x * x) (p / 2 + 5) 0 : Rat)
  linarith

/-- All phases lie where `cosApprox` is accurate. -/
def PhasesOk (ts : List CosTerm) : Prop := ∀ t ∈ ts, 0 ≤ t.phase ∧ t.phase ≤ 1 / 4

theorem coef_le_natBound (c : Rat) : |(c : ℝ)| ≤ ((c.num.natAbs / c.den + 1 : ℕ) : ℝ) := by
  have hd : 0 < c.den := c.den_pos
  have h := Nat.lt_div_mul_add (a := c.num.natAbs) hd
  have h2 : c.num.natAbs ≤ (c.num.natAbs / c.den + 1) * c.den := by
    rw [add_mul, one_mul]
    exact h.le
  rw [Rat.cast_def, abs_div, ← Int.cast_abs, ← Nat.cast_natAbs, Nat.abs_cast,
    div_le_iff₀ (by exact_mod_cast hd)]
  exact_mod_cast h2

theorem approxSum_error (ts : List CosTerm) (h : PhasesOk ts) (q : ℕ) :
    |termsReal ts - (ts.foldr (fun t acc => t.coef * cosApprox t.phase q + acc) 0 : Rat)|
      ≤ (coefBound ts : ℝ) * (1 / 2) ^ q := by
  induction ts with
  | nil => simp [coefBound]
  | cons t ts ih =>
    have ih' := ih fun u hu => h u (List.mem_cons_of_mem _ hu)
    obtain ⟨h0, h1⟩ := h t List.mem_cons_self
    have hc := cosApprox_error t.phase h0 h1 q
    have hb := coef_le_natBound t.coef
    have hcb : (coefBound (t :: ts) : ℝ) = ((t.coef.num.natAbs / t.coef.den + 1 : ℕ) : ℝ) + coefBound ts := by
      simp only [coefBound, List.foldr_cons]
      push_cast
      rfl
    rw [termsReal_cons, List.foldr_cons, hcb, add_mul]
    push_cast
    have e : t.toReal + termsReal ts - (t.coef * (cosApprox t.phase q : Rat)
          + (ts.foldr (fun t acc => t.coef * cosApprox t.phase q + acc) 0 : Rat))
        = t.coef * (Real.cos (2 * Real.pi * (t.phase : ℝ)) - (cosApprox t.phase q : Rat))
          + (termsReal ts - (ts.foldr (fun t acc => t.coef * cosApprox t.phase q + acc) 0 : Rat)) := by
      simp only [CosTerm.toReal]
      ring
    rw [e]
    refine (abs_add_le _ _).trans (add_le_add ?_ ih')
    rw [abs_mul]
    push_cast at hb
    exact mul_le_mul hb hc (abs_nonneg _) (by positivity)

theorem approxTerms_error (ts : List CosTerm) (h : PhasesOk ts) (p : ℕ) :
    |termsReal ts - (approxTerms ts p : Rat)| ≤ (1 / 2 : ℝ) ^ p := by
  refine (approxSum_error ts h (p + Nat.log2 (coefBound ts) + 1)).trans ?_
  have h1 : coefBound ts < 2 ^ (Nat.log2 (coefBound ts) + 1) := Nat.lt_log2_self
  have h2 : (coefBound ts : ℝ) ≤ 2 ^ (Nat.log2 (coefBound ts) + 1) := by exact_mod_cast h1.le
  set L := Nat.log2 (coefBound ts) + 1 with hL
  rw [show p + Nat.log2 (coefBound ts) + 1 = L + p by omega, pow_add]
  have e : (2 : ℝ) ^ L * (1 / 2) ^ L = 1 := by
    rw [← mul_pow]; norm_num
  have hp0 : (0 : ℝ) < (1 / 2 : ℝ) ^ p := by positivity
  have hq0 : (0 : ℝ) < (1 / 2 : ℝ) ^ L := by positivity
  have : (coefBound ts : ℝ) * (1 / 2) ^ L ≤ 1 :=
    (mul_le_mul_of_nonneg_right h2 hq0.le).trans e.le
  nlinarith

/-- Where a precision decides the sign, it decides it right; where it does not, the value is small. -/
theorem signAt_spec (ts : List CosTerm) (h : PhasesOk ts) (p : ℕ) :
    (signAt ts p = some 1 ∧ 0 < termsReal ts) ∨ (signAt ts p = some (-1) ∧ termsReal ts < 0) ∨
      (signAt ts p = none ∧ |termsReal ts| ≤ 2 * (1 / 2 : ℝ) ^ p) := by
  have he := abs_le.1 (approxTerms_error ts h p)
  have hcast : ((mkRat 1 (2 ^ p) : Rat) : ℝ) = (1 / 2 : ℝ) ^ p := by
    rw [Rat.mkRat_eq_div]
    push_cast
    rw [one_div_pow]
  simp only [signAt]
  split
  · rename_i hlt
    have hlt' : ((mkRat 1 (2 ^ p) : Rat) : ℝ) < (approxTerms ts p : Rat) := by exact_mod_cast hlt
    rw [hcast] at hlt'
    exact .inl ⟨rfl, by linarith [he.1]⟩
  · rename_i hge
    split
    · rename_i hlt
      have hlt' : ((approxTerms ts p : Rat) : ℝ) < ((-mkRat 1 (2 ^ p) : Rat) : ℝ) := by exact_mod_cast hlt
      rw [Rat.cast_neg, hcast] at hlt'
      exact .inr (.inl ⟨rfl, by linarith [he.2]⟩)
    · rename_i hge2
      have h1 : ((approxTerms ts p : Rat) : ℝ) ≤ ((mkRat 1 (2 ^ p) : Rat) : ℝ) := by exact_mod_cast not_lt.1 hge
      have h2 : ((-mkRat 1 (2 ^ p) : Rat) : ℝ) ≤ (approxTerms ts p : Rat) := by exact_mod_cast not_lt.1 hge2
      rw [hcast] at h1
      rw [Rat.cast_neg, hcast] at h2
      exact .inr (.inr ⟨rfl, abs_le.2 ⟨by linarith [he.1], by linarith [he.2]⟩⟩)

theorem phaseDen_pos (ts : List CosTerm) : 0 < phaseDen ts := by
  induction ts with
  | nil => decide
  | cons t ts ih => exact Nat.lcm_pos t.phase.den_pos ih

theorem coefDen_pos (ts : List CosTerm) : 0 < coefDen ts := by
  induction ts with
  | nil => decide
  | cons t ts ih => exact Nat.lcm_pos t.coef.den_pos ih

theorem phaseDen_dvd {ts : List CosTerm} {t : CosTerm} (h : t ∈ ts) : t.phase.den ∣ phaseDen ts := by
  induction ts with
  | nil => cases h
  | cons u us ih =>
    rcases List.mem_cons.1 h with rfl | h
    · exact Nat.dvd_lcm_left _ _
    · exact (ih h).trans (Nat.dvd_lcm_right _ _)

theorem coefDen_dvd {ts : List CosTerm} {t : CosTerm} (h : t ∈ ts) : t.coef.den ∣ coefDen ts := by
  induction ts with
  | nil => cases h
  | cons u us ih =>
    rcases List.mem_cons.1 h with rfl | h
    · exact Nat.dvd_lcm_left _ _
    · exact (ih h).trans (Nat.dvd_lcm_right _ _)

/-- The integer coefficient and the integer phase of a term over common denominators. -/
def integerTerm (d n : ℕ) (t : CosTerm) : ℤ × ℕ :=
  (t.coef.num * (d / t.coef.den : ℕ), t.phase.num.natAbs * (n / t.phase.den))

theorem integerTerm_value {d n : ℕ} (hd : 0 < d) (hn : 0 < n) (t : CosTerm) (hcd : t.coef.den ∣ d)
    (hpd : t.phase.den ∣ n) (h0 : 0 ≤ t.phase) :
    ((integerTerm d n t).1 : ℝ) * (2 * Real.cos (2 * Real.pi * (((integerTerm d n t).2 : ℝ) / n)))
      = 2 * d * t.toReal := by
  obtain ⟨a, rfl⟩ := hcd
  obtain ⟨b, rfl⟩ := hpd
  have hda : 0 < t.coef.den := t.coef.den_pos
  have hdb : 0 < t.phase.den := t.phase.den_pos
  have ha : (t.coef.den : ℝ) ≠ 0 := by exact_mod_cast hda.ne'
  have hb : (t.phase.den : ℝ) ≠ 0 := by exact_mod_cast hdb.ne'
  have hb' : (b : ℝ) ≠ 0 := by
    intro h
    have : b = 0 := by exact_mod_cast h
    rw [this] at hn
    simp at hn
  have hnum : ((t.phase.num.natAbs : ℕ) : ℝ) = (t.phase.num : ℝ) := by
    rw [Nat.cast_natAbs, abs_of_nonneg (Rat.num_nonneg.2 h0)]
  have hph : ((t.phase.num.natAbs * b : ℕ) : ℝ) / ((t.phase.den * b : ℕ) : ℝ) = (t.phase : ℝ) := by
    rw [Rat.cast_def t.phase]
    push_cast [hnum]
    field_simp
  simp only [integerTerm, Nat.mul_div_cancel_left _ hda, Nat.mul_div_cancel_left _ hdb, CosTerm.toReal]
  rw [hph, Rat.cast_def t.coef]
  push_cast
  field_simp

theorem integerTerms_value (ts : List CosTerm) (h : PhasesOk ts) :
    cosCombo (phaseDen ts) (ts.map (integerTerm (coefDen ts) (phaseDen ts))) = 2 * coefDen ts * termsReal ts := by
  have hgen : ∀ us : List CosTerm, us ⊆ ts →
      cosCombo (phaseDen ts) (us.map (integerTerm (coefDen ts) (phaseDen ts))) = 2 * coefDen ts * termsReal us := by
    intro us
    induction us with
    | nil => intro _; simp [cosCombo]
    | cons u us ih =>
      intro hsub
      obtain ⟨hu, hus⟩ := List.cons_subset.1 hsub
      have hv := integerTerm_value (coefDen_pos ts) (phaseDen_pos ts) u (coefDen_dvd hu) (phaseDen_dvd hu) (h u hu).1
      have ih' := ih hus
      simp only [cosCombo, List.map_cons, List.sum_cons] at ih' ⊢
      rw [ih', hv, termsReal_cons]
      ring
  exact hgen ts fun _ hx => hx

theorem integerTerms_bound (ts : List CosTerm) :
    ((ts.map (integerTerm (coefDen ts) (phaseDen ts))).map fun p => 2 * p.1.natAbs).sum
      ≤ 2 * coefDen ts * coefBound ts := by
  have hgen : ∀ us : List CosTerm, us ⊆ ts →
      ((us.map (integerTerm (coefDen ts) (phaseDen ts))).map fun p => 2 * p.1.natAbs).sum
        ≤ 2 * coefDen ts * coefBound us := by
    intro us
    induction us with
    | nil => intro _; simp
    | cons u us ih =>
      intro hsub
      obtain ⟨hu, hus⟩ := List.cons_subset.1 hsub
      have hcb : coefBound (u :: us) = (u.coef.num.natAbs / u.coef.den + 1) + coefBound us := rfl
      rw [hcb, mul_add]
      simp only [List.map_cons, List.sum_cons]
      refine add_le_add ?_ (ih hus)
      obtain ⟨a, ha⟩ := coefDen_dvd hu
      have hd : 0 < u.coef.den := u.coef.den_pos
      have h1 := Nat.lt_div_mul_add (a := u.coef.num.natAbs) hd
      simp only [integerTerm, ha, Nat.mul_div_cancel_left _ hd, Int.natAbs_mul, Int.natAbs_natCast]
      have h2 : u.coef.num.natAbs ≤ (u.coef.num.natAbs / u.coef.den + 1) * u.coef.den := by
        rw [add_mul, one_mul]
        exact h1.le
      calc 2 * (u.coef.num.natAbs * a) ≤ 2 * ((u.coef.num.natAbs / u.coef.den + 1) * u.coef.den * a) := by gcongr
        _ = 2 * (u.coef.den * a) * (u.coef.num.natAbs / u.coef.den + 1) := by ring
  exact hgen ts fun _ hx => hx

/-- A value that the last precision does not decide is 0. -/
theorem signBits_decides (ts : List CosTerm) (h : PhasesOk ts)
    (hsmall : |termsReal ts| ≤ 2 * (1 / 2 : ℝ) ^ signBits ts) : termsReal ts = 0 := by
  by_contra hne
  set d := coefDen ts with hd
  set n := phaseDen ts with hn
  set M := 2 * d * coefBound ts with hM
  have hd0 : (0 : ℝ) < d := by exact_mod_cast coefDen_pos ts
  have hval := integerTerms_value ts h
  have hgap := cosCombo_gap (phaseDen_pos ts) _ M (integerTerms_bound ts) (by
    rw [hval]
    have : (coefDen ts : ℝ) ≠ 0 := hd0.ne'
    positivity)
  rw [hval, abs_mul, abs_of_pos (by positivity : (0 : ℝ) < 2 * (coefDen ts : ℝ))] at hgap
  have hlt : 4 * d * M ^ n < 2 ^ signBits ts := Nat.lt_log2_self
  have hlt' : (4 : ℝ) * d * (M : ℝ) ^ n < 2 ^ signBits ts := by exact_mod_cast hlt
  have hM0 : (0 : ℝ) ≤ (M : ℝ) ^ n := by positivity
  have e : (2 : ℝ) ^ signBits ts * (1 / 2) ^ signBits ts = 1 := by rw [← mul_pow]; norm_num
  have hq : (0 : ℝ) < (1 / 2 : ℝ) ^ signBits ts := by positivity
  have h1 : 2 * (d : ℝ) * |termsReal ts| * (M : ℝ) ^ n ≤ (4 * d * (M : ℝ) ^ n) * (1 / 2) ^ signBits ts := by
    have : 2 * (d : ℝ) * |termsReal ts| ≤ 2 * d * (2 * (1 / 2 : ℝ) ^ signBits ts) := by gcongr
    calc 2 * (d : ℝ) * |termsReal ts| * (M : ℝ) ^ n ≤ 2 * d * (2 * (1 / 2 : ℝ) ^ signBits ts) * (M : ℝ) ^ n := by gcongr
      _ = _ := by ring
  have h2 : (4 * d * (M : ℝ) ^ n) * (1 / 2) ^ signBits ts < 2 ^ signBits ts * (1 / 2) ^ signBits ts := by gcongr
  linarith

/-- The sign of a sample whose phases are in range is the sign of its value. -/
theorem exactSign_spec (a : Sample) (h : PhasesOk a.terms) :
    (exactSign a = 1 ∧ 0 < a.toReal) ∨ (exactSign a = -1 ∧ a.toReal < 0) ∨ (exactSign a = 0 ∧ a.toReal = 0) := by
  have h1 := signAt_spec a.terms h 32
  have h2 := signAt_spec a.terms h (signBits a.terms)
  rw [toReal_eq_termsReal]
  simp only [exactSign]
  rcases h1 with ⟨e, hs⟩ | ⟨e, hs⟩ | ⟨e, -⟩
  · rw [e]; exact .inl ⟨rfl, hs⟩
  · rw [e]; exact .inr (.inl ⟨rfl, hs⟩)
  · rw [e]
    rcases h2 with ⟨e, hs⟩ | ⟨e, hs⟩ | ⟨e, hs⟩
    · rw [e]; exact .inl ⟨rfl, hs⟩
    · rw [e]; exact .inr (.inl ⟨rfl, hs⟩)
    · rw [e]; exact .inr (.inr ⟨rfl, signBits_decides _ h hs⟩)

end Sys2Proof.Machine
end

