-- ==== Sys2Proof/Laws/Exact.lean ====
section
/-! SUPPORT. The exact numerics `exactNum` is NUM over the real numbers, seen through `toReal`; and every
sample it makes is in canonical form. -/

namespace Sys2Proof.Machine

/-- A folded term has its phase in [0, 1/4), not 1/6. -/
theorem foldTerm_phase (t : CosTerm) :
    0 ≤ (foldTerm t).phase ∧ (foldTerm t).phase < 1 / 4 ∧ (foldTerm t).phase ≠ 1 / 6 := by
  obtain ⟨θ, c⟩ := t
  have hfl := Rat.floor_le θ
  have hfl1 := Rat.lt_floor_add_one θ
  simp only [foldTerm]
  set a := θ - (θ.floor : Rat) with ha
  have ha0 : 0 ≤ a := by rw [ha]; linarith
  have ha1 : a < 1 := by rw [ha]; push_cast at hfl1; linarith
  set b := if 1/2 < a then 1 - a else a with hb
  have hb' : 0 ≤ b ∧ b ≤ 1/2 := by
    rw [hb]
    split <;> constructor <;> linarith
  set u : CosTerm := if 1/4 < b then ⟨1/2 - b, -c⟩ else ⟨b, c⟩ with hu
  have hu' : 0 ≤ u.phase ∧ u.phase ≤ 1/4 := by
    rw [hu]
    split
    · simp only
      constructor <;> linarith [hb'.2]
    · simp only
      constructor <;> linarith [hb'.1]
  split
  · norm_num
  · split
    · norm_num
    · rename_i h4 h6
      exact ⟨hu'.1, lt_of_le_of_ne hu'.2 h4, h6⟩

/-- Rising phases stay rising when a term above the lower bound is inserted. -/
theorem insertTerm_rising (t : CosTerm) (ts : List CosTerm) (lo : Rat)
    (h : CosTerm.risingFrom lo ts = true) (hlo : lo < t.phase) :
    CosTerm.risingFrom lo (insertTerm t ts) = true := by
  induction ts generalizing lo with
  | nil =>
    simp only [insertTerm]
    split
    · exact h
    · simp [CosTerm.risingFrom, hlo]
  | cons u us ih =>
    have h' := h
    simp only [CosTerm.risingFrom, Bool.and_eq_true, decide_eq_true_eq] at h
    obtain ⟨h1, h2⟩ := h
    simp only [insertTerm]
    split
    · exact h'
    · split
      · rename_i hlt
        simp [CosTerm.risingFrom, hlo, hlt, h2]
      · rename_i hnlt
        split
        · split
          · cases us with
            | nil => rfl
            | cons v vs =>
              simp only [CosTerm.risingFrom, Bool.and_eq_true, decide_eq_true_eq] at h2 ⊢
              exact ⟨h1.trans h2.1, h2.2⟩
          · simp [CosTerm.risingFrom, h1, h2]
        · rename_i hne
          simp only [CosTerm.risingFrom, Bool.and_eq_true, decide_eq_true_eq]
          exact ⟨h1, ih u.phase h2 (lt_of_le_of_ne (not_lt.1 hnlt) (Ne.symm hne))⟩

/-- Inserting a term of admissible phase keeps every term canonical. -/
theorem insertTerm_wf (t : CosTerm) (ts : List CosTerm) (ht : 0 ≤ t.phase ∧ t.phase < 1 / 4 ∧ t.phase ≠ 1 / 6)
    (h : ∀ u ∈ ts, u.wf = true) : ∀ u ∈ insertTerm t ts, u.wf = true := by
  have hwf : ∀ u : CosTerm, u.wf = true ↔ u.coef ≠ 0 ∧ 0 ≤ u.phase ∧ u.phase < 1 / 4 ∧ u.phase ≠ 1 / 6 := by
    intro u
    simp [CosTerm.wf, and_assoc]
  induction ts with
  | nil =>
    simp only [insertTerm]
    split
    · exact h
    · rename_i hc
      intro u hu
      rw [List.mem_singleton] at hu
      subst hu
      exact (hwf u).2 ⟨hc, ht⟩
  | cons v vs ih =>
    have hvs : ∀ u ∈ vs, u.wf = true := fun u hu => h u (List.mem_cons_of_mem _ hu)
    have hv := (hwf v).1 (h v List.mem_cons_self)
    simp only [insertTerm]
    split
    · exact h
    · rename_i hc
      split
      · intro u hu
        rcases List.mem_cons.1 hu with rfl | hu
        · exact (hwf u).2 ⟨hc, ht⟩
        · exact h u hu
      · split
        · split
          · exact hvs
          · rename_i hsum
            intro u hu
            rcases List.mem_cons.1 hu with rfl | hu
            · exact (hwf _).2 ⟨hsum, hv.2⟩
            · exact hvs u hu
        · intro u hu
          rcases List.mem_cons.1 hu with rfl | hu
          · exact h u List.mem_cons_self
          · exact ih hvs u hu

/-- Every sample the numerics makes is in canonical form. -/
theorem ofTerms_wf (ts : List CosTerm) : (ofTerms ts).wf = true := by
  have h : (∀ u ∈ (ofTerms ts).terms, u.wf = true) ∧ CosTerm.risingFrom (-1) (ofTerms ts).terms = true := by
    induction ts with
    | nil => exact ⟨fun u hu => absurd hu List.not_mem_nil, rfl⟩
    | cons t ts ih =>
      have ht := foldTerm_phase t
      simp only [ofTerms, List.foldr_cons] at ih ⊢
      exact ⟨insertTerm_wf _ _ ht ih.1, insertTerm_rising _ _ _ ih.2 (by linarith [ht.1])⟩
  simp only [Sample.wf, Bool.and_eq_true, List.all_eq_true]
  exact h

theorem exactOfRat_wf (q : Rat) : (exactOfRat q).wf = true := ofTerms_wf _

theorem exactCos1_wf (θ : Rat) : (exactCos1 θ).wf = true := ofTerms_wf _

theorem exactAdd_wf (a b : Sample) : (exactAdd a b).wf = true := ofTerms_wf _

theorem exactMul_wf (a b : Sample) : (exactMul a b).wf = true := ofTerms_wf _

/-- A sample in canonical form has its phases where the enclosures are accurate. -/
theorem phasesOk_of_wf {a : Sample} (h : a.wf = true) : PhasesOk a.terms := by
  simp only [Sample.wf, Bool.and_eq_true, List.all_eq_true] at h
  intro t ht
  have := h.1 t ht
  simp only [CosTerm.wf, Bool.and_eq_true, decide_eq_true_eq] at this
  exact ⟨this.1.1.2, this.1.2.le⟩

/-- The order of the exact numerics is the order of the real numbers. -/
theorem exactLt_iff (a b : Sample) : exactLt a b = true ↔ a.toReal < b.toReal := by
  have h := exactSign_spec (exactSub b a) (phasesOk_of_wf (ofTerms_wf _))
  rw [exactSub_toReal] at h
  simp only [exactLt, beq_iff_eq]
  rcases h with ⟨e, h⟩ | ⟨e, h⟩ | ⟨e, h⟩ <;> rw [e]
  · exact ⟨fun _ => by linarith, fun _ => rfl⟩
  · exact ⟨fun h' => absurd h' (by decide), fun h' => by linarith⟩
  · exact ⟨fun h' => absurd h' (by decide), fun h' => by linarith⟩

theorem exactLt_eq_realLt (a b : Sample) : exactNum.lt a b = realNum.lt a.toReal b.toReal := by
  rw [Bool.eq_iff_iff]
  simp only [exactNum, realNum, decide_eq_true_eq]
  exact exactLt_iff a b

end Sys2Proof.Machine
end

