-- ==== Sys2Proof/Laws/Argmax.lean ====
section
/-! SUPPORT. `argmaxFirst` finds the first greatest value, and does so alike for samples and for the real
numbers they are. -/

namespace Sys2Proof.Machine

/-- `argmaxFrom` compares only through `lt`, so a map that respects `lt` does not change it. -/
theorem argmaxFrom_map {α β : Type} (lt : α → α → Bool) (lt' : β → β → Bool) (f : α → β)
    (h : ∀ a b, lt a b = lt' (f a) (f b)) (cs : List α) (best : α) (m k : Nat) :
    argmaxFrom lt cs best m k = argmaxFrom lt' (cs.map f) (f best) m k := by
  induction cs generalizing best m k with
  | nil => rfl
  | cons c cs ih =>
    simp only [argmaxFrom, List.map_cons, h best c]
    split <;> exact ih ..

theorem argmaxFirst_map {α β : Type} (lt : α → α → Bool) (lt' : β → β → Bool) (f : α → β)
    (h : ∀ a b, lt a b = lt' (f a) (f b)) (cs : List α) :
    argmaxFirst lt cs = argmaxFirst lt' (cs.map f) := by
  cases cs with
  | nil => rfl
  | cons c cs => exact argmaxFrom_map lt lt' f h cs c 0 1

/-- What the search returns: the index of a value that no value exceeds and that exceeds every earlier
one, for any order that a real-valued measure gives. -/
theorem argmaxFrom_spec {α : Type} (lt : α → α → Bool) (v : α → ℝ) (h : ∀ a b, lt a b = true ↔ v a < v b)
    (cs : List α) (best : α) (m k : Nat) :
    (argmaxFrom lt cs best m k = m ∧ ∀ c ∈ cs, v c ≤ v best) ∨
    (∃ j, ∃ hj : j < cs.length, argmaxFrom lt cs best m k = k + j ∧ v best < v cs[j] ∧
      (∀ c ∈ cs, v c ≤ v cs[j]) ∧ ∀ i, (hi : i < j) → v cs[i] < v cs[j]) := by
  induction cs generalizing best m k with
  | nil => exact .inl ⟨rfl, fun c hc => absurd hc List.not_mem_nil⟩
  | cons c cs ih =>
    simp only [argmaxFrom]
    split
    · rename_i hlt
      have hlt' := (h best c).1 hlt
      refine .inr ?_
      rcases ih c k (k + 1) with ⟨e, hmax⟩ | ⟨j, hj, e, hb, hmax, hfirst⟩
      · refine ⟨0, by simp, by simpa using e, by simpa using hlt', ?_, fun i hi => absurd hi (Nat.not_lt_zero i)⟩
        intro d hd
        rcases List.mem_cons.1 hd with rfl | hd
        · exact le_refl _
        · exact hmax d hd
      · refine ⟨j + 1, by simpa using hj, by rw [e]; ring, ?_, ?_, ?_⟩
        · simpa using hlt'.trans hb
        · intro d hd
          rcases List.mem_cons.1 hd with rfl | hd
          · simpa using hb.le
          · simpa using hmax d hd
        · intro i hi
          cases i with
          | zero => simpa using hb
          | succ i => simpa using hfirst i (by omega)
    · rename_i hlt
      have hlt' : v c ≤ v best := not_lt.1 fun hc => hlt ((h best c).2 hc)
      rcases ih best m (k + 1) with ⟨e, hmax⟩ | ⟨j, hj, e, hb, hmax, hfirst⟩
      · refine .inl ⟨e, ?_⟩
        intro d hd
        rcases List.mem_cons.1 hd with rfl | hd
        · exact hlt'
        · exact hmax d hd
      · refine .inr ⟨j + 1, by simpa using hj, by rw [e]; ring, by simpa using hb, ?_, ?_⟩
        · intro d hd
          rcases List.mem_cons.1 hd with rfl | hd
          · simpa using hlt'.trans hb.le
          · simpa using hmax d hd
        · intro i hi
          cases i with
          | zero => simpa using lt_of_le_of_lt hlt' hb
          | succ i => simpa using hfirst i (by omega)

/-- `argmaxFirst` returns the least index of a greatest value (00_scope.md R14). -/
theorem argmaxFirst_spec {α : Type} (lt : α → α → Bool) (v : α → ℝ) (h : ∀ a b, lt a b = true ↔ v a < v b)
    (cs : List α) (hne : cs ≠ []) :
    ∃ hm : argmaxFirst lt cs < cs.length, (∀ c ∈ cs, v c ≤ v cs[argmaxFirst lt cs]) ∧
      ∀ i, (hi : i < argmaxFirst lt cs) → v cs[i] < v cs[argmaxFirst lt cs] := by
  cases cs with
  | nil => exact absurd rfl hne
  | cons c cs =>
    rcases argmaxFrom_spec lt v h cs c 0 1 with ⟨e, hmax⟩ | ⟨j, hj, e, hb, hmax, hfirst⟩
    · have e' : argmaxFirst lt (c :: cs) = 0 := e
      simp only [e']
      refine ⟨by simp, ?_, fun i hi => absurd hi (Nat.not_lt_zero i)⟩
      intro d hd
      rcases List.mem_cons.1 hd with rfl | hd
      · exact le_refl _
      · exact hmax d hd
    · have e' : argmaxFirst lt (c :: cs) = j + 1 := by
        show argmaxFrom lt cs c 0 1 = j + 1
        rw [e]; ring
      simp only [e']
      refine ⟨by simpa using hj, ?_, ?_⟩
      · intro d hd
        rcases List.mem_cons.1 hd with rfl | hd
        · simpa using hb.le
        · simpa using hmax d hd
      · intro i hi
        cases i with
        | zero => simpa using hb
        | succ i => simpa using hfirst i (by omega)

end Sys2Proof.Machine
end

