-- ==== Sys2Proof/Laws/Carrier.lean ====
section
/-! SUPPORT. The algorithms commute with a map of samples that respects NUM: they reach samples only through
the numerics record (00_scope.md R13). `exactNum_hom` is the map that matters, a sample to its real number. -/

namespace Sys2Proof.Machine

variable {S T : Type}

/-- `f` respects the numerics records `N` and `M`. -/
structure NumHom (N : Num S) (M : Num T) (f : S → T) : Prop where
  ofRat : ∀ q, f (N.ofRat q) = M.ofRat q
  add : ∀ a b, f (N.add a b) = M.add (f a) (f b)
  mul : ∀ a b, f (N.mul a b) = M.mul (f a) (f b)
  lt : ∀ a b, N.lt a b = M.lt (f a) (f b)
  cos1 : ∀ θ, f (N.cos1 θ) = M.cos1 θ

/-- The real number of a sample respects the exact and the real numerics. -/
theorem exactNum_hom : NumHom exactNum realNum Sample.toReal :=
  ⟨exactOfRat_toReal, exactAdd_toReal, exactMul_toReal, exactLt_eq_realLt, exactCos1_toReal⟩

theorem slice_map {α β : Type} (f : α → β) (s : List α) (i j : Nat) : (slice s i j).map f = slice (s.map f) i j := by
  simp [slice, List.map_take, List.map_drop]

theorem granules_map {α β : Type} (f : α → β) (n : Nat) (s : List α) :
    (granules n s).map (List.map f) = granules n (s.map f) := by
  simp [granules, slice_map]

variable {N : Num S} {M : Num T} {f : S → T}

theorem NumHom.sum (h : NumHom N M f) (xs : List S) : f (N.sum xs) = M.sum (xs.map f) := by
  have : ∀ a, f (xs.foldl N.add a) = (xs.map f).foldl M.add (f a) := by
    induction xs with
    | nil => exact fun _ => rfl
    | cons x xs ih =>
      intro a
      rw [List.foldl_cons, ih, List.map_cons, List.foldl_cons, h.add]
  rw [Num.sum, Num.sum, this, h.ofRat]

theorem NumHom.dot (h : NumHom N M f) (x y : List S) : f (N.dot x y) = M.dot (x.map f) (y.map f) := by
  rw [Num.dot, Num.dot, h.sum, List.zipWith_map, List.map_zipWith]
  simp only [h.mul]

theorem NumHom.tone (h : NumHom N M f) (c : Cfg) (i : Row) : (c.tone N i).map f = c.tone M i := by
  simp [Cfg.tone, h.cos1]

theorem NumHom.modulate (h : NumHom N M f) (c : Cfg) (bits : BitSeq) :
    (modulate N c bits).map f = Machine.modulate M c bits := by
  simp only [Machine.modulate, List.map_flatMap, h.tone]

theorem NumHom.startRef (h : NumHom N M f) (c : Cfg) : (c.startRef N).map f = c.startRef M := h.modulate c _

theorem NumHom.endRef (h : NumHom N M f) (c : Cfg) : (c.endRef N).map f = c.endRef M := h.modulate c _

theorem NumHom.frame (h : NumHom N M f) (c : Cfg) (b : BitSeq) : (frame N c b).map f = Machine.frame M c b := by
  simp only [Machine.frame, List.map_append, h.startRef, h.endRef, h.modulate]

theorem NumHom.xcorrValid (h : NumHom N M f) (x r : List S) :
    (xcorrValid N x r).map f = Machine.xcorrValid M (x.map f) (r.map f) := by
  simp [Machine.xcorrValid, h.dot, slice_map]

theorem NumHom.argmaxFirst (h : NumHom N M f) (cs : List S) : argmaxFirst N.lt cs = argmaxFirst M.lt (cs.map f) :=
  argmaxFirst_map _ _ f h.lt cs

theorem NumHom.locateFrame (h : NumHom N M f) (x r e : List S) :
    locateFrame N x r e = Machine.locateFrame M (x.map f) (r.map f) (e.map f) := by
  simp only [Machine.locateFrame, List.length_map, h.argmaxFirst, h.xcorrValid]

theorem NumHom.signedSquare (h : NumHom N M f) (a : S) : f (signedSquare N a) = Machine.signedSquare M (f a) := by
  simp only [Machine.signedSquare, h.lt, h.ofRat]
  split <;> simp only [h.mul, h.ofRat]

theorem NumHom.ndotLt (h : NumHom N M f) (u v : S × S) :
    ndotLt N u v = Machine.ndotLt M (f u.1, f u.2) (f v.1, f v.2) := by
  simp only [Machine.ndotLt, h.lt, h.mul, h.signedSquare]

theorem NumHom.decideRow (h : NumHom N M f) (score : Score) (c : Cfg) (x : List S) :
    decideRow N score c x = Machine.decideRow M score c (x.map f) := by
  cases score with
  | dot =>
    simp only [Machine.decideRow, h.argmaxFirst, List.map_map]
    simp only [Function.comp_def, h.dot, h.tone]
  | ndot =>
    simp only [Machine.decideRow]
    rw [argmaxFirst_map _ (Machine.ndotLt M) (fun u => (f u.1, f u.2)) h.ndotLt, List.map_map]
    simp only [Function.comp_def, h.dot, h.tone]

theorem NumHom.demodulate (h : NumHom N M f) (score : Score) (c : Cfg) (x : List S) :
    demodulate N score c x = Machine.demodulate M score c (x.map f) := by
  simp only [Machine.demodulate, ← granules_map, List.flatMap_map, h.decideRow]

theorem NumHom.receive (h : NumHom N M f) (score : Score) (g : Syndrome → Nat × Nat) (c : Cfg) (x : List S) :
    receive N score g c x = Machine.receive M score g c (x.map f) := by
  simp only [Machine.receive, h.locateFrame x, h.startRef, h.endRef]
  split
  · rfl
  · simp only [h.demodulate, slice_map]

theorem NumHom.peak (h : NumHom N M f) (x r : List S) : f (peak N x r) = Machine.peak M (x.map f) (r.map f) := by
  have e : (rollingCorr N x r).map f = rollingCorr M (x.map f) (r.map f) := by
    simp only [rollingCorr, List.length_map]
    split <;> exact h.xcorrValid _ _
  rw [Machine.peak, Machine.peak, ← e, ← h.argmaxFirst, ← h.ofRat, List.getD_eq_getElem?_getD,
    List.getD_eq_getElem?_getD, List.getElem?_map]
  cases (rollingCorr N x r)[Machine.argmaxFirst N.lt (rollingCorr N x r)]? <;> rfl

theorem NumHom.hit (h : NumHom N M f) (th : Rat) (x r : List S) :
    hit N th x r = Machine.hit M th (x.map f) (r.map f) := by
  rw [Machine.hit, Machine.hit, h.lt, h.ofRat, h.peak]

/-! The updates of a state commute with mapping its samples. -/

variable {w : Nat}

@[simp] theorem State.map_respond (s : State S w) (r : Result S w) (ev : List (Event S)) :
    (s.respond r ev).map f = (s.map f).respond (r.map f) (ev.map (Event.map f)) := by
  simp [State.map, State.respond, Response.map]

@[simp] theorem State.map_raise (s : State S w) (e : Error) : (s.raise e).map f = (s.map f).raise e := by
  simp [State.map, State.raise, Response.map]

@[simp] theorem State.map_countGuessed (s : State S w) (n : Nat) :
    (s.countGuessed n).map f = (s.map f).countGuessed n := rfl

end Sys2Proof.Machine
end

