-- ==== Sys2Proof/Laws/Dot.lean ====
section
/-! SUPPORT. Sums and products of waveforms are those of the real waveforms. -/

namespace Sys2Proof.Machine

theorem foldl_exactAdd_toReal (xs : List Sample) (a : Sample) :
    (xs.foldl exactNum.add a).toReal = (waveReal xs).foldl realNum.add a.toReal := by
  induction xs generalizing a with
  | nil => rfl
  | cons x xs ih =>
    simp only [List.foldl_cons, waveReal, List.map_cons] at ih ⊢
    rw [ih]
    congr 1
    exact exactAdd_toReal a x

theorem exactSum_toReal (xs : List Sample) : (exactNum.sum xs).toReal = realNum.sum (waveReal xs) := by
  rw [Num.sum, foldl_exactAdd_toReal, Num.sum]
  congr 1
  exact exactOfRat_toReal 0

theorem waveReal_zipMul (x y : List Sample) :
    waveReal (List.zipWith exactNum.mul x y) = List.zipWith realNum.mul (waveReal x) (waveReal y) := by
  induction x generalizing y with
  | nil => rfl
  | cons a x ih =>
    cases y with
    | nil => rfl
    | cons b y =>
      simp only [waveReal, List.zipWith_cons_cons, List.map_cons] at ih ⊢
      rw [ih]
      congr 1
      exact exactMul_toReal a b

/-- The dot product of two waveforms, over the real numbers. -/
theorem exactDot_toReal (x y : List Sample) :
    (exactNum.dot x y).toReal = realNum.dot (waveReal x) (waveReal y) := by
  rw [Num.dot, exactSum_toReal, waveReal_zipMul, Num.dot]

theorem realSum_eq (xs : List ℝ) : realNum.sum xs = xs.sum := by
  have h : ∀ a : ℝ, xs.foldl realNum.add a = a + xs.sum := by
    induction xs with
    | nil => intro a; simp
    | cons x xs ih =>
      intro a
      rw [List.foldl_cons, ih, List.sum_cons]
      show a + x + xs.sum = a + (x + xs.sum)
      ring
  rw [Num.sum, h]
  show ((0 : Rat) : ℝ) + xs.sum = xs.sum
  simp

/-- The real dot product as a sum over the indices. -/
theorem realDot_eq_sum (x y : List ℝ) (hxy : x.length = y.length) :
    realNum.dot x y = ∑ j ∈ Finset.range y.length, x.getD j 0 * y.getD j 0 := by
  rw [Num.dot, realSum_eq]
  induction y generalizing x with
  | nil => simp
  | cons b y ih =>
    cases x with
    | nil => simp at hxy
    | cons a x =>
      rw [List.zipWith_cons_cons, List.sum_cons, ih x (by simpa using hxy), List.length_cons,
        Finset.sum_range_succ', add_comm]
      simp [realNum]

end Sys2Proof.Machine
end

