-- ==== Sys2Proof/Laws/Sequences.lean ====
section
/-! SUPPORT. The laws of granules, padding and bytes: lengths and indices. -/

namespace Sys2Proof.Machine

variable {α : Type}

@[simp] theorem slice_length (s : List α) (i j : Nat) (h : j ≤ s.length) : (slice s i j).length = j - i := by
  simp only [slice, List.length_take, List.length_drop]
  omega

/-- Element `n` of a slice is element `i + n` of the sequence. -/
theorem slice_getElem? (s : List α) (i j n : Nat) (h : n < j - i) : (slice s i j)[n]? = s[i + n]? := by
  simp [slice, h]

@[simp] theorem granules_length (n : Nat) (s : List α) : (granules n s).length = s.length / n := by
  simp [granules]

/-- Granule `k` is the slice from `k·n`. -/
theorem granules_getElem? (n k : Nat) (s : List α) (h : k < s.length / n) :
    (granules n s)[k]? = some (slice s (k * n) ((k + 1) * n)) := by
  simp [granules, h]

@[simp] theorem granules_nil (n : Nat) : granules n ([] : List α) = [] := by simp [granules]

/-- A sequence shorter than the granule has none. -/
theorem granules_short (n : Nat) (s : List α) (h : s.length < n) : granules n s = [] := by
  simp [granules, Nat.div_eq_of_lt h]

/-- The first granule of a sequence that begins with a whole one is that one. -/
theorem granules_append (n : Nat) (w s : List α) (hn : 0 < n) (hw : w.length = n) :
    granules n (w ++ s) = w :: granules n s := by
  have hlen : (w ++ s).length / n = s.length / n + 1 := by
    rw [List.length_append, hw, Nat.add_comm, Nat.add_div_right _ hn]
  rw [granules, hlen, List.range_succ_eq_map]
  simp only [List.map_cons, List.map_map, granules]
  congr 1
  · simp [slice, ← hw]
  · refine List.map_congr_left fun k _ => ?_
    simp only [Function.comp_apply, slice, Nat.succ_eq_add_one]
    have e : (k + 1) * n = w.length + k * n := by rw [hw, Nat.add_mul, Nat.one_mul, Nat.add_comm]
    have e2 : (k + 1 + 1) * n = (k + 1) * n + n := by rw [Nat.add_mul (k + 1), Nat.one_mul]
    rw [e2, Nat.add_sub_cancel_left, e, List.drop_append]
    have e3 : w.length + k * n - w.length = k * n := by omega
    rw [List.drop_eq_nil_of_le (by omega : w.length ≤ w.length + k * n), e3, List.nil_append, hw, Nat.add_sub_cancel]

/-- The granules of whole granules followed by a sequence are theirs followed by its own. -/
theorem granules_append_of_dvd (n : Nat) (hn : 0 < n) (a b : List α) (h : a.length % n = 0) :
    granules n (a ++ b) = granules n a ++ granules n b := by
  obtain ⟨m, hm⟩ := Nat.dvd_of_mod_eq_zero h
  clear h
  induction m generalizing a with
  | zero =>
    have e : a = [] := List.length_eq_zero_iff.1 (by simpa using hm)
    simp [e]
  | succ m ih =>
    have hl : (a.take n).length = n := by
      rw [List.length_take, hm, Nat.mul_succ]
      omega
    have hd : (a.drop n).length = n * m := by
      rw [List.length_drop, hm, Nat.mul_succ]
      omega
    rw [← List.take_append_drop n a, List.append_assoc, granules_append n _ _ hn hl, granules_append n _ _ hn hl,
      ih _ hd, List.cons_append]

/-- Padding reaches a multiple of the granule. -/
theorem padBits_length_mod (n : Nat) (hn : 0 < n) (bits : BitSeq) : (padBits n bits).length % n = 0 := by
  simp only [padBits, List.length_append, List.length_replicate]
  have h := Nat.mod_lt bits.length hn
  rcases Nat.eq_zero_or_pos (bits.length % n) with h0 | h0
  · simp [h0]
  · rw [Nat.mod_eq_of_lt (by omega : n - bits.length % n < n)]
    have e : bits.length + (n - bits.length % n) = (bits.length / n + 1) * n := by
      have := Nat.div_add_mod bits.length n
      rw [Nat.add_mul, Nat.one_mul, Nat.mul_comm]
      omega
    rw [e, Nat.mul_mod_left]

/-- The number of granules of a padded sequence is `ceil(len / n)`. -/
theorem padBits_granules (n : Nat) (hn : 0 < n) (bits : BitSeq) :
    (padBits n bits).length / n = (bits.length + (n - 1)) / n := by
  have h0 := padBits_length_mod n hn bits
  have hlen : (padBits n bits).length = bits.length + (n - bits.length % n) % n := by simp [padBits]
  have h1 := Nat.mod_lt (n - bits.length % n) hn
  obtain ⟨q, hq⟩ := Nat.dvd_of_mod_eq_zero h0
  rw [hq, Nat.mul_div_cancel_left _ hn]
  rw [hlen] at hq
  symm
  rw [Nat.div_eq_iff hn]
  have : n * q = q * n := Nat.mul_comm _ _
  omega

/-- Padding appends zeros: reading past the end of the input gives 0. -/
theorem bitAt_padBits (n i : Nat) (bits : BitSeq) : bitAt (padBits n bits) i = bitAt bits i := by
  simp only [bitAt, padBits, List.getD_eq_getElem?_getD, List.getElem?_append]
  split
  · rfl
  · rename_i h
    rw [List.getElem?_eq_none (by omega : bits.length ≤ i), List.getElem?_replicate]
    split <;> rfl

/-- A sequence of whole granules is not padded. -/
theorem padBits_of_dvd (n : Nat) (bits : BitSeq) (h : bits.length % n = 0) : padBits n bits = bits := by
  simp [padBits, h]

theorem bytesToBits_cons (b : Byte) (bs : ByteSeq) : bytesToBits (b :: bs) = byteBits b ++ bytesToBits bs := rfl

@[simp] theorem byteBits_length (b : Byte) : (byteBits b).length = 8 := by simp [byteBits]

@[simp] theorem bytesToBits_length (bs : ByteSeq) : (bytesToBits bs).length = 8 * bs.length := by
  induction bs with
  | nil => rfl
  | cons b bs ih => rw [bytesToBits_cons, List.length_append, ih, byteBits_length, List.length_cons]; ring

/-- The length of a concatenation of sequences of one length. -/
theorem flatMap_length_const {β : Type} (xs : List α) (f : α → List β) (m : Nat) (h : ∀ x ∈ xs, (f x).length = m) :
    (xs.flatMap f).length = m * xs.length := by
  induction xs with
  | nil => simp
  | cons x xs ih =>
    rw [List.flatMap_cons, List.length_append, ih fun y hy => h y (List.mem_cons_of_mem _ hy),
      h x List.mem_cons_self, List.length_cons]
    ring

/-- Element `k·m + j` of a concatenation of sequences of one length `m` is element `j` of the `k`-th. -/
theorem flatMap_getElem?_const {β : Type} (xs : List α) (f : α → List β) (m k j : Nat)
    (h : ∀ x ∈ xs, (f x).length = m) (hj : j < m) (hk : k < xs.length) :
    (xs.flatMap f)[k * m + j]? = (f xs[k])[j]? := by
  induction xs generalizing k with
  | nil => simp at hk
  | cons x xs ih =>
    have hx := h x List.mem_cons_self
    rw [List.flatMap_cons]
    cases k with
    | zero =>
      rw [List.getElem?_append_left (by simp [hx, hj])]
      simp
    | succ k =>
      rw [List.getElem?_append_right (by rw [hx]; nlinarith)]
      have e : (k + 1) * m + j - (f x).length = k * m + j := by
        rw [hx, Nat.add_mul, Nat.one_mul]
        omega
      rw [e, ih k (fun y hy => h y (List.mem_cons_of_mem _ hy)) (by simpa using hk)]
      simp

end Sys2Proof.Machine
end

