-- ==== Sys2Proof/Laws/Correlation.lean ====
section
/-! SUPPORT. What the shared operations of the demodulator compute, over the real numbers: bursts,
correlations, scores, and the index of the first greatest of them. -/

namespace Sys2Proof.Machine

@[simp] theorem waveReal_length (x : SampleSeq) : (waveReal x).length = x.length := by simp [waveReal]

theorem sampleAt_getElem? {x : SampleSeq} {n : Nat} {a : Sample} (h : x[n]? = some a) : sampleAt x n = a.toReal := by
  simp [sampleAt, waveReal, List.getD_eq_getElem?_getD, h]

theorem sampleAt_beyond {x : SampleSeq} {n : Nat} (h : x.length ≤ n) : sampleAt x n = 0 := by
  simp [sampleAt, waveReal, List.getD_eq_getElem?_getD, List.getElem?_eq_none h]

theorem sampleAt_slice (x : SampleSeq) (i j n : Nat) (h : n < j - i) : sampleAt (slice x i j) n = sampleAt x (i + n) := by
  have e := slice_getElem? x i j n h
  simp only [sampleAt, waveReal, List.getD_eq_getElem?_getD, List.getElem?_map, e]

/-- The dot product of two waveforms of one length. -/
theorem dot_toReal (x y : SampleSeq) (h : x.length = y.length) :
    (exactNum.dot x y).toReal = ∑ j ∈ Finset.range y.length, sampleAt x j * sampleAt y j := by
  rw [exactDot_toReal, realDot_eq_sum _ _ (by simp [h]), waveReal_length]
  rfl

@[simp] theorem xcorrValid_length {S : Type} (N : Num S) (x ref : List S) :
    (xcorrValid N x ref).length = x.length - ref.length + 1 := by simp [xcorrValid]

/-- Value `k` of the correlation (43_demodulator.md R151). -/
theorem xcorrValid_toReal (x ref : SampleSeq) (h : ref.length ≤ x.length) (k : Nat)
    (hk : k < (xcorrValid exactNum x ref).length) : ((xcorrValid exactNum x ref)[k]).toReal = corrAt x ref k := by
  have hk' : k ≤ x.length - ref.length := by rw [xcorrValid_length] at hk; omega
  simp only [xcorrValid, List.getElem_map, List.getElem_range]
  rw [dot_toReal _ _ (by rw [slice_length _ _ _ (by omega)]; omega)]
  refine Finset.sum_congr rfl fun j hj => ?_
  rw [sampleAt_slice _ _ _ _ (by have := Finset.mem_range.1 hj; omega)]

/-- `argmaxFirst` over samples whose values are `v 0`, `v 1`, … is the first greatest of them. -/
theorem argmaxFirst_firstMax (cs : List Sample) (v : Nat → ℝ) (n : Nat) (hn : cs.length = n) (hpos : 0 < n)
    (hv : ∀ k, (hk : k < cs.length) → (cs[k]).toReal = v k) : FirstMax v n (argmaxFirst exactNum.lt cs) := by
  subst hn
  obtain ⟨hm, h1, h2⟩ := argmaxFirst_spec exactNum.lt Sample.toReal exactLt_iff cs (List.length_pos_iff.1 hpos)
  refine ⟨hm, fun k hk => ?_, fun k hk => ?_⟩
  · rw [← hv k hk, ← hv _ hm]
    exact h1 _ (List.getElem_mem hk)
  · rw [← hv k (by omega), ← hv _ hm]
    exact h2 k hk

/-- There is one first greatest index. -/
theorem FirstMax.unique {v : Nat → ℝ} {n a b : Nat} (ha : FirstMax v n a) (hb : FirstMax v n b) : a = b := by
  rcases Nat.lt_trichotomy a b with h | h | h
  · exact absurd (hb.2.2 a h) (not_lt.2 (ha.2.1 b hb.1))
  · exact h
  · exact absurd (ha.2.2 b h) (not_lt.2 (hb.2.1 a ha.1))

/-- The first greatest index depends on the order of the values alone. -/
theorem FirstMax.of_order {u v : Nat → ℝ} {n m : Nat} (h : FirstMax u n m)
    (huv : ∀ i j, i < n → j < n → (u i < u j ↔ v i < v j)) : FirstMax v n m := by
  refine ⟨h.1, fun k hk => ?_, fun k hk => (huv k m (hk.trans h.1) h.1).1 (h.2.2 k hk)⟩
  exact not_lt.1 fun hc => absurd ((huv m k h.1 hk).2 hc) (not_lt.2 (h.2.1 k hk))

/-- The lag that the frame locator takes (43_demodulator.md R153, R154). -/
theorem xcorr_firstMax (x ref : SampleSeq) (h : ref.length ≤ x.length) :
    FirstMax (corrAt x ref) (x.length - ref.length + 1) (argmaxFirst exactNum.lt (xcorrValid exactNum x ref)) :=
  argmaxFirst_firstMax _ _ _ (xcorrValid_length _ _ _) (Nat.succ_pos _) (xcorrValid_toReal x ref h)

@[simp] theorem tone_length {S : Type} (N : Num S) (c : Cfg) (i : Row) : (c.tone N i).length = c.sps := by
  simp [Cfg.tone]

/-- Sample `n` of a burst (10_state.md R46). -/
theorem sampleAt_tone (c : Cfg) (i : Row) (n : Nat) (h : n < c.sps) : sampleAt (c.tone exactNum i) n = c.toneReal i n := by
  have e : (c.tone exactNum i)[n]? = some (exactCos1 (mod1 (c.freq i * (n : Rat) / (c.fs : Rat)))) := by
    rw [Cfg.tone, List.getElem?_map, List.getElem?_range h]
    rfl
  rw [sampleAt_getElem? e, exactCos1_toReal, mod1, Cfg.toneReal, cos_turn_fract]
  push_cast
  congr 1
  ring

/-- The score of a window of one symbol (43_demodulator.md R160). -/
theorem score_toReal (c : Cfg) (w : SampleSeq) (i : Row) (h : w.length = c.sps) :
    (exactNum.dot w (c.tone exactNum i)).toReal = c.scoreAt w 0 i := by
  rw [dot_toReal _ _ (by simp [h]), tone_length, Cfg.scoreAt]
  refine Finset.sum_congr rfl fun n hn => ?_
  rw [Nat.zero_add, sampleAt_tone _ _ _ (Finset.mem_range.1 hn)]

/-- The Gram matrix of the bursts (43_demodulator.md R165). -/
theorem gram_toReal (c : Cfg) (i j : Row) :
    (exactNum.dot (c.tone exactNum i) (c.tone exactNum j)).toReal = c.gram i j := by
  rw [score_toReal _ _ _ (tone_length _ _ _), Cfg.scoreAt, Cfg.gram]
  refine Finset.sum_congr rfl fun n hn => ?_
  rw [Nat.zero_add, sampleAt_tone _ _ _ (Finset.mem_range.1 hn)]

theorem gram_self_ge_one (c : Cfg) (h : 1 ≤ c.sps) (i : Row) : 1 ≤ c.gram i i := by
  have h0 : c.toneReal i 0 * c.toneReal i 0 = 1 := by simp [Cfg.toneReal]
  rw [Cfg.gram, ← h0]
  exact Finset.single_le_sum (f := fun n => c.toneReal i n * c.toneReal i n) (fun n _ => mul_self_nonneg _)
    (Finset.mem_range.2 (by omega))

/-- `signedSquare` is `v · |v|`. -/
theorem signedSquare_toReal (a : Sample) : (signedSquare exactNum a).toReal = a.toReal * |a.toReal| := by
  show (if exactLt a (exactOfRat 0) = true then exactMul (exactOfRat (-1)) (exactMul a a) else exactMul a a).toReal = _
  have h0 : exactLt a (exactOfRat 0) = true ↔ a.toReal < 0 := by rw [exactLt_iff, exactOfRat_toReal, Rat.cast_zero]
  by_cases h : a.toReal < 0
  · rw [if_pos (h0.2 h), exactMul_toReal, exactMul_toReal, exactOfRat_toReal, abs_of_neg h]
    push_cast
    ring
  · rw [if_neg fun hc => h (h0.1 hc), exactMul_toReal, abs_of_nonneg (not_lt.1 h)]

theorem mul_abs_strictMono : StrictMono fun t : ℝ => t * |t| := by
  intro s t hst
  simp only
  rcases le_or_gt 0 s with h | h
  · rw [abs_of_nonneg h, abs_of_nonneg (h.trans hst.le)]
    nlinarith
  · rcases le_or_gt 0 t with h' | h'
    · rw [abs_of_neg h, abs_of_nonneg h']
      nlinarith
    · rw [abs_of_neg h, abs_of_neg h']
      nlinarith

/-- The comparison without a square root is the comparison of the normalised scores
(43_demodulator.md R161). -/
theorem ndotLt_iff (u v : Sample × Sample) (hu : 0 < u.2.toReal) (hv : 0 < v.2.toReal) :
    ndotLt exactNum u v = true ↔ u.1.toReal / Real.sqrt u.2.toReal < v.1.toReal / Real.sqrt v.2.toReal := by
  show exactLt (exactMul _ _) (exactMul _ _) = true ↔ _
  rw [exactLt_iff, exactMul_toReal, exactMul_toReal, signedSquare_toReal, signedSquare_toReal,
    div_lt_div_iff₀ (Real.sqrt_pos.2 hu) (Real.sqrt_pos.2 hv)]
  have e : ∀ a g : ℝ, 0 < g → a * |a| * g = a * Real.sqrt g * |a * Real.sqrt g| := by
    intro a g hg
    rw [abs_mul, abs_of_pos (Real.sqrt_pos.2 hg)]
    linear_combination (-(a * |a|)) * Real.mul_self_sqrt hg.le
  rw [e _ _ hv, e _ _ hu]
  exact mul_abs_strictMono.lt_iff_lt

/-- The row that `DOT` decides for a window of one symbol (43_demodulator.md R162). -/
theorem decideRow_dot (c : Cfg) (w : SampleSeq) (h : w.length = c.sps) :
    ∃ m, FirstMax (fun i => c.scoreAt w 0 (Row.ofIndex i)) 4 m ∧ decideRow exactNum .dot c w = Row.ofIndex m := by
  refine ⟨_, argmaxFirst_firstMax _ _ 4 rfl (by decide) ?_, rfl⟩
  intro k hk
  rw [List.getElem_map, score_toReal c w _ h]
  have hk' : k < 4 := hk
  interval_cases k <;> rfl

end Sys2Proof.Machine
end

