-- ==== Sys2Proof/Laws/State.lean ====
section
/-! SUPPORT. One lemma per field and per update of the state, so that no proof unfolds a record update. -/

namespace Sys2Proof.Machine

variable {S : Type} {w : Nat} (s : State S w)

/-! `respond` adds a response. -/

@[simp] theorem State.respond_cfgValid (r : Result S w) (ev : List (Event S)) :
    (s.respond r ev).cfgValid = s.cfgValid := rfl

@[simp] theorem State.respond_cfg (r : Result S w) (ev : List (Event S)) :
    (s.respond r ev).cfg = s.cfg := rfl

@[simp] theorem State.respond_detRun (r : Result S w) (ev : List (Event S)) :
    (s.respond r ev).detRun = s.detRun := rfl

@[simp] theorem State.respond_detState (r : Result S w) (ev : List (Event S)) :
    (s.respond r ev).detState = s.detState := rfl

@[simp] theorem State.respond_detBuf (r : Result S w) (ev : List (Event S)) :
    (s.respond r ev).detBuf = s.detBuf := rfl

@[simp] theorem State.respond_txActive (r : Result S w) (ev : List (Event S)) :
    (s.respond r ev).txActive = s.txActive := rfl

@[simp] theorem State.respond_uncorrCnt (r : Result S w) (ev : List (Event S)) :
    (s.respond r ev).uncorrCnt = s.uncorrCnt := rfl

@[simp] theorem State.respond_inputs (r : Result S w) (ev : List (Event S)) :
    (s.respond r ev).inputs = s.inputs := rfl

@[simp] theorem State.respond_responses (r : Result S w) (ev : List (Event S)) :
    (s.respond r ev).responses = s.responses ++ [.ok r ev] := rfl

/-! `raise` adds an error response. -/

@[simp] theorem State.raise_cfgValid (e : Error) :
    (s.raise e).cfgValid = s.cfgValid := rfl

@[simp] theorem State.raise_cfg (e : Error) :
    (s.raise e).cfg = s.cfg := rfl

@[simp] theorem State.raise_detRun (e : Error) :
    (s.raise e).detRun = s.detRun := rfl

@[simp] theorem State.raise_detState (e : Error) :
    (s.raise e).detState = s.detState := rfl

@[simp] theorem State.raise_detBuf (e : Error) :
    (s.raise e).detBuf = s.detBuf := rfl

@[simp] theorem State.raise_txActive (e : Error) :
    (s.raise e).txActive = s.txActive := rfl

@[simp] theorem State.raise_uncorrCnt (e : Error) :
    (s.raise e).uncorrCnt = s.uncorrCnt := rfl

@[simp] theorem State.raise_inputs (e : Error) :
    (s.raise e).inputs = s.inputs := rfl

@[simp] theorem State.raise_responses (e : Error) :
    (s.raise e).responses = s.responses ++ [.error e] := rfl

/-! `countGuessed` changes the counter. -/

@[simp] theorem State.countGuessed_cfgValid (n : Nat) :
    (s.countGuessed n).cfgValid = s.cfgValid := rfl

@[simp] theorem State.countGuessed_cfg (n : Nat) :
    (s.countGuessed n).cfg = s.cfg := rfl

@[simp] theorem State.countGuessed_detRun (n : Nat) :
    (s.countGuessed n).detRun = s.detRun := rfl

@[simp] theorem State.countGuessed_detState (n : Nat) :
    (s.countGuessed n).detState = s.detState := rfl

@[simp] theorem State.countGuessed_detBuf (n : Nat) :
    (s.countGuessed n).detBuf = s.detBuf := rfl

@[simp] theorem State.countGuessed_txActive (n : Nat) :
    (s.countGuessed n).txActive = s.txActive := rfl

@[simp] theorem State.countGuessed_uncorrCnt (n : Nat) :
    (s.countGuessed n).uncorrCnt = satAdd s.uncorrCnt n := rfl

@[simp] theorem State.countGuessed_inputs (n : Nat) :
    (s.countGuessed n).inputs = s.inputs := rfl

@[simp] theorem State.countGuessed_responses (n : Nat) :
    (s.countGuessed n).responses = s.responses := rfl

/-! `afterReset` keeps the host's inputs and the responses. -/

@[simp] theorem State.afterReset_cfgValid :
    (s.afterReset).cfgValid = false := rfl

@[simp] theorem State.afterReset_cfg :
    (s.afterReset).cfg = Cfg.reset := rfl

@[simp] theorem State.afterReset_detRun :
    (s.afterReset).detRun = false := rfl

@[simp] theorem State.afterReset_detState :
    (s.afterReset).detState = .idle := rfl

@[simp] theorem State.afterReset_detBuf :
    (s.afterReset).detBuf = [] := rfl

@[simp] theorem State.afterReset_txActive :
    (s.afterReset).txActive = false := rfl

@[simp] theorem State.afterReset_uncorrCnt :
    (s.afterReset).uncorrCnt = 0#w := rfl

@[simp] theorem State.afterReset_inputs :
    (s.afterReset).inputs = s.inputs := rfl

@[simp] theorem State.afterReset_responses :
    (s.afterReset).responses = s.responses := rfl

end Sys2Proof.Machine
end

