-- ==== Sys2Proof/Laws/Ops.lean ====
section
/-! SUPPORT. One lemma per shared operation: the preamble, the saturating increment, the step. -/

namespace Sys2Proof.Machine

variable {S : Type} {w : Nat}

@[simp] theorem configured_of_valid {s : State S w} (h : s.cfgValid = true) (o : Out S w) : configured s o = o := by
  simp [configured, h]

theorem configured_of_invalid {s : State S w} (h : s.cfgValid = false) (o : Out S w) :
    configured s o = .next (s.raise .notConfigured) := by
  simp [configured, h]

/-- Everything the preamble can do: the command's own outcome, or `NotConfigured`. -/
theorem configured_cases {s s' : State S w} {o : Out S w} (h : configured s o = .next s') :
    (s.cfgValid = true ∧ o = .next s') ∨ (s.cfgValid = false ∧ s' = s.raise .notConfigured) := by
  cases hv : s.cfgValid with
  | true => exact .inl ⟨rfl, by rwa [configured_of_valid hv] at h⟩
  | false =>
    rw [configured_of_invalid hv] at h
    injection h with h
    exact .inr ⟨rfl, h.symm⟩

/-- The saturating increment never wraps. -/
theorem satAdd_toNat (c : BitVec w) (n : Nat) :
    (satAdd c n).toNat = min (c.toNat + n) (2 ^ w - 1) := by
  rw [satAdd, BitVec.toNat_ofNat, Nat.mod_eq_of_lt]
  exact lt_of_le_of_lt (min_le_right _ _) (Nat.sub_lt (Nat.two_pow_pos w) one_pos)

/-- Adding nothing leaves the counter. -/
@[simp] theorem satAdd_zero (c : BitVec w) : satAdd c 0 = c := by
  apply BitVec.eq_of_toNat_eq
  rw [satAdd_toNat]
  exact min_eq_left (Nat.le_sub_one_of_lt c.isLt)

@[simp] theorem State.countGuessed_zero (s : State S w) : s.countGuessed 0 = s := by
  rw [State.countGuessed, satAdd_zero]

/-! The step, for any meaning `run` of the commands. -/

variable {run : Instr S → State S w → Out S w}

theorem takeOldest_idle {s : State S w} (h : s.inputs = []) : takeOldest run s = .next s := by
  simp [takeOldest, h]

theorem takeOldest_input {s : State S w} {i : Input S} {rest : List (Input S)} (h : s.inputs = i :: rest) :
    takeOldest run s = takeInput run i { s with inputs := rest } := by
  simp [takeOldest, h]

/-- Everything a step can do: nothing, the reset event, a command's meaning, or `IllegalCommand`. -/
theorem takeOldest_cases {s s' : State S w} (h : takeOldest run s = .next s') :
    (s.inputs = [] ∧ s' = s) ∨
    (∃ rest, s.inputs = .reset :: rest ∧ s' = State.afterReset { s with inputs := rest }) ∨
    (∃ c rest i, s.inputs = .command c :: rest ∧ decode c = .ok i ∧ run i { s with inputs := rest } = .next s') ∨
    (∃ c rest e, s.inputs = .command c :: rest ∧ decode c = .error e ∧
      s' = State.raise { s with inputs := rest } .illegalCommand) := by
  cases hin : s.inputs with
  | nil =>
    rw [takeOldest_idle hin] at h
    injection h with h
    exact .inl ⟨rfl, h.symm⟩
  | cons i rest =>
    rw [takeOldest_input hin] at h
    cases i with
    | reset =>
      simp only [takeInput] at h
      injection h with h
      exact .inr (.inl ⟨rest, rfl, h.symm⟩)
    | command c =>
      simp only [takeInput] at h
      cases hd : decode c with
      | ok i =>
        rw [hd] at h
        exact .inr (.inr (.inl ⟨c, rest, i, rfl, hd, h⟩))
      | error e =>
        rw [hd] at h
        injection h with h
        exact .inr (.inr (.inr ⟨c, rest, e, rfl, hd, h.symm⟩))

/-- `exec` is the commands of the decided build. -/
theorem exec_eq_execWith (i : Instr) (s : State) : exec i s = execWith Build.decided i s := by
  cases i <;> rfl

/-- `step` is the step of the decided build. -/
theorem step_eq_stepWith (s : State) : step s = stepWith Build.decided s := by
  rw [step, stepWith, funext fun i => funext fun t => exec_eq_execWith i t]

theorem step_idle {s : State} (h : s.inputs = []) : step s = .next s := takeOldest_idle h

theorem step_input {s : State} {i : Input} {rest : List Input} (h : s.inputs = i :: rest) :
    step s = takeInput exec i { s with inputs := rest } := takeOldest_input h

/-- Everything a step can do: nothing, the reset event, a command's meaning, or `IllegalCommand`. -/
theorem step_cases {s s' : State} (h : step s = .next s') :
    (s.inputs = [] ∧ s' = s) ∨
    (∃ rest, s.inputs = .reset :: rest ∧ s' = State.afterReset { s with inputs := rest }) ∨
    (∃ c rest i, s.inputs = .command c :: rest ∧ decode c = .ok i ∧ exec i { s with inputs := rest } = .next s') ∨
    (∃ c rest e, s.inputs = .command c :: rest ∧ decode c = .error e ∧
      s' = State.raise { s with inputs := rest } .illegalCommand) := takeOldest_cases h

end Sys2Proof.Machine
end

