-- ==== Sys2Proof/Laws/Effects.lean ====
section
/-! SUPPORT. Everything a command can do, said once and for every build: `Effect P s i s'` lists the next
states that `execWith P i s` can answer, each with the guards of its path; `execWith_effect`, `exec_effect`
and `effect_of_exec` tie it to `execWith` and `exec`. -/

namespace Sys2Proof.Machine

variable {S : Type} {w : Nat}

/-- The next states of a command: a response that changes nothing else, or one of the writes of its rule. -/
inductive Effect (P : Build S) (s : State S w) : Instr S → State S w → Prop
  | raised (i : Instr S) (e : Error) : Effect P s i (s.raise e)
  | loaded (c : CfgRecord) (cf : Cfg) (hv : s.cfgValid = false) (hl : loadCfg c = .ok cf) :
      Effect P s (.cfgload c) (State.respond { s with cfgValid := true, cfg := cf } .empty [])
  | status : Effect P s .rdstat (s.respond (.stat s.statusWord s.uncorrCnt s.detNchunks) [])
  | encoded (b : BitSeq) (hv : s.cfgValid = true) : Effect P s (.eccenc b) (s.respond (.bits (eccEncode b)) [])
  | decoded (b o : BitSeq) (n : Nat) (hv : s.cfgValid = true) (hd : eccDecode P.guess2 b = (o, n)) :
      Effect P s (.eccdec b) ((s.countGuessed n).respond (.bitsGuessed o n) [])
  | modulated (b : BitSeq) (hv : s.cfgValid = true) :
      Effect P s (.modbits b) (s.respond (.samples (modulate P.num s.cfg b)) [])
  | framed (b : BitSeq) (hv : s.cfgValid = true) :
      Effect P s (.txframe b) (s.respond (.samples (frame P.num s.cfg b)) [])
  | located (x : List S) (b e : Nat) (hv : s.cfgValid = true)
      (hl : locateFrame P.num x (s.cfg.startRef P.num) (s.cfg.endRef P.num) = some (b, e)) :
      Effect P s (.locate x) (s.respond (.indices b e) [])
  | classified (x : List S) (hv : s.cfgValid = true) :
      Effect P s (.demod x) (s.respond (.bits (demodulate P.num P.score s.cfg x)) [])
  | received (x : List S) (o : BitSeq) (n : Nat) (hv : s.cfgValid = true)
      (hr : receive P.num P.score P.guess2 s.cfg x = some (o, n)) :
      Effect P s (.rxframe x) ((s.countGuessed n).respond (.bitsGuessed o n) [])
  | started (n : Nat) (hv : s.cfgValid = true) (hn : s.cfg.chunkLen = some n) (hr : s.detRun = false) :
      Effect P s .detstart (State.respond { s with detRun := true, detState := .idle, detBuf := [] } .empty [])
  | startedAlready (hv : s.cfgValid = true) (hr : s.detRun = true) : Effect P s .detstart (s.respond .empty [])
  | chunkDropped (x : List S) (hv : s.cfgValid = true) (hr : s.detRun = true) (hd : s.detState = .idle)
      (hc : s.cfg.chunkLen = some x.length)
      (ht : ¬(s.txActive = false ∧ hit P.num s.cfg.thresh x (s.cfg.startRef P.num) = true)) :
      Effect P s (.detchunk x) (s.respond .empty [])
  | chunkTriggers (x : List S) (hv : s.cfgValid = true) (hr : s.detRun = true) (hd : s.detState = .idle)
      (hc : s.cfg.chunkLen = some x.length) (ht : s.txActive = false)
      (hh : hit P.num s.cfg.thresh x (s.cfg.startRef P.num) = true) :
      Effect P s (.detchunk x)
        (State.respond { s with detState := .recording, detBuf := x } .empty [.startOfFrame])
  | chunkOverruns (x : List S) (m : Nat) (hv : s.cfgValid = true) (hr : s.detRun = true)
      (hd : s.detState = .recording) (hc : s.cfg.chunkLen = some x.length) (hm : P.maxFrameChunks = some m)
      (hlt : m < (s.detBuf ++ x).length / x.length) :
      Effect P s (.detchunk x) (State.respond { s with detState := .idle, detBuf := [] } .empty [.frameOverrun])
  | chunkAppended (x : List S) (hv : s.cfgValid = true) (hr : s.detRun = true) (hd : s.detState = .recording)
      (hc : s.cfg.chunkLen = some x.length)
      (ho : ∀ m, P.maxFrameChunks = some m → (s.detBuf ++ x).length / x.length ≤ m)
      (hh : hit P.num s.cfg.thresh x (s.cfg.endRef P.num) = false) :
      Effect P s (.detchunk x) (State.respond { s with detBuf := s.detBuf ++ x } .empty [])
  | chunkCompletes (x : List S) (hv : s.cfgValid = true) (hr : s.detRun = true) (hd : s.detState = .recording)
      (hc : s.cfg.chunkLen = some x.length)
      (ho : ∀ m, P.maxFrameChunks = some m → (s.detBuf ++ x).length / x.length ≤ m)
      (hh : hit P.num s.cfg.thresh x (s.cfg.endRef P.num) = true) :
      Effect P s (.detchunk x)
        (State.respond { s with detState := .idle, detBuf := [] } .empty [.frameComplete (s.detBuf ++ x)])
  | stopped (hv : s.cfgValid = true) :
      Effect P s .detstop (State.respond { s with detRun := false, detState := .idle, detBuf := [] } .empty [])
  | gateClosed (hv : s.cfgValid = true) :
      Effect P s .txon (State.respond { s with txActive := true } .empty [])
  | gateOpened (hv : s.cfgValid = true) :
      Effect P s .txoff (State.respond { s with txActive := false } .empty [])

/-- A buffer overruns exactly a limit that its whole chunks exceed. -/
theorem overrun_iff (limit : Option Nat) (n len : Nat) :
    overrun limit n len = true ↔ ∃ m, limit = some m ∧ m < len / n := by
  cases limit <;> simp [overrun]

/-- The detector's answer to a chunk. -/
theorem detChunk_effect (P : Build S) (s : State S w) (x : List S) (hv : s.cfgValid = true) :
    Effect P s (.detchunk x) (detChunk P x s) := by
  simp only [detChunk]
  cases hc : s.cfg.chunkLen with
  | none => exact .raised _ _
  | some n =>
    simp only
    split
    · exact .raised _ _
    rename_i hr
    have hr : s.detRun = true := by simpa using hr
    split
    · exact .raised _ _
    rename_i hl
    have hl : x.length = n := by simpa using hl
    subst hl
    simp only [detTransition]
    cases hd : s.detState with
    | idle =>
      simp only
      split
      · rename_i h
        exact .chunkTriggers x hv hr hd hc h.1 h.2
      · rename_i h
        exact .chunkDropped x hv hr hd hc h
    | recording =>
      simp only
      split
      · rename_i ho
        obtain ⟨m, hm, hlt⟩ := (overrun_iff _ _ _).1 ho
        exact .chunkOverruns x m hv hr hd hc hm hlt
      rename_i ho
      have ho : ∀ m, P.maxFrameChunks = some m → (s.detBuf ++ x).length / x.length ≤ m :=
        fun m hm => not_lt.1 fun hlt => ho ((overrun_iff _ _ _).2 ⟨m, hm, hlt⟩)
      split
      · rename_i hh
        exact .chunkCompletes x hv hr hd hc ho hh
      · rename_i hh
        have e := Effect.chunkAppended x hv hr hd hc ho (Bool.eq_false_iff.2 hh)
        rwa [hd] at e

/-- Every command of every build answers a next state, one of its effects. -/
theorem execWith_effect (P : Build S) (s : State S w) (i : Instr S) :
    ∃ s', execWith P i s = .next s' ∧ Effect P s i s' := by
  cases hv : s.cfgValid with
  | false =>
    cases i with
    | cfgload c =>
      simp only [execWith, cfgloadOn, hv]
      cases hl : loadCfg c with
      | error e => exact ⟨_, rfl, .raised _ e⟩
      | ok cf => exact ⟨_, rfl, .loaded c cf hv hl⟩
    | rdstat => exact ⟨_, rfl, .status⟩
    | _ => exact ⟨_, configured_of_invalid hv _, .raised _ _⟩
  | true =>
    cases i with
    | cfgload c => exact ⟨s.raise .configLocked, by simp [execWith, cfgloadOn, hv], .raised _ _⟩
    | rdstat => exact ⟨_, rfl, .status⟩
    | eccenc b => exact ⟨_, configured_of_valid hv _, .encoded _ hv⟩
    | eccdec b => exact ⟨_, configured_of_valid hv _, .decoded _ _ _ hv rfl⟩
    | modbits b => exact ⟨_, configured_of_valid hv _, .modulated _ hv⟩
    | txframe b => exact ⟨_, configured_of_valid hv _, .framed _ hv⟩
    | locate x =>
      simp only [execWith, locateWith, configured_of_valid hv]
      cases hl : locateFrame P.num x (s.cfg.startRef P.num) (s.cfg.endRef P.num) with
      | none => exact ⟨_, rfl, .raised _ _⟩
      | some p => exact ⟨_, rfl, .located _ _ _ hv hl⟩
    | demod x => exact ⟨_, configured_of_valid hv _, .classified _ hv⟩
    | rxframe x =>
      simp only [execWith, rxframeWith, configured_of_valid hv]
      cases hr : receive P.num P.score P.guess2 s.cfg x with
      | none => exact ⟨_, rfl, .raised _ _⟩
      | some p => exact ⟨_, rfl, .received _ _ _ hv hr⟩
    | detstart =>
      simp only [execWith, detstartOn, configured_of_valid hv]
      cases hc : s.cfg.chunkLen with
      | none => exact ⟨_, rfl, .raised _ _⟩
      | some n =>
        cases hr : s.detRun with
        | false => exact ⟨_, rfl, .started n hv hc hr⟩
        | true => exact ⟨_, rfl, .startedAlready hv hr⟩
    | detchunk x => exact ⟨_, configured_of_valid hv _, detChunk_effect P s x hv⟩
    | detstop => exact ⟨_, configured_of_valid hv _, .stopped hv⟩
    | txon => exact ⟨_, configured_of_valid hv _, .gateClosed hv⟩
    | txoff => exact ⟨_, configured_of_valid hv _, .gateOpened hv⟩

/-- The next state of a command of a build is one of its effects. -/
theorem effect_of_execWith {P : Build S} {s s' : State S w} {i : Instr S} (h : execWith P i s = .next s') :
    Effect P s i s' := by
  obtain ⟨t, ht, he⟩ := execWith_effect P s i
  rw [ht] at h
  injection h with h
  exact h ▸ he

/-- Every command answers a next state, one of its effects. -/
theorem exec_effect (s : State) (i : Instr) : ∃ s', exec i s = .next s' ∧ Effect Build.decided s i s' := by
  rw [exec_eq_execWith]
  exact execWith_effect _ s i

/-- The next state of a command is one of its effects. -/
theorem effect_of_exec {s s' : State} {i : Instr} (h : exec i s = .next s') : Effect Build.decided s i s' :=
  effect_of_execWith ((exec_eq_execWith i s).symm.trans h)

/-- A decoded command has the opcode byte it was decoded from. -/
theorem opcode_of_decode {c : Command S} {i : Instr S} (hd : decode c = .ok i) : opcode i = c.op := by
  have hu : ∀ op : Byte, op = BitVec.ofNat 8 (unitOf op * 16 + fnOf op) := by decide +kernel
  rw [hu c.op]
  simp only [decode] at hd
  split at hd
  case h_15 => split at hd <;> cases hd
  all_goals
    rename_i h1 h2
    cases hd
    rw [h1, h2]
    rfl

end Sys2Proof.Machine
end

