-- ==== Sys2Proof/Laws/PerInstr.lean ====
section
/-! SUPPORT. The family `Encoding`: each command's opcode byte is the one of the opcode table, and the
decoder reads the command back from its encoding (30_encoding.md R86). -/

namespace Sys2Proof.Laws.Encoding

/-- The encoding of a command has its opcode byte, one of the fourteen, and decodes to it. -/
def Statement (i : Instr) : Prop :=
  (encode i).op = opcode i ∧ decode (encode i) = .ok i ∧
    (opcode i).toNat ∈ [0x00, 0x01, 0x10, 0x11, 0x20, 0x21, 0x30, 0x31, 0x32, 0x40, 0x41, 0x42, 0x43, 0x44]

theorem cfgload (c : CfgRecord) : Statement (.cfgload c) := by
  simp [Statement, encode, opcode, decode, unitOf, fnOf]

theorem rdstat : Statement .rdstat := by
  simp [Statement, encode, opcode, Command.bare, decode, unitOf, fnOf]

theorem eccenc (b : BitSeq) : Statement (.eccenc b) := by
  simp [Statement, encode, opcode, decode, unitOf, fnOf]

theorem eccdec (b : BitSeq) : Statement (.eccdec b) := by
  simp [Statement, encode, opcode, decode, unitOf, fnOf]

theorem modbits (b : BitSeq) : Statement (.modbits b) := by
  simp [Statement, encode, opcode, decode, unitOf, fnOf]

theorem txframe (b : BitSeq) : Statement (.txframe b) := by
  simp [Statement, encode, opcode, decode, unitOf, fnOf]

theorem locate (x : SampleSeq) : Statement (.locate x) := by
  simp [Statement, encode, opcode, decode, unitOf, fnOf]

theorem demod (x : SampleSeq) : Statement (.demod x) := by
  simp [Statement, encode, opcode, decode, unitOf, fnOf]

theorem rxframe (x : SampleSeq) : Statement (.rxframe x) := by
  simp [Statement, encode, opcode, decode, unitOf, fnOf]

theorem detstart : Statement .detstart := by
  simp [Statement, encode, opcode, Command.bare, decode, unitOf, fnOf]

theorem detchunk (x : SampleSeq) : Statement (.detchunk x) := by
  simp [Statement, encode, opcode, decode, unitOf, fnOf]

theorem detstop : Statement .detstop := by
  simp [Statement, encode, opcode, Command.bare, decode, unitOf, fnOf]

theorem txon : Statement .txon := by
  simp [Statement, encode, opcode, Command.bare, decode, unitOf, fnOf]

theorem txoff : Statement .txoff := by
  simp [Statement, encode, opcode, Command.bare, decode, unitOf, fnOf]

end Sys2Proof.Laws.Encoding
end

