-- ==== Sys2Proof/Laws/RealBlock.lean ====
section
/-! SUPPORT. What the shared operations compute on samples that are arbitrary real numbers (`realNum`):
correlations and their first maximum, hits, and the decision of DOT. -/

namespace Sys2Proof.Machine

theorem realLt_iff (a b : ℝ) : realNum.lt a b = true ↔ a < b := by simp [realNum]

/-- `argmaxFirst` over real values `v 0`, `v 1`, … is the first greatest of them. -/
theorem realArgmax_firstMax (cs : List ℝ) (v : Nat → ℝ) (n : Nat) (hn : cs.length = n) (hpos : 0 < n)
    (hv : ∀ k, (hk : k < cs.length) → cs[k] = v k) : FirstMax v n (argmaxFirst realNum.lt cs) := by
  subst hn
  obtain ⟨hm, h1, h2⟩ := argmaxFirst_spec realNum.lt id realLt_iff cs (List.length_pos_iff.1 hpos)
  refine ⟨hm, fun k hk => ?_, fun k hk => ?_⟩
  · rw [← hv k hk, ← hv _ hm]
    exact h1 _ (List.getElem_mem hk)
  · rw [← hv k (by omega), ← hv _ hm]
    exact h2 k hk

/-- Value `k` of the correlation (43_demodulator.md R151). -/
theorem realXcorr_getElem (x r : List ℝ) (h : r.length ≤ x.length) (k : Nat)
    (hk : k < (xcorrValid realNum x r).length) : (xcorrValid realNum x r)[k] = corrReal x r k := by
  have hk' : k ≤ x.length - r.length := by rw [xcorrValid_length] at hk; omega
  simp only [xcorrValid, List.getElem_map, List.getElem_range]
  rw [realDot_eq_sum _ _ (by rw [slice_length _ _ _ (by omega)]; omega)]
  refine Finset.sum_congr rfl fun j hj => ?_
  simp only [List.getD_eq_getElem?_getD]
  rw [slice_getElem? _ _ _ _ (by have := Finset.mem_range.1 hj; omega)]

theorem realXcorr_firstMax (x r : List ℝ) (h : r.length ≤ x.length) :
    FirstMax (corrReal x r) (x.length - r.length + 1) (argmaxFirst realNum.lt (xcorrValid realNum x r)) :=
  realArgmax_firstMax _ _ _ (xcorrValid_length _ _ _) (by omega) (realXcorr_getElem x r h)

/-- The peak exceeds a number exactly where some correlation does. -/
theorem lt_realPeak_iff (x r : List ℝ) (h : r.length ≤ x.length) (th : ℝ) :
    th < (xcorrValid realNum x r).getD (argmaxFirst realNum.lt (xcorrValid realNum x r)) (realNum.ofRat 0) ↔
      ∃ k, k ≤ x.length - r.length ∧ th < corrReal x r k := by
  have hm := realXcorr_firstMax x r h
  have hl : argmaxFirst realNum.lt (xcorrValid realNum x r) < (xcorrValid realNum x r).length := by
    rw [xcorrValid_length]
    exact hm.1
  rw [List.getD_eq_getElem?_getD, List.getElem?_eq_getElem hl, Option.getD_some, realXcorr_getElem x r h]
  constructor
  · exact fun hlt => ⟨_, by have := hm.1; omega, hlt⟩
  · rintro ⟨k, hk, hlt⟩
    exact lt_of_lt_of_le hlt (hm.2.1 k (by omega))

/-- A hit is a correlation above the threshold (44_detector.md R181, R183). -/
theorem realHit_iff (th : Rat) (x r : List ℝ) : hit realNum th x r = true ↔ HitReal th x r := by
  rw [hit, realLt_iff, peak, rollingCorr, HitReal]
  by_cases h : r.length ≤ x.length
  · rw [if_pos h, show realNum.ofRat th = (th : ℝ) from rfl, lt_realPeak_iff x r h]
    exact ⟨fun hh => .inl ⟨h, hh⟩, fun hh => hh.elim And.right fun h' => absurd h'.1 (by omega)⟩
  · rw [if_neg h, show realNum.ofRat th = (th : ℝ) from rfl, lt_realPeak_iff r x (by omega)]
    exact ⟨fun hh => .inr ⟨by omega, hh⟩, fun hh => hh.elim (fun h' => absurd h'.1 h) And.right⟩

@[simp] theorem realTone_length (c : Cfg) (i : Row) : (c.tone realNum i).length = c.sps := by simp [Cfg.tone]

/-- The row that `DOT` decides for a window of one symbol (43_demodulator.md R160, R162). -/
theorem realDecide_dot (c : Cfg) (x : List ℝ) (h : x.length = c.sps) :
    ∃ m, FirstMax (fun i => ∑ n ∈ Finset.range c.sps, x.getD n 0 * c.toneReal (Row.ofIndex i) n) 4 m ∧
      decideRow realNum .dot c x = Row.ofIndex m := by
  refine ⟨_, realArgmax_firstMax _ _ 4 rfl (by decide) ?_, rfl⟩
  intro k hk
  rw [List.getElem_map, realDot_eq_sum _ _ (by simp [h]), realTone_length]
  have hk' : k < 4 := hk
  refine Finset.sum_congr rfl fun n hn => ?_
  have ht : ∀ i, (c.tone realNum i).getD n 0 = c.toneReal i n := fun i =>
    exactNum_hom.tone c i ▸ sampleAt_tone c i n (Finset.mem_range.1 hn)
  rw [ht]
  interval_cases k <;> rfl

/-- The correlation of sample sequences is that of their real numbers. -/
theorem corrAt_eq (x r : SampleSeq) : corrAt x r = corrReal (waveReal x) (waveReal r) := by
  funext k
  simp only [corrAt, corrReal, waveReal_length]
  rfl

end Sys2Proof.Machine
end

