-- ==== Sys2Proof/Laws/Symbols.lean ====
section
/-! SUPPORT. The dibit mapper, symbol by symbol (42_modulator.md R130). -/

namespace Sys2Proof.Machine

@[simp] theorem symbolRows_length (bits : BitSeq) : (symbolRows bits).length = (bits.length + 1) / 2 := by
  rw [symbolRows, List.length_map, granules_length, padBits_granules 2 (by decide)]

/-- Symbol `k` is the row of bits `2k` and `2k + 1`, a bit beyond the end being 0. -/
theorem symbolRows_getElem? (bits : BitSeq) (k : Nat) (hk : k < (bits.length + 1) / 2) :
    (symbolRows bits)[k]? = some (rowOf (bitAt bits (2 * k)) (bitAt bits (2 * k + 1))) := by
  have h1 : k < (padBits 2 bits).length / 2 := by rw [padBits_granules 2 (by decide)]; exact hk
  have hb : ∀ i, i < 2 → bitAt (slice (padBits 2 bits) (k * 2) ((k + 1) * 2)) i = bitAt bits (2 * k + i) := by
    intro i hi
    rw [← bitAt_padBits 2 (2 * k + i) bits]
    simp only [bitAt, List.getD_eq_getElem?_getD]
    rw [slice_getElem? _ _ _ _ (by omega), Nat.mul_comm k 2]
  rw [symbolRows, List.getElem?_map, granules_getElem? 2 k _ h1, Option.map_some, hb 0 (by decide), hb 1 (by decide)]
  rfl

/-- The symbols of an even input followed by another are its own followed by the other's. -/
theorem symbolRows_append (a b : BitSeq) (h : a.length % 2 = 0) : symbolRows (a ++ b) = symbolRows a ++ symbolRows b := by
  have e : padBits 2 (a ++ b) = a ++ padBits 2 b := by
    simp only [padBits, List.length_append, List.append_assoc]
    congr 4
    omega
  rw [symbolRows, e, granules_append_of_dvd 2 (by decide) _ _ h, List.map_append, symbolRows, symbolRows,
    padBits_of_dvd 2 a h]

end Sys2Proof.Machine
end

