-- ==== Sys2Proof/Tests/Slice0.lean ====
section
/-! SUPPORT. Tests. Every expected result is the spec's own (95_test_vectors.md, or an example of the rule
named) or was worked out by hand where the comment says so. The second half shows, for every obligation
with hypotheses, states and operands that meet them (`witness_…`). -/

namespace Sys2Proof.Tests

open Sys2Proof.Machine

-- One theorem after the other: each waits for the kernel, and waiting theorems would each hold a thread.
set_option Elab.async false

/-! ## Helpers -/

/-- The sample that is the rational number `r`. -/
def q (r : Rat) : Sample := if r = 0 then ⟨[]⟩ else ⟨[⟨0, r⟩]⟩

/-- The sample `r · √3/2`. -/
def h3 (r : Rat) : Sample := ⟨[⟨1/12, r⟩]⟩

/-- TONE of the configuration T12, copied from the table of 95_test_vectors.md section 0. -/
def tone12 : Row → SampleSeq
  | .r0 => [q 1, h3 1, q (1/2), q 0, q (-1/2), h3 (-1), q (-1), h3 (-1), q (-1/2), q 0, q (1/2), h3 1]
  | .r1 => [q 1, q (1/2), q (-1/2), q (-1), q (-1/2), q (1/2), q 1, q (1/2), q (-1/2), q (-1), q (-1/2), q (1/2)]
  | .r2 => [q 1, q 0, q (-1), q 0, q 1, q 0, q (-1), q 0, q 1, q 0, q (-1), q 0]
  | .r3 => [q 1, q (-1/2), q (-1/2), q 1, q (-1/2), q (-1/2), q 1, q (-1/2), q (-1/2), q 1, q (-1/2), q (-1/2)]

/-- The waveform of a list of alphabet rows under T12. -/
def wave12 (rows : List Nat) : SampleSeq := rows.flatMap fun i => tone12 (Row.ofIndex i)

/-- The bits of a word of `n` bits, the most significant first. -/
def bitsOf (n w : Nat) : BitSeq := (List.range n).map fun i => w.testBit (n - 1 - i)

def t12a : Cfg := ⟨5/2, 12, 1, [0x3C#8, 0x3C#8], [0x3E#8, 0x3E#8], 1, 5, none, ⟨true, true, true⟩⟩
def t12b : Cfg := { t12a with keyStart := [0x3C#8], keyEnd := [0x3E#8], chunkLen := some 96 }
def t12c : Cfg := { t12b with eccEn := ⟨false, false, false⟩ }
def t8 : Cfg := { t12a with fc := 3, fs := 8, rate := 3, df := 2, keyStart := [0x3C#8], keyEnd := [0x3E#8] }

/-- The record of T12a. -/
def t12aRec : CfgRecord :=
  ⟨some (5/2), some 12, some 1, some [0x3C#8, 0x3C#8], some [0x3E#8, 0x3E#8], none, none, none, none⟩

/-- A configured block, otherwise as after reset. -/
def ready (c : Cfg) : State := { State.reset with cfgValid := true, cfg := c }

/-- The state an outcome goes on in. -/
def final : Out → Option State
  | .next s => some s
  | .refused _ => none

/-- The last response delivered. -/
def reply (o : Out) : Option Response := (final o).bind fun s => s.responses.getLast?

/-! ## Decode (30_encoding.md R86, R87) -/

/-- The decoder, on samples of the block as built. -/
def read (c : Command) : Except DecodeError Instr := decode c

theorem test_decode_cfgload : read ⟨0b00000000#8, t12aRec, [], []⟩ = .ok (.cfgload t12aRec) := rfl
theorem test_decode_rdstat : read (.bare 0b00000001#8) = .ok .rdstat := rfl
theorem test_decode_eccenc : read ⟨0b00010000#8, .empty, [true, false], []⟩ = .ok (.eccenc [true, false]) := rfl
theorem test_decode_eccdec : read ⟨0b00010001#8, .empty, [true, false], []⟩ = .ok (.eccdec [true, false]) := rfl
theorem test_decode_modbits : read ⟨0b00100000#8, .empty, [true, false], []⟩ = .ok (.modbits [true, false]) := rfl
theorem test_decode_txframe : read ⟨0b00100001#8, .empty, [true, false], []⟩ = .ok (.txframe [true, false]) := rfl
theorem test_decode_locate : read ⟨0b00110000#8, .empty, [], [q 1]⟩ = .ok (.locate [q 1]) := rfl
theorem test_decode_demod : read ⟨0b00110001#8, .empty, [], [q 1]⟩ = .ok (.demod [q 1]) := rfl
theorem test_decode_rxframe : read ⟨0b00110010#8, .empty, [], [q 1]⟩ = .ok (.rxframe [q 1]) := rfl
theorem test_decode_detstart : read (.bare 0b01000000#8) = .ok .detstart := rfl
theorem test_decode_detchunk : read ⟨0b01000001#8, .empty, [], [q 1]⟩ = .ok (.detchunk [q 1]) := rfl
theorem test_decode_detstop : read (.bare 0b01000010#8) = .ok .detstop := rfl
theorem test_decode_txon : read (.bare 0b01000011#8) = .ok .txon := rfl
theorem test_decode_txoff : read (.bare 0b01000100#8) = .ok .txoff := rfl

/-- V3: the reserved bytes. -/
theorem test_decode_reserved :
    ([0x02, 0x12, 0x22, 0x33, 0x45, 0x50, 0xFF].all fun w => (decodeTableWord 8 w).isNone) = true := by decide

/-- The encoder's bytes are the opcodes of the table (R86). -/
theorem test_encode : ([.rdstat, .eccdec [], .txframe [], .rxframe [], .txoff].map fun i : Instr => (encode i).op.toNat) = [0x01, 0x11, 0x21, 0x32, 0x44] := by decide

/-! ## WellFormed: one ill-formed term for each check -/

theorem test_wf_refuses_zero_coefficient : (Instr.demod [⟨[⟨0, 0⟩]⟩]).wf = false := by decide +kernel
theorem test_wf_refuses_negative_phase : (Instr.demod [⟨[⟨-1/8, 1⟩]⟩]).wf = false := by decide +kernel
theorem test_wf_refuses_quarter_turn : (Instr.locate [⟨[⟨1/4, 1⟩]⟩]).wf = false := by decide +kernel
theorem test_wf_refuses_sixth_of_a_turn : (Instr.rxframe [⟨[⟨1/6, 1⟩]⟩]).wf = false := by decide +kernel
theorem test_wf_refuses_unsorted_phases : (Instr.detchunk [⟨[⟨1/8, 1⟩, ⟨1/12, 1⟩]⟩]).wf = false := by decide +kernel
theorem test_wf_accepts : (Instr.demod [q 0, q (-1/2), h3 1, ⟨[⟨0, 1⟩, ⟨1/8, 2⟩]⟩]).wf = true := by decide +kernel

/-! ## Numerics (00_scope.md R13), by hand -/

/-- `cos(2π/5) + cos(4π/5) = -1/2`, which no rational enclosure decides. -/
theorem test_exact_equality :
    exactLt (exactAdd (exactCos1 (1/5)) (exactCos1 (2/5))) (exactOfRat (-1/2)) = false ∧
      exactLt (exactOfRat (-1/2)) (exactAdd (exactCos1 (1/5)) (exactCos1 (2/5))) = false := by decide +kernel

/-- `(√3/2)² = 3/4`, and `√3/2 < 0.8660255` (by hand: `0.8660255² > 0.75`). -/
theorem test_exact_root : exactMul (h3 1) (h3 1) = q (3/4) ∧
    exactLt (h3 1) (q (8660255/10000000)) = true ∧ exactLt (q (8660254/10000000)) (h3 1) = true := by decide +kernel

/-! ## Control -/

/-- V1. -/
theorem test_rdstat_reset : reply (exec .rdstat State.reset) = some (.ok (.stat 0#32 0#32 0) []) := by decide +kernel

/-- V8: after TXON the status is 0x9; V52: in `Recording` with two chunks it is 0x7 and the count is 2. -/
theorem test_rdstat_bits :
    reply (exec .rdstat { ready t12a with txActive := true }) = some (.ok (.stat 0x9#32 0#32 0) []) ∧
    reply (exec .rdstat { ready t12b with
      detRun := true, detState := .recording, detBuf := List.replicate 192 (q 0) }) = some (.ok (.stat 0x7#32 0#32 2) []) := by decide +kernel

/-- R90's example and V9: T12a and its defaults. -/
theorem test_cfgload_defaults :
    (final (exec (.cfgload t12aRec) State.reset)).map (fun s => (s.cfgValid, s.cfg)) = some (true, t12a) := by
  decide +kernel

/-- V4, V5 and V7: the first absent field, the illegal values, the lock before every other check. -/
theorem test_cfgload_errors :
    reply (exec (.cfgload { t12aRec with recordEnd := none }) State.reset) =
      some (.error (.configMissingField .recordEnd)) ∧
    reply (exec (.cfgload { t12aRec with frequency := none, recordStart := none }) State.reset) =
      some (.error (.configMissingField .frequency)) ∧
    ([{ t12aRec with samplingRate := some 2, symbolsPerSecond := some 3 }, { t12aRec with samplingRate := some 0 },
      { t12aRec with symbolsPerSecond := some 0 }, { t12aRec with symbolsPerSecond := some (-1) },
      { t12aRec with toneSpacing := some 0 }, { t12aRec with toneSpacing := some (-1) },
      { t12aRec with chunkLen := some 0 }].all fun c =>
        reply (exec (.cfgload c) State.reset) == some (.error .configInvalid)) = true ∧
    reply (exec (.cfgload .empty) (ready t12a)) = some (.error .configLocked) := by decide +kernel

/-- V2 and V3: before a configuration is loaded. -/
theorem test_preamble :
    ([.eccenc [true], .eccdec (bitsOf 8 0), .modbits (bitsOf 2 2), .txframe (bitsOf 2 2), .locate [], .demod [],
      .rxframe [], .detstart, .detchunk [], .detstop, .txon, .txoff].all fun i =>
        reply (exec i State.reset) == some (.error .notConfigured)) = true ∧
    reply (step (State.reset.withFetchWord 8 0x33)) = some (.error .illegalCommand) := by decide +kernel

/-! ## ECC -/

/-- V10 and V11: the bits of "HI", and padding. -/
theorem test_eccenc :
    reply (exec (.eccenc (bitsOf 16 0b0100100001001001)) (ready t12a)) =
      some (.ok (.bits (bitsOf 32 0b11011000111000011101100010110010)) []) ∧
    reply (exec (.eccenc (bitsOf 5 0b10110)) (ready t12a)) =
      some (.ok (.bits (bitsOf 16 0b0010011100000000)) []) := by decide +kernel

/-- V17: the data of every received block, one hexadecimal digit each. -/
theorem test_decode_table :
    ((List.range 256).map fun b => decodeBlock guess2Default (bitsOf 8 b)) =
      ([0x0005023B05D5E675, 0x0291A2724C757277, 0x089BEBBBECD5E6EB, 0x9C91A29BCC9CEC7F,
        0x0831363B46D56636, 0x4111A2314C41467F, 0x08D8A83BD8DDE6DF, 0xA891AAAF4CDFAF7F,
        0x0805023B0555E675, 0x029122724C75727F, 0x089BEB3BECD5EEEB, 0x9C99A29B4C9CEC7F,
        0x0831363346D5E636, 0x4191A2314441467F, 0x88D8A83BD8D5E6DF, 0xA891A2AF4CDFAFFF]).flatMap
        (fun w => granules 4 (bitsOf 64 w)) := by decide +kernel

/-- V17: the class of every received block: 0 `NoError`, 1 `Single`, 2 `Guess`. -/
theorem test_class_table :
    ((List.range 256).map fun b => match classify (bitsOf 8 b) with
      | .noError => 0
      | .single => 1
      | .guess => 2) =
      ([0x0112122112212112, 0x1221211221121201, 0x1221211021121221, 0x2112122110212112,
        0x1221211221121021, 0x2110122112212112, 0x2112122112012112, 0x1221011221121221,
        0x1221211221101221, 0x2112102112212112, 0x2112122112210112, 0x1201211221121221,
        0x2112120112212112, 0x1221211201121221, 0x1021211221121221, 0x2112122112212110]).flatMap
        (fun w => (List.range 16).map fun i => w / 16 ^ (15 - i) % 16) := by decide +kernel

/-- V15 (15 bits, the last 7 ignored; one flip in each of two blocks). -/
theorem test_eccdec_data :
    reply (exec (.eccdec (bitsOf 15 0b001001110010011)) (ready t12a)) = some (.ok (.bitsGuessed (bitsOf 4 0b1011) 0) []) ∧
    reply (exec (.eccdec (bitsOf 24 0b001011110000011111111111)) (ready t12a)) =
      some (.ok (.bitsGuessed (bitsOf 12 0b101110111111) 0) []) := by decide +kernel

/-- V16: two guessed blocks, whatever GUESS2; the counter, and its saturation. -/
theorem test_eccdec_count :
    ([0#32, 0xFFFFFFFE#32, 0xFFFFFFFF#32].map fun n =>
      (final (exec (.eccdec (bitsOf 24 0b000000110000001100100111)) { ready t12a with uncorrCnt := n })).map
        fun s => s.uncorrCnt) = [some 2#32, some 0xFFFFFFFF#32, some 0xFFFFFFFF#32] := by decide +kernel

/-! ## Modulator -/

/-- V31 and program P2: the four bursts, sample by sample. -/
theorem test_modbits : reply (exec (.modbits (bitsOf 8 0b10110100)) (ready t12a)) =
    some (.ok (.samples (wave12 [0, 1, 2, 3])) []) := by decide +kernel

/-- V32 (odd length) and V35 (T8). -/
theorem test_modbits_odd :
    reply (exec (.modbits (bitsOf 3 0b101)) (ready t12a)) = some (.ok (.samples (wave12 [0, 0])) []) ∧
    reply (exec (.modbits (bitsOf 8 0b10110100)) (ready t8)) =
      some (.ok (.samples [q 1, q 1, q 1, q 0, q 1, q (-1), q 1, q 0]) []) := by decide +kernel

/-- V34: no part encoded, odd payload; V33: T12b, every part encoded, payload `1`. -/
theorem test_txframe :
    reply (exec (.txframe (bitsOf 3 0b011)) (ready t12c)) =
      some (.ok (.samples (wave12 [3, 1, 1, 3, 2, 0, 3, 1, 1, 0])) []) ∧
    reply (exec (.txframe (bitsOf 1 1)) (ready t12b)) = some (.ok (.samples
      (wave12 [1, 3, 2, 0, 3, 1, 0, 2, 1, 0, 3, 2, 1, 3, 2, 0, 0, 0, 1, 3])) []) := by decide +kernel

/-! ## Demodulator -/

/-- V30 and V37: three symbols, then 3 samples that are ignored. -/
theorem test_demod : reply (exec (.demod (wave12 [3, 0, 1] ++ [q 1, q (1/2), q (-1/2)])) (ready t12a)) =
    some (.ok (.bits (bitsOf 6 0b001011)) []) := by decide +kernel

/-- V36: a tie, the polarity inverted, silence, and one sample early. -/
theorem test_demod_ties : reply (exec (.demod (
      List.zipWith exactAdd (tone12 .r2) (tone12 .r3) ++ (tone12 .r0).map (exactMul (q (-1))) ++
      List.replicate 12 (q 0) ++
      [q 0, q (-1), q 0, q 1, q 0, q (-1), q 0, q 1, q 0, q (-1), q 0, q 1])) (ready t12a)) =
    some (.ok (.bits (bitsOf 8 0b01111010)) []) := by decide +kernel

/-- V38: under T8 the two scores decide differently. -/
theorem test_scores :
    demodulate exactNum .dot t8 (modulate exactNum t8 (bitsOf 8 0b10110100)) = bitsOf 8 0b10100110 ∧
    demodulate exactNum .ndot t8 (modulate exactNum t8 (bitsOf 8 0b10110100)) = bitsOf 8 0b10110111 := by
  decide +kernel

/-- T8 with no part encoded and keys 0xA0, 0x50: START_REF `1,1,1,1,1,0,1,0`, END_REF `1,-1,1,-1,1,0,1,0`. -/
def t8Plain : Cfg := { t8 with keyStart := [0xA0#8], keyEnd := [0x50#8], eccEn := ⟨false, false, false⟩ }

/-- The frame of payload `11` under `t8Plain`, written out from V35's bursts. -/
def frame8 : SampleSeq :=
  [q 1, q 1, q 1, q 1, q 1, q 0, q 1, q 0] ++ [q 1, q 0] ++ [q 1, q (-1), q 1, q (-1), q 1, q 0, q 1, q 0]

/-- By hand: the correlations with START_REF are greatest, 6, at lag 0 first, and those with END_REF, 6, at
lag 10, so the segment is `[8, 10)`; a reference longer than the signal is refused (V40). -/
theorem test_locate :
    reply (exec (.locate frame8) (ready t8Plain)) = some (.ok (.indices 8 10) []) ∧
    reply (exec (.locate (frame8.take 7)) (ready t8Plain)) = some (.error .noSyncFound) := by decide +kernel

/-- V40, in small: START_REF ++ END_REF leaves no segment; by hand for silence. -/
theorem test_locate_empty :
    reply (exec (.locate (frame8.take 8 ++ frame8.drop 10)) (ready t8Plain)) = some (.error .noSyncFound) ∧
    reply (exec (.locate (List.replicate 9 (q 0))) (ready t8Plain)) = some (.error .noSyncFound) := by decide +kernel

/-- By hand: the segment `1, 0` scores `1, 1, 1, 1` (V38), row 0, bits `10`, not encoded, so no block is
guessed. -/
theorem test_rxframe : reply (exec (.rxframe frame8) (ready t8Plain)) = some (.ok (.bitsGuessed (bitsOf 2 0b10) 0) []) ∧
    (final (exec (.rxframe frame8) (ready t8Plain))).map (fun s => s.uncorrCnt) = some 0#32 := by decide +kernel

/-! ## Detector -/

/-- R182: DETSTART loads 0x3 into the status; without `chunk_len` it is refused (V8). -/
theorem test_detstart :
    (final (exec .detstart (ready t12b))).map (fun s => s.statusWord) = some 0x3#32 ∧
    reply (exec .detstart (ready t12a)) = some (.error .notConfigured) := by decide +kernel

/-- V51 and V8. -/
theorem test_detchunk_refusals :
    reply (exec (.detchunk (List.replicate 96 (q 0))) (ready t12b)) = some (.error .detectorStopped) ∧
    reply (exec (.detchunk (List.replicate 95 (q 0))) { ready t12b with detRun := true }) =
      some (.error .badChunkLength) ∧
    reply (exec (.detchunk []) (ready t12a)) = some (.error .notConfigured) := by decide +kernel

/-- V46: chunk c1 = START_REF triggers (48 > 5); V47: with THRESH = 48 it does not. -/
theorem test_detchunk_triggers :
    reply (exec (.detchunk (wave12 [1, 3, 2, 0, 3, 1, 0, 2])) { ready t12b with detRun := true }) =
      some (.ok .empty [.startOfFrame]) ∧
    reply (exec (.detchunk (wave12 [1, 3, 2, 0, 3, 1, 0, 2]))
      { ready { t12b with thresh := 48 } with detRun := true }) = some (.ok .empty []) := by decide +kernel

/-- V44: the payload chunk `H` ends the recording early, with the buffer from its first chunk on. -/
theorem test_detchunk_completes :
    reply (exec (.detchunk (wave12 [1, 2, 0, 3, 1, 0, 3, 2])) { ready t12b with
      detRun := true, detState := .recording, detBuf := List.replicate 96 (q 0) }) =
      some (.ok .empty [.frameComplete (List.replicate 96 (q 0) ++ wave12 [1, 2, 0, 3, 1, 0, 3, 2])]) := by
  decide +kernel

/-- V53: three chunks held, MAX_FRAME_CHUNKS = 3: the fourth is dropped with the buffer. -/
theorem test_overrun :
    (detChunk { Build.decided with maxFrameChunks := some 3 } (List.replicate 96 (q 0)) { ready t12b with
      detRun := true, detState := .recording, detBuf := List.replicate 288 (q 0) }).responses =
      [.ok .empty [.frameOverrun]] := by decide +kernel

/-- V50: the gate is closed. -/
theorem test_gate :
    (final (exec .txon (ready t12b))).map (fun s => s.txActive) = some true ∧
    (final (exec .txoff { ready t12b with txActive := true })).map (fun s => s.txActive) = some false ∧
    reply (exec (.detchunk (wave12 [1, 3, 2, 0, 3, 1, 0, 2])) { ready t12b with detRun := true, txActive := true }) =
      some (.ok .empty []) := by decide +kernel

/-- V52: DETSTOP discards the buffer and emits nothing. -/
theorem test_detstop :
    (final (exec .detstop { ready t12b with
      detRun := true, detState := .recording, detBuf := List.replicate 192 (q 0) })).map (fun s => (s.statusWord, s.detBuf, s.responses)) =
      some (0x1#32, [], [.ok .empty []]) := by decide +kernel

/-! ## Witnesses: for every obligation with hypotheses, states and operands that meet them, one for each
clause, at the boundary of its range where it has one -/

/-- One sample a symbol, every burst `1`, no part encoded: START_REF is empty, END_REF is `1,1,1,1`. -/
def cfgEnd : Cfg := ⟨0, 1, 1, [], [0x00#8], 1, -1, some 1, ⟨false, false, false⟩⟩

/-- The keys exchanged: START_REF is `1,1,1,1`, END_REF is empty. -/
def cfgStart : Cfg := { cfgEnd with keyStart := [0x00#8], keyEnd := [] }

/-- `i` pending in a block configured as `c`. -/
def pending (c : Cfg) (i : Instr) : State := { ready c with inputs := [.command (encode i)] }

/-- The detector of a block configured as `c`, in `Idle`. -/
def running (c : Cfg) : State := { ready c with detRun := true }

/-- The detector of a block configured as `c`, in `Recording`. -/
def recording (c : Cfg) (buf : SampleSeq) : State := { running c with detState := .recording, detBuf := buf }

/-- A correlation above a rational number, decided by the exact arithmetic. -/
theorem lt_corrAt (th : Rat) (x r : SampleSeq) (k : Nat) (h : k + r.length ≤ x.length)
    (hd : exactLt (exactOfRat th) (exactNum.dot (slice x k (k + r.length)) r) = true) : (th : ℝ) < corrAt x r k := by
  have hk : k < (xcorrValid exactNum x r).length := by rw [xcorrValid_length]; omega
  have e := xcorrValid_toReal x r (by omega) k hk
  simp only [xcorrValid, List.getElem_map, List.getElem_range] at e
  rw [exactLt_iff, exactOfRat_toReal, e] at hd
  exact hd

/-- A correlation not above a rational number, decided by the exact arithmetic. -/
theorem corrAt_le (th : Rat) (x r : SampleSeq) (k : Nat) (h : k + r.length ≤ x.length)
    (hd : exactLt (exactOfRat th) (exactNum.dot (slice x k (k + r.length)) r) = false) : corrAt x r k ≤ (th : ℝ) := by
  have hk : k < (xcorrValid exactNum x r).length := by rw [xcorrValid_length]; omega
  have e := xcorrValid_toReal x r (by omega) k hk
  simp only [xcorrValid, List.getElem_map, List.getElem_range] at e
  rw [← Bool.not_eq_true, exactLt_iff, exactOfRat_toReal, e] at hd
  exact not_lt.1 hd

theorem corrAt_firstMax (x r : SampleSeq) (m : Nat) (h : r.length ≤ x.length)
    (hd : argmaxFirst exactNum.lt (xcorrValid exactNum x r) = m) :
    FirstMax (corrAt x r) (x.length - r.length + 1) m := hd ▸ xcorr_firstMax x r h

theorem sampleAt_rat (a : Rat) (ha : a ≠ 0) (n : Nat) : sampleAt [q a] n = if n = 0 then (a : ℝ) else 0 := by
  cases n with
  | zero => simp [sampleAt, waveReal, q, ha, Sample.toReal, CosTerm.toReal]
  | succ n => simp [sampleAt, waveReal]

theorem sampleAt_zero (k n : Nat) : sampleAt (List.replicate k (q 0)) n = 0 := by
  by_cases h : n < k
  · have e : (List.replicate k (q 0))[n]? = some (q 0) := by simp [h]
    rw [sampleAt_getElem? e]
    simp [q, Sample.toReal]
  · exact sampleAt_beyond (by simpa using h)

/-- Both outcomes: a load, after which the old content is gone, and a refusal. -/
theorem witness_ResetLeavesTheSpecValues :
    (∃ t : State, State.reset.cfgValid = false ∧ exec (.cfgload t12aRec) State.reset = .next t ∧ t.cfgValid = true) ∧
    ∃ t : State, State.reset.cfgValid = false ∧ exec .txon State.reset = .next t ∧ t.cfgValid = false :=
  ⟨⟨_, rfl, rfl, rfl⟩, _, rfl, rfl, rfl⟩

theorem witness_ResetEventRestoresTheBlock :
    ∃ (s : State) (rest : List Input), s.inputs = .reset :: rest := ⟨{ running t12b with inputs := [.reset] }, [], rfl⟩

theorem witness_StepRunsTheDecodedCommand :
    (∃ (s : State) (c : Command) (rest : List Input) (i : Instr), s.inputs = .command c :: rest ∧ decode c = .ok i) ∧
    ∃ s : State, s.inputs = [] :=
  ⟨⟨pending t12a (.demod [q 1]), encode (.demod [q 1]), [], .demod [q 1], rfl, rfl⟩, State.reset, rfl⟩

theorem witness_PlacedWordIsTheNextCommand :
    decodeTableWord 8 0x00 = some (.cfgload .empty) ∧ decodeTableWord 8 0x44 = some .txoff := ⟨rfl, rfl⟩

theorem witness_EncodeDecodeAgree :
    decode ⟨0x10#8, t12aRec, [true], [q 1]⟩ = .ok (.eccenc [true]) ∧ decode ⟨0x44#8, t12aRec, [true], [q 1]⟩ = .ok .txoff :=
  ⟨rfl, rfl⟩

theorem witness_ReservedOpcodesAreIllegal :
    ∃ (c : Command) (s : State) (rest : List Input), c.op ∉ opcodeBytes ∧ s.inputs = .command c :: rest :=
  ⟨.bare 0x45#8, { running t12b with inputs := [.command (.bare 0x45#8)] }, [], by decide, rfl⟩

theorem witness_PreambleChecksInOrder :
    (∃ (s : State) (c : Command) (rest : List Input), s.inputs = .command c :: rest ∧ c.op ∉ opcodeBytes ∧
      s.cfgValid = false) ∧
    ∃ (s : State) (c : Command) (rest : List Input), s.inputs = .command c :: rest ∧ c.op ∈ opcodeBytes ∧
      s.cfgValid = false ∧ c.op ≠ 0x00#8 ∧ c.op ≠ 0x01#8 :=
  ⟨⟨{ State.reset with inputs := [.command (.bare 0x33#8)] }, .bare 0x33#8, [], rfl, by decide, rfl⟩,
    { State.reset with inputs := [.command (.bare 0x44#8)] }, .bare 0x44#8, [], rfl, by decide, rfl, by decide, by decide⟩

/-- Boundary: one sample a symbol, `chunk_len` 1; and just below, `fs < r`, `chunk_len` 0. -/
theorem witness_CfgloadFollowsItsRule :
    (ready t12a).cfgValid = true ∧ State.reset.cfgValid = false ∧
    CfgRecord.empty.frequency = none ∧ t12aRec.frequency = some (5/2) ∧
    ({ t12aRec with samplingRate := none } : CfgRecord).samplingRate = none ∧ t12aRec.samplingRate = some 12 ∧
    ({ t12aRec with symbolsPerSecond := none } : CfgRecord).symbolsPerSecond = none ∧ t12aRec.symbolsPerSecond = some 1 ∧
    ({ t12aRec with recordStart := none } : CfgRecord).recordStart = none ∧ t12aRec.recordStart = some [0x3C#8, 0x3C#8] ∧
    ({ t12aRec with recordEnd := none } : CfgRecord).recordEnd = none ∧ t12aRec.recordEnd = some [0x3E#8, 0x3E#8] ∧
    (t12aRec.toneSpacing = none ∧ (1 : Rat) = ((1 : Int) : Rat)) ∧
    (⌊((2 : Int) : Rat) / ((3 : Int) : Rat)⌋ < 1 ∧ ∃ n, some (0 : Int) = some n ∧ n < 1) ∧
    ((1 : Int) ≤ 3 ∧ 1 ≤ ⌊((3 : Int) : Rat) / ((3 : Int) : Rat)⌋ ∧ (0 : Rat) < 1 ∧ ∀ n, some (1 : Int) = some n → 1 ≤ n) := by
  refine ⟨rfl, rfl, rfl, rfl, rfl, rfl, rfl, rfl, rfl, rfl, rfl, rfl, ⟨rfl, by norm_num⟩, ⟨by norm_num, 0, rfl, by norm_num⟩,
    by norm_num, by norm_num, by norm_num, ?_⟩
  intro n h
  injection h with h
  omega

theorem ready_inv (c : Cfg) (h : c.Legal) : (ready c).Inv := by
  refine ⟨fun _ => h, ?_, ⟨fun _ => rfl, ?_⟩, ?_⟩
  · intro hr
    cases hr
  · intro hr
    cases hr
  · intro hr
    cases hr

theorem cfgEnd_legal : cfgEnd.Legal := by
  refine ⟨le_refl _, le_refl _, le_refl _, by norm_num [cfgEnd], fun n h => ?_⟩
  cases h
  exact le_refl _

theorem recording_inv : (recording cfgEnd [q 1]).Inv := by
  refine ⟨fun _ => cfgEnd_legal, fun _ => ⟨rfl, 1, rfl⟩, ⟨?_, fun _ => ⟨rfl, 1, 1, rfl, le_refl _, rfl⟩⟩, ?_⟩
  · intro h
    cases h
  · intro h
    cases h

theorem witness_RdstatReportsTheStatus :
    (State.reset.cfgValid = false ∨ State.reset.cfg.chunkLen = none) ∧
    ((ready t12a).cfgValid = false ∨ (ready t12a).cfg.chunkLen = none) ∧
    ∃ (s : State) (m : Nat), s.cfgValid = true ∧ s.cfg.chunkLen = some m ∧ s.Inv ∧ s.detBuf ≠ [] :=
  ⟨.inl rfl, .inr rfl, recording cfgEnd [q 1], 1, rfl, rfl, recording_inv, by simp [recording]⟩

/-- Boundary: the last group, of one bit. -/
theorem witness_EccencBlockFormula :
    ∃ (s : State) (bits : BitSeq) (g : Nat), s.cfgValid = true ∧ g < (bits.length + 3) / 4 ∧
      ∃ d1 d2 d3 d4 p1 p2 p3 pg : Bit,
        d1 = bits.getD (4 * g) false ∧ d2 = bits.getD (4 * g + 1) false ∧
        d3 = bits.getD (4 * g + 2) false ∧ d4 = bits.getD (4 * g + 3) false ∧
        p1 = (d1 ^^ d2 ^^ d3) ∧ p2 = (d1 ^^ d2 ^^ d4) ∧ p3 = (d2 ^^ d3 ^^ d4) ∧
        pg = (p1 ^^ p2 ^^ p3 ^^ d1 ^^ d2 ^^ d3 ^^ d4) :=
  ⟨ready t12a, bitsOf 5 0b10111, 1, rfl, by decide, true, false, false, false, true, true, false, true, by decide⟩

theorem witness_SyndromeOfSinglePosition : ((true, true, true) : Syndrome) ≠ (false, false, false) := by decide

theorem witness_BlockDecisionRules :
    (∀ sy, (guess2Default sy).1 < 7 ∧ (guess2Default sy).2 < 7 ∧ (guess2Default sy).1 ≠ (guess2Default sy).2) ∧
    (∃ (data : BitSeq → BitSeq) (flip : BitSeq → Nat → BitSeq),
      (∀ r, data r = [r.getD 2 false, r.getD 4 false, r.getD 5 false, r.getD 6 false]) ∧
      ∀ r i, flip r i = r.set i (!r.getD i false)) ∧
    ((bitsOf 8 0x27).length = 8 ∧ (bitsOf 8 0x27).countP id % 2 = 0 ∧ syndrome (bitsOf 8 0x27) = (false, false, false)) ∧
    ((bitsOf 8 0x26).length = 8 ∧ (bitsOf 8 0x26).countP id % 2 = 1 ∧ syndrome (bitsOf 8 0x26) = (false, false, false)) ∧
    ((bitsOf 8 0xA7).length = 8 ∧ (bitsOf 8 0xA7).countP id % 2 = 1 ∧ syndrome (bitsOf 8 0xA7) ≠ (false, false, false)) ∧
    ((bitsOf 8 0xE7).length = 8 ∧ (bitsOf 8 0xE7).countP id % 2 = 0 ∧ syndrome (bitsOf 8 0xE7) ≠ (false, false, false)) := by
  refine ⟨by decide, ⟨fun r => [r.getD 2 false, r.getD 4 false, r.getD 5 false, r.getD 6 false],
    fun r i => r.set i (!r.getD i false), fun _ => rfl, fun _ _ => rfl⟩, ?_⟩
  decide

theorem witness_EccdecDecodesBlocks :
    (ready t12a).cfgValid = true ∧ 1 < (bitsOf 16 0x0327).length / 8 := by decide

theorem witness_EccRoundTripAndErrors : 7 < 8 ∧ (6 < 7 ∧ 7 < 8) ∧ 0 < 1 ∧ 1 < 8 := by decide

theorem witness_AlphabetIsABijection : 0 < t12a.df ∧ 2 < 3 := ⟨by norm_num [t12a], by decide⟩

theorem witness_ToneFrequencies : 0 < t12a.df := by norm_num [t12a]

theorem witness_KeyBitsMostSignificantFirst : 1 < t12a.keyStart.length ∧ 7 < 8 := by decide

/-- Boundary: the last sample of the last, padded symbol. -/
theorem witness_ModbitsWaveform :
    ∃ (s : State) (bits : BitSeq) (k n : Nat), s.cfgValid = true ∧ k < (bits.length + 1) / 2 ∧ n < s.cfg.sps ∧
      bits.length % 2 = 1 :=
  ⟨ready t12a, bitsOf 3 0b101, 1, 11, rfl, by decide, by decide, by decide⟩

theorem witness_ModbitsWaveform_append :
    ∃ (s : State) (bits more : BitSeq) (v : SampleSeq), s.cfgValid = true ∧ bits.length % 2 = 0 ∧
      exec (.modbits more) s = .next (s.respond (.samples v) []) :=
  ⟨ready t12a, bitsOf 2 0b10, bitsOf 3 0b101, _, rfl, by decide, rfl⟩

theorem witness_BurstsStartAtPhaseZero : 11 < t12a.sps ∧ 1 ≤ cfgEnd.sps := by decide

theorem witness_ReferenceWaveforms :
    t12a.eccEn.start = true ∧ t12a.eccEn.stop = true ∧ t12c.eccEn.start = false ∧ t12c.eccEn.stop = false := by decide

theorem witness_TxframeIsThreeParts :
    ((ready t12a).cfgValid = true ∧ (ready t12a).cfg.eccEn = ⟨true, true, true⟩ ∧
      (bitsOf 16 0x4849).length = 8 * 2) ∧
    ((ready t12c).cfgValid = true ∧ (ready t12c).cfg.eccEn.start = false ∧ (ready t12c).cfg.eccEn.payload = false ∧
      (ready t12c).cfg.eccEn.stop = false) := by decide

/-- A reference longer than the signal by one; the shortest segment, of one sample; and none. -/
theorem witness_LocateFindsFirstMaxima :
    (ready cfgEnd).cfgValid = true ∧
    ((cfgEnd.startRef exactNum).length > 3 ∨ (cfgEnd.endRef exactNum).length > [q 1, q 1, q 1].length) ∧
    ((cfgEnd.startRef exactNum).length ≤ [q 0, q 1, q 1, q 1, q 1].length ∧
      (cfgEnd.endRef exactNum).length ≤ [q 0, q 1, q 1, q 1, q 1].length ∧
      FirstMax (corrAt [q 0, q 1, q 1, q 1, q 1] (cfgEnd.startRef exactNum))
        ([q 0, q 1, q 1, q 1, q 1].length - (cfgEnd.startRef exactNum).length + 1) 0 ∧
      FirstMax (corrAt [q 0, q 1, q 1, q 1, q 1] (cfgEnd.endRef exactNum))
        ([q 0, q 1, q 1, q 1, q 1].length - (cfgEnd.endRef exactNum).length + 1) 1 ∧
      0 + (cfgEnd.startRef exactNum).length < 1) ∧
    ((cfgEnd.startRef exactNum).length ≤ [q 1, q 1, q 1, q 1].length ∧
      (cfgEnd.endRef exactNum).length ≤ [q 1, q 1, q 1, q 1].length ∧
      FirstMax (corrAt [q 1, q 1, q 1, q 1] (cfgEnd.endRef exactNum))
        ([q 1, q 1, q 1, q 1].length - (cfgEnd.endRef exactNum).length + 1) 0 ∧
      0 ≤ 0 + (cfgEnd.startRef exactNum).length) :=
  ⟨rfl, by decide +kernel,
    ⟨by decide +kernel, by decide +kernel, corrAt_firstMax _ _ _ (by decide +kernel) (by decide +kernel),
      corrAt_firstMax _ _ _ (by decide +kernel) (by decide +kernel), by decide +kernel⟩,
    by decide +kernel, by decide +kernel, corrAt_firstMax _ _ _ (by decide +kernel) (by decide +kernel), by decide +kernel⟩

theorem witness_LocatorCornerCases :
    (∀ n, sampleAt (List.replicate 5 (q 0)) n = 0) ∧ cfgStart.keyEnd = [] ∧
    (cfgEnd.keyStart = [] ∧ (cfgEnd.endRef exactNum).length ≤ [q 0, q 1, q 1, q 1, q 1].length ∧
      FirstMax (corrAt [q 0, q 1, q 1, q 1, q 1] (cfgEnd.endRef exactNum))
        ([q 0, q 1, q 1, q 1, q 1].length - (cfgEnd.endRef exactNum).length + 1) 1) ∧
    (cfgStart.startRef exactNum).length = [q 0, q 1, q 1, q 1].length ∧
    ((0 : ℝ) < 2 ∧ [q 2].length = [q 1].length ∧ ∀ n, sampleAt [q 2] n = 2 * sampleAt [q 1] n) := by
  refine ⟨sampleAt_zero 5, rfl, ⟨rfl, by decide +kernel, corrAt_firstMax _ _ _ (by decide +kernel) (by decide +kernel)⟩,
    by decide +kernel, by norm_num, rfl, fun n => ?_⟩
  rw [sampleAt_rat 2 (by norm_num), sampleAt_rat 1 (by norm_num)]
  split <;> norm_num

theorem witness_DemodDecidesGreatestScore :
    (ready t12a).cfgValid = true ∧ 1 < (List.replicate 24 (q 1)).length / (ready t12a).cfg.sps := by decide

theorem witness_NormalisedScoreDecision :
    1 ≤ cfgEnd.sps ∧ [q 1].length = cfgEnd.sps ∧ ∀ i j, cfgEnd.gram i i = cfgEnd.gram j j := by
  refine ⟨by decide, by decide, fun i j => ?_⟩
  have e : cfgEnd.sps = 1 := by decide
  simp [Cfg.gram, e, Cfg.toneReal]

theorem witness_ZeroNoiseRoundTrip : cfgEnd.Legal ∧ (bitsOf 8 0b10110100).length % 2 = 0 ∧ 3 < 4 ∧ Row.r0 ≠ Row.r3 :=
  ⟨cfgEnd_legal, by decide, by decide, by decide⟩

theorem t12a_orthogonal : t12a.Orthogonal := by
  refine ⟨⟨by decide, by decide, by decide, by norm_num [t12a], ?_⟩, by decide, ⟨1, le_refl _, by norm_num [t12a]⟩,
    ⟨5, by norm_num [t12a]⟩, by norm_num [t12a, Cfg.freq], by norm_num [t12a, Cfg.freq]⟩
  intro n h
  cases h

theorem witness_OrthogonalTones : t12a.Orthogonal ∧ (bitsOf 8 0b10110100).length % 2 = 0 := ⟨t12a_orthogonal, by decide⟩

theorem exactNeg_sampleAt (x : SampleSeq) (n : Nat) : sampleAt (x.map (exactMul (exactOfRat (-1)))) n = -sampleAt x n := by
  by_cases h : n < x.length
  · have e : (x.map (exactMul (exactOfRat (-1))))[n]? = some (exactMul (exactOfRat (-1)) x[n]) := by simp [h]
    have e2 : x[n]? = some x[n] := by simp [h]
    rw [sampleAt_getElem? e, sampleAt_getElem? e2, exactMul_toReal, exactOfRat_toReal]
    push_cast
    ring
  · rw [sampleAt_beyond (by simpa using h), sampleAt_beyond (by simpa using h), neg_zero]

theorem witness_AmplitudeAndPolarity :
    ([q 2].length = [q 1].length ∧ (0 : ℝ) < 2 ∧ ∀ n, sampleAt [q 2] n = 2 * sampleAt [q 1] n) ∧
    ∀ j : Row, t12a.Orthogonal ∧
      ((t12a.tone exactNum j).map (exactMul (exactOfRat (-1)))).length = (t12a.tone exactNum j).length ∧
      ∀ n, sampleAt ((t12a.tone exactNum j).map (exactMul (exactOfRat (-1)))) n = -sampleAt (t12a.tone exactNum j) n :=
  ⟨witness_LocatorCornerCases.2.2.2.2.imp (fun h => h) (fun h => h) |> fun h => ⟨h.2.1, h.1, h.2.2⟩,
    fun _ => ⟨t12a_orthogonal, by simp, exactNeg_sampleAt _⟩⟩

/-- As for LOCATE; the payload not encoded, and encoded. -/
theorem witness_RxframeIsTheReceivePath :
    (ready cfgEnd).cfgValid = true ∧ (cfgEnd.endRef exactNum).length > [q 1, q 1, q 1].length ∧
    ((cfgEnd.startRef exactNum).length ≤ [q 1, q 1, q 1, q 1].length ∧
      (cfgEnd.endRef exactNum).length ≤ [q 1, q 1, q 1, q 1].length ∧
      FirstMax (corrAt [q 1, q 1, q 1, q 1] (cfgEnd.startRef exactNum))
        ([q 1, q 1, q 1, q 1].length - (cfgEnd.startRef exactNum).length + 1) 0 ∧
      FirstMax (corrAt [q 1, q 1, q 1, q 1] (cfgEnd.endRef exactNum))
        ([q 1, q 1, q 1, q 1].length - (cfgEnd.endRef exactNum).length + 1) 0 ∧
      0 ≤ 0 + (cfgEnd.startRef exactNum).length) ∧
    (0 + (cfgEnd.startRef exactNum).length < 1 ∧
      FirstMax (corrAt [q 0, q 1, q 1, q 1, q 1] (cfgEnd.endRef exactNum))
        ([q 0, q 1, q 1, q 1, q 1].length - (cfgEnd.endRef exactNum).length + 1) 1) ∧
    (ready cfgEnd).cfg.eccEn.payload = false ∧
    (ready { cfgEnd with eccEn := ⟨false, true, false⟩ }).cfg.eccEn.payload = true :=
  ⟨rfl, by decide +kernel,
    ⟨by decide +kernel, by decide +kernel, corrAt_firstMax _ _ _ (by decide +kernel) (by decide +kernel),
      corrAt_firstMax _ _ _ (by decide +kernel) (by decide +kernel), by decide +kernel⟩,
    ⟨by decide +kernel, witness_LocatorCornerCases.2.2.1.2.2⟩, rfl, rfl⟩

theorem witness_PaddingIsInvisible :
    (bitsOf 3 0b101).length % 2 = 1 ∧ (3 < 4 ∧ ((bitsOf 5 0b10110).length + 3) % 4 = 0) ∧
    ((bitsOf 8 0x27).length % 8 = 0 ∧ (bitsOf 7 0).length < 8) ∧
    ((tone12 .r1).length % (ready t12a).cfg.sps = 0 ∧ (List.replicate 11 (q 1)).length < (ready t12a).cfg.sps) ∧
    ((running cfgEnd).cfgValid = true ∧ (running cfgEnd).detRun = true ∧ (running cfgEnd).cfg.chunkLen = some 1 ∧
      ([q 1, q 1] : SampleSeq).length ≠ 1 ∧ ([] : SampleSeq).length ≠ 1 ∧ [q 1].length = 1) ∧
    ((ready cfgEnd).cfgValid = true ∧ [q 1, q 1, q 1].length < (cfgEnd.endRef exactNum).length) := by decide +kernel

theorem witness_DetstartRule :
    ((ready t12a).cfgValid = true ∧ (ready t12a).cfg.chunkLen = none) ∧
    ((ready t12b).cfgValid = true ∧ (ready t12b).cfg.chunkLen = some 96 ∧ (ready t12b).detRun = false) ∧
    ((running t12b).cfgValid = true ∧ (running t12b).cfg.chunkLen = some 96 ∧ (running t12b).detRun = true) := by decide

theorem witness_DetstopRule :
    (recording cfgEnd [q 1]).cfgValid = true ∧
    ((ready cfgEnd).cfgValid = true ∧ (ready cfgEnd).Inv ∧ (ready cfgEnd).detRun = false) :=
  ⟨rfl, rfl, ready_inv _ cfgEnd_legal, rfl⟩

theorem witness_TxGateSetAndClear : (recording cfgEnd [q 1]).cfgValid = true := rfl

theorem witness_RollingCorrelatorPeak :
    ([q 1].length ≤ [q 1].length ∧ [q 1].length < [q 1, q 1].length ∧ ([] : SampleSeq).length = 0) ∧
    ((0 : ℝ) < 2 ∧ [q 2].length = [q 1].length ∧ ∀ n, sampleAt [q 2] n = 2 * sampleAt [q 1] n) :=
  ⟨by decide, witness_LocatorCornerCases.2.2.2.2⟩

theorem witness_DetchunkRefusals :
    ((ready t12a).cfgValid = true ∧ (ready t12a).cfg.chunkLen = none) ∧
    ((ready t12b).cfg.chunkLen = some 96 ∧ (ready t12b).detRun = false) ∧
    ((running t12b).cfg.chunkLen = some 96 ∧ (running t12b).detRun = true ∧ (List.replicate 97 (q 0)).length ≠ 96) := by
  decide

/-- The gate closed; a hit and a miss, with the chunk the longer and the shorter; a miss at the threshold. -/
theorem witness_DetchunkInIdle :
    (State.txActive { running cfgEnd with txActive := true } = true ∧ (running cfgEnd).cfgValid = true ∧
      (running cfgEnd).detRun = true ∧ (running cfgEnd).detState = .idle ∧ cfgEnd.chunkLen = some [q 1].length) ∧
    (running cfgEnd).txActive = false ∧
    ((cfgEnd.startRef exactNum).length ≤ [q 1].length ∧
      ∃ k, k ≤ [q 1].length - (cfgEnd.startRef exactNum).length ∧
        (cfgEnd.thresh : ℝ) < corrAt [q 1] (cfgEnd.startRef exactNum) k) ∧
    ([q 1].length < (cfgStart.startRef exactNum).length ∧
      ∃ k, k ≤ (cfgStart.startRef exactNum).length - [q 1].length ∧
        (cfgStart.thresh : ℝ) < corrAt (cfgStart.startRef exactNum) [q 1] k) ∧
    ((cfgEnd.startRef exactNum).length ≤ [q 1].length ∧
      ∀ k, k ≤ [q 1].length - (cfgEnd.startRef exactNum).length →
        corrAt [q 1] (cfgEnd.startRef exactNum) k ≤ ((0 : Rat) : ℝ)) ∧
    ([q (-1)].length < (cfgStart.startRef exactNum).length ∧
      ∀ k, k ≤ (cfgStart.startRef exactNum).length - [q (-1)].length →
        corrAt (cfgStart.startRef exactNum) [q (-1)] k ≤ (cfgStart.thresh : ℝ)) := by
  have l0 : (cfgEnd.startRef exactNum).length = 0 := by decide +kernel
  have l1 : (cfgStart.startRef exactNum).length = 4 := by decide +kernel
  refine ⟨by decide, rfl, ⟨by rw [l0]; decide, 0, Nat.zero_le _, lt_corrAt _ _ _ _ (by rw [l0]; decide) (by decide +kernel)⟩,
    ⟨by rw [l1]; decide, 3, by rw [l1]; decide, lt_corrAt _ _ _ _ (by rw [l1]; decide) (by decide +kernel)⟩,
    ⟨by rw [l0]; decide, fun k hk => ?_⟩, by rw [l1]; decide, fun k hk => ?_⟩
  · have hk' : k ≤ 1 := by rw [l0] at hk; exact hk
    refine corrAt_le _ _ _ _ (by rw [l0]; exact hk') ?_
    interval_cases k <;> decide +kernel
  · have hk' : k ≤ 3 := by rw [l1] at hk; exact hk
    refine corrAt_le _ _ _ _ (by rw [l1]; simp only [List.length_singleton]; omega) ?_
    interval_cases k <;> decide +kernel

/-- A hit and a miss, with the chunk the longer and the shorter; a miss at the threshold. -/
theorem witness_DetchunkInRecording :
    ((recording cfgEnd [q 1]).cfgValid = true ∧ (recording cfgEnd [q 1]).detRun = true ∧
      (recording cfgEnd [q 1]).detState = .recording ∧ cfgEnd.chunkLen = some [q 1].length) ∧
    ([q 1].length < (cfgEnd.endRef exactNum).length ∧
      ∃ k, k ≤ (cfgEnd.endRef exactNum).length - [q 1].length ∧
        (cfgEnd.thresh : ℝ) < corrAt (cfgEnd.endRef exactNum) [q 1] k) ∧
    ((cfgStart.endRef exactNum).length ≤ [q 1].length ∧
      ∃ k, k ≤ [q 1].length - (cfgStart.endRef exactNum).length ∧
        (cfgStart.thresh : ℝ) < corrAt [q 1] (cfgStart.endRef exactNum) k) ∧
    ([q (-1)].length < (cfgEnd.endRef exactNum).length ∧
      ∀ k, k ≤ (cfgEnd.endRef exactNum).length - [q (-1)].length →
        corrAt (cfgEnd.endRef exactNum) [q (-1)] k ≤ (cfgEnd.thresh : ℝ)) ∧
    ((cfgStart.endRef exactNum).length ≤ [q 1].length ∧
      ∀ k, k ≤ [q 1].length - (cfgStart.endRef exactNum).length →
        corrAt [q 1] (cfgStart.endRef exactNum) k ≤ ((0 : Rat) : ℝ)) := by
  have e0 : cfgStart.endRef exactNum = cfgEnd.startRef exactNum := by decide +kernel
  have e1 : cfgEnd.endRef exactNum = cfgStart.startRef exactNum := by decide +kernel
  have h := witness_DetchunkInIdle
  rw [e0, e1]
  exact ⟨by decide, h.2.2.2.1, h.2.2.1, h.2.2.2.2.2, h.2.2.2.2.1⟩

theorem witness_DetchunkInRecording_invariant :
    (recording cfgEnd [q 1]).Inv ∧ (recording cfgEnd [q 1]).cfg.chunkLen = some [q 1].length := ⟨recording_inv, rfl⟩

theorem witness_TransmitGateActsOnlyInIdle :
    ((running cfgEnd).cfgValid = true ∧ (running cfgEnd).detRun = true ∧
      (running cfgEnd).cfg.chunkLen = some [q 1].length ∧ (running cfgEnd).detState = .idle ∧
      State.txActive { running cfgEnd with txActive := true } = true) ∧
    (recording cfgEnd [q 1]).detState = .recording := by decide

/-- Boundary: the limit reached, and passed by one chunk. -/
theorem witness_FrameLengthLimit :
    ((recording cfgEnd [q 1]).cfgValid = true ∧ (recording cfgEnd [q 1]).cfg.chunkLen = some 1 ∧ [q 1].length = 1 ∧ (recording cfgEnd [q 1]).detRun = true ∧
      (recording cfgEnd [q 1]).detState = .recording) ∧
    (1 * 1 < (recording cfgEnd [q 1]).detBuf.length + 1 ∧ ∃ k, (recording cfgEnd [q 1]).detBuf.length = k * 1) ∧
    (recording cfgEnd [q 1]).detBuf.length + 1 ≤ 2 * 1 ∧
    (running cfgEnd).detState = .idle ∧ (running cfgEnd).cfgValid = true :=
  ⟨by decide, ⟨by decide, 1, rfl⟩, by decide, rfl, rfl⟩

/-- The inputs of the scenario: c1 = c5 = `1`, c2 = c3 = c4 = `-1`. -/
def scenarioInputs : List Input :=
  [[q 1], [q (-1)], [q (-1)], [q (-1)], [q 1]].map fun x => .command (encode (.detchunk x))

theorem witness_DetectorScenario :
    State.cfgValid { running cfgEnd with inputs := scenarioInputs } = true ∧
    (running cfgEnd).detRun = true ∧ (running cfgEnd).detState = .idle ∧ (running cfgEnd).txActive = false ∧
    (running cfgEnd).cfg.chunkLen = some [q 1].length ∧ [q (-1)].length = [q 1].length ∧
    hit exactNum cfgEnd.thresh [q 1] (cfgEnd.startRef exactNum) = true ∧
    hit exactNum cfgEnd.thresh [q (-1)] (cfgEnd.endRef exactNum) = false ∧
    hit exactNum cfgEnd.thresh [q 1] (cfgEnd.endRef exactNum) = true ∧
    scenarioInputs = [[q 1], [q (-1)], [q (-1)], [q (-1)], [q 1]].map
      (fun x => Input.command (encode (.detchunk x))) ++ [] := by decide +kernel

theorem witness_DetectorCornerCases :
    (∀ n, sampleAt (List.replicate 5 (q 0)) n = 0) ∧ cfgEnd.keyStart = [] ∧ cfgStart.keyEnd = [] :=
  ⟨sampleAt_zero 5, rfl, rfl⟩

theorem witness_DetectorNeverStopsItself :
    (∃ s s' : State, step s = .next s' ∧ s.detRun = true ∧ s'.detRun = false) ∧
    ∃ s s' : State, exec (.rxframe []) s = .next s' ∧ s.detState = .recording :=
  ⟨⟨{ recording cfgEnd [q 1] with inputs := [.command (encode .detstop)] }, _, rfl, rfl, rfl⟩,
    recording cfgStart [q 1], _, (exec_effect _ _).choose_spec.1, rfl⟩

theorem witness_DetectorUndisturbed :
    ∃ (s s' : State) (i : Instr), exec i s = .next s' ∧ i ≠ .detstart ∧ i ≠ .detstop ∧ (∀ x, i ≠ .detchunk x) ∧
      i ≠ .txon ∧ i ≠ .txoff :=
  ⟨recording cfgEnd [q 1], _, .rdstat, rfl, by decide, by decide, (by intro x h; cases h), by decide, by decide⟩

theorem witness_StepKeepsInvariant : ∃ s s' : State, s.Inv ∧ s.detBuf ≠ [] ∧ step s = .next s' :=
  ⟨recording cfgEnd [q 1], _, recording_inv, by simp [recording], rfl⟩

theorem witness_ConfigurationIsImmutable :
    (∃ (s s' : State) (i : Instr), s.cfgValid = true ∧ exec i s = .next s') ∧
    ∃ s s' : State, s.cfgValid = true ∧ step s = .next s' :=
  ⟨⟨ready t12a, _, .cfgload t12aRec, rfl, rfl⟩, { ready t12a with inputs := [.reset] }, _, rfl, rfl⟩

theorem witness_OneResponsePerCommand :
    ∃ (s s' : State) (c : Command) (rest : List Input) (v : Result) (ev : List Event),
      s.inputs = .command c :: rest ∧ step s = .next s' ∧ s'.responses = s.responses ++ [.ok v ev] :=
  ⟨pending t12a .rdstat, _, encode .rdstat, [], _, _, rfl, rfl, rfl⟩

theorem witness_EventsMarkTransitions :
    (∃ (s s' : State) (c : Command) (rest : List Input) (r : Response), s.inputs = .command c :: rest ∧
      step s = .next s' ∧ s'.responses = s.responses ++ [r]) ∧
    reply (step { running cfgEnd with inputs := [.command (encode (.detchunk [q 1]))] }) =
      some (.ok .empty [.startOfFrame]) ∧
    reply (step { recording cfgEnd [q 0] with inputs := [.command (encode (.detchunk [q 1]))] }) =
      some (.ok .empty [.frameComplete [q 0, q 1]]) :=
  ⟨⟨pending t12a .txon, _, encode .txon, [], _, rfl, rfl, rfl⟩, by decide +kernel⟩

theorem witness_RaisedErrorsChangeNothing :
    ∃ (s s' : State) (c : Command) (rest : List Input) (e : Error),
      s.inputs = .command c :: rest ∧ step s = .next s' ∧ s'.responses = s.responses ++ [.error e] :=
  ⟨pending t12a .detstart, _, encode .detstart, [], .notConfigured, rfl, rfl, rfl⟩

theorem witness_PureCommandsAreFunctions :
    (ready t12a).cfgValid = State.cfgValid { ready t12a with uncorrCnt := 1#32, txActive := true } ∧
    (ready t12a).cfg = State.cfg { ready t12a with uncorrCnt := 1#32, txActive := true } ∧
    (∃ b, (.eccenc [true] : Instr) = .eccenc b) ∧ (∃ x, Instr.locate [q 1] = .locate x) ∧
    (∃ b, (.eccdec [true] : Instr) = .eccdec b) ∧
    ∃ x, Instr.rxframe [q 1] = .rxframe x :=
  ⟨rfl, rfl, ⟨_, rfl⟩, ⟨_, rfl⟩, ⟨_, rfl⟩, _, rfl⟩

theorem witness_CounterWrittenOnlyByDecoders :
    (∃ s s' : State, step s = .next s' ∧ s.inputs = [.reset] ∧ s.uncorrCnt ≠ s'.uncorrCnt) ∧
    (final (step (pending t12a (.eccdec (bitsOf 8 0x03))))).map (fun s => s.uncorrCnt) = some 1#32 :=
  ⟨⟨{ ready t12a with uncorrCnt := 1#32, inputs := [.reset] }, _, rfl, rfl, by decide⟩, by decide +kernel⟩

theorem witness_EmittedWaveformsAreCanonical :
    ∃ (s s' : State) (b : BitSeq) (w : SampleSeq), exec (.modbits b) s = .next s' ∧
      s'.responses = s.responses ++ [.ok (.samples w) []] := ⟨ready t12a, _, [true], _, rfl, rfl⟩

/-! ## Every build, and every real operand -/

/-- R41 with another CNT_W: `min(2 + 5, 2^2 - 1) = 3`. -/
theorem test_counter_width : satAdd (2#2) 5 = 3#2 := by decide

/-- V38 as a command of the build with `SCORE = NDOT`. -/
theorem test_ndot_build :
    reply (execWith { Build.decided with score := .ndot } (.demod (modulate exactNum t8 (bitsOf 8 0b10110100))) (ready t8)) =
      some (.ok (.bits (bitsOf 8 0b10110111)) []) := by decide +kernel

theorem witness_RealBlockRunsAlike :
    Build.decided.num = exactNum ∧
    (∃ (i : Instr) (s t : State Sample 2), execWith Build.decided i s = .next t) ∧
    ∃ s t : State Sample 2, s.inputs ≠ [] ∧ stepWith Build.decided s = .next t :=
  ⟨rfl, ⟨.modbits [true], State.initial, _, rfl⟩,
    { State.initial with inputs := [.command (encode .rdstat)] }, _, by simp, rfl⟩

/-- The limit reached by the buffer held. -/
theorem witness_EveryBuildKeepsInvariant :
    (∀ m, ({ Build.decided with maxFrameChunks := some 1 } : Build Sample).maxFrameChunks = some m → 1 ≤ m) ∧
    ∃ s s' : State, s.Inv ∧ s.WithinLimit (some 1) ∧ s.detBuf ≠ [] ∧
      stepWith { Build.decided with maxFrameChunks := some 1 } s = .next s' := by
  refine ⟨fun m h => by cases h; exact le_refl _, recording cfgEnd [q 1], _, recording_inv, ?_, by simp [recording], rfl⟩
  intro m n hm hn
  cases hm
  cases hn
  exact le_refl _

/-- A block over the real numbers, configured as `c`. -/
def readyReal (c : Cfg) : State ℝ := { State.initial with cfgValid := true, cfg := c }

theorem realStartRef (c : Cfg) : c.startRef realNum = waveReal (c.startRef exactNum) := (exactNum_hom.startRef c).symm

theorem realEndRef (c : Cfg) : c.endRef realNum = waveReal (c.endRef exactNum) := (exactNum_hom.endRef c).symm

theorem corrReal_single (r : List ℝ) (a : ℝ) (k : Nat) : corrReal r [a] k = r.getD k 0 * a := by
  simp [corrReal]

/-- END_REF of `cfgEnd` is `1,1,1,1`. -/
theorem cfgEnd_endRef (k : Nat) (h : k ≤ 3) : (cfgEnd.endRef realNum).getD k 0 = 1 := by
  have e : cfgEnd.endRef exactNum = [q 1, q 1, q 1, q 1] := by decide +kernel
  rw [realEndRef, e]
  interval_cases k <;> simp [waveReal, q, Sample.toReal, CosTerm.toReal]

/-- Operands that are no sums of cosines of rational turns: π. A reference longer than the signal; the
shortest segment, and none; a tied score; a segment, with the payload not encoded and encoded; a hit and a
miss of either reference. -/
theorem witness_RealOperandsAreReceived :
    (realBuild.num = realNum ∧ (readyReal cfgEnd).cfgValid = true ∧
      (cfgEnd.endRef realNum).length > [Real.pi].length ∧ [Real.pi].length = 1) ∧
    (∃ x : List ℝ, (cfgEnd.startRef realNum).length ≤ x.length ∧ (cfgEnd.endRef realNum).length ≤ x.length ∧
      FirstMax (corrReal x (cfgEnd.startRef realNum)) (x.length - (cfgEnd.startRef realNum).length + 1) 0 ∧
      FirstMax (corrReal x (cfgEnd.endRef realNum)) (x.length - (cfgEnd.endRef realNum).length + 1) 1 ∧
      0 + (cfgEnd.startRef realNum).length < 1) ∧
    (∃ x : List ℝ, (cfgEnd.startRef realNum).length ≤ x.length ∧ (cfgEnd.endRef realNum).length ≤ x.length ∧
      FirstMax (corrReal x (cfgEnd.endRef realNum)) (x.length - (cfgEnd.endRef realNum).length + 1) 0 ∧
      0 ≤ 0 + (cfgEnd.startRef realNum).length) ∧
    (realBuild.score = .dot ∧ 0 < [Real.pi].length / cfgEnd.sps ∧
      FirstMax (fun i => ∑ n ∈ Finset.range cfgEnd.sps,
        [Real.pi].getD (0 * cfgEnd.sps + n) 0 * cfgEnd.toneReal (Row.ofIndex i) n) 4 0) ∧
    execWith realBuild (.locate [Real.pi]) (readyReal cfgEnd) = .next ((readyReal cfgEnd).raise .noSyncFound) ∧
    ((∃ (x : List ℝ) (a b : Nat) (out : BitSeq),
      execWith realBuild (.locate x) (readyReal cfgEnd) = .next ((readyReal cfgEnd).respond (.indices a b) []) ∧
      execWith realBuild (.demod ((x.drop a).take (b - a))) (readyReal cfgEnd) =
        .next ((readyReal cfgEnd).respond (.bits out) [])) ∧
      cfgEnd.eccEn.payload = false ∧ ({ cfgEnd with eccEn := ⟨false, true, false⟩ } : Cfg).eccEn.payload = true) ∧
    (cfgEnd.chunkLen = some [Real.pi].length ∧
      HitReal cfgEnd.thresh [Real.pi] (cfgEnd.startRef realNum) ∧ ¬HitReal 0 [Real.pi] (cfgEnd.startRef realNum)) ∧
    (realBuild.maxFrameChunks = none ∧
      HitReal cfgEnd.thresh [Real.pi] (cfgEnd.endRef realNum) ∧ ¬HitReal cfgEnd.thresh [-Real.pi] (cfgEnd.endRef realNum)) := by
  have l0 : (cfgEnd.startRef realNum).length = 0 := by rw [realStartRef, waveReal_length]; decide +kernel
  have l1 : (cfgEnd.endRef realNum).length = 4 := by rw [realEndRef, waveReal_length]; decide +kernel
  have hpi := Real.pi_gt_three
  have hth : ((cfgEnd.thresh : Rat) : ℝ) = -1 := by norm_num [cfgEnd]
  have hw := witness_LocateFindsFirstMaxima
  have hsps : cfgEnd.sps = 1 := by decide
  have hnil : cfgEnd.startRef realNum = [] := List.length_eq_zero_iff.1 l0
  refine ⟨⟨rfl, rfl, by rw [l1]; decide, rfl⟩, ⟨waveReal [q 0, q 1, q 1, q 1, q 1], ?_⟩, ⟨waveReal [q 1, q 1, q 1, q 1], ?_⟩,
    ⟨rfl, by decide, ?_⟩, ?_, ⟨⟨waveReal [q 0, q 1, q 1, q 1, q 1], 0, 1, _, ?_, rfl⟩, rfl, rfl⟩, ⟨rfl, ?_, ?_⟩, rfl, ?_, ?_⟩
  · rw [realStartRef, realEndRef, ← corrAt_eq, ← corrAt_eq]
    simpa only [waveReal_length] using hw.2.2.1
  · rw [realStartRef, realEndRef, ← corrAt_eq]
    simpa only [waveReal_length] using hw.2.2.2
  · refine ⟨by decide, fun k hk => ?_, fun k hk => absurd hk (Nat.not_lt_zero k)⟩
    simp [hsps, Cfg.toneReal]
  · have e : locateFrame realBuild.num [Real.pi] (cfgEnd.startRef realBuild.num) (cfgEnd.endRef realBuild.num) = none :=
      if_pos (.inr (by show (cfgEnd.endRef realNum).length > _; rw [l1]; decide))
    rw [execWith, locateWith, configured_of_valid rfl, show (readyReal cfgEnd).cfg = cfgEnd from rfl, e]
  · have e : locateFrame exactNum [q 0, q 1, q 1, q 1, q 1] (cfgEnd.startRef exactNum) (cfgEnd.endRef exactNum) =
        some (0, 1) := by decide +kernel
    rw [exactNum_hom.locateFrame, exactNum_hom.startRef, exactNum_hom.endRef] at e
    have e' : locateFrame realBuild.num (waveReal [q 0, q 1, q 1, q 1, q 1]) (cfgEnd.startRef realBuild.num)
        (cfgEnd.endRef realBuild.num) = some (0, 1) := e
    rw [execWith, locateWith, configured_of_valid rfl, show (readyReal cfgEnd).cfg = cfgEnd from rfl, e']
  · refine .inl ⟨by rw [l0]; decide, 0, Nat.zero_le _, ?_⟩
    rw [hth, hnil]
    simp [corrReal]
  · rintro (⟨-, k, -, h⟩ | ⟨h, -⟩)
    · rw [hnil] at h
      simp [corrReal] at h
    · rw [l0] at h
      exact absurd h (Nat.not_lt_zero _)
  · refine .inr ⟨by rw [l1]; decide, 0, Nat.zero_le _, ?_⟩
    rw [hth, corrReal_single, cfgEnd_endRef 0 (by decide)]
    linarith
  · rintro (⟨h, -⟩ | ⟨-, k, hk, h⟩)
    · rw [l1] at h
      exact absurd h (by decide)
    · rw [hth, corrReal_single, cfgEnd_endRef k (by rw [l1] at hk; exact hk)] at h
      linarith

end Sys2Proof.Tests
end

section
/-! PROOFS. The state of the block: reset, configuration registers, counter, derived tables and reference
waveforms (10_state.md). -/

namespace Sys2Proof.Machine

variable {S : Type} {w : Nat}

/-! ## The block without a configuration (10_state.md R51, 40_control.md R90 to R92) -/

/-- CFGLOAD while a configuration is loaded is refused (40_control.md R90). -/
theorem cfgloadOn_of_valid {s : State S w} (hv : s.cfgValid = true) (r : CfgRecord) :
    cfgloadOn r s = .next (s.raise .configLocked) := by
  simp [cfgloadOn, hv]

theorem cfgloadOn_of_error {s : State S w} (hv : s.cfgValid = false) {r : CfgRecord} {e : Error}
    (hl : loadCfg r = .error e) : cfgloadOn r s = .next (s.raise e) := by
  simp [cfgloadOn, hv, hl]

theorem cfgloadOn_of_ok {s : State S w} (hv : s.cfgValid = false) {r : CfgRecord} {cf : Cfg}
    (hl : loadCfg r = .ok cf) :
    cfgloadOn r s = .next (State.respond { s with cfgValid := true, cfg := cf } .empty []) := by
  simp [cfgloadOn, hv, hl]

/-- Without a configuration DET_NCHUNKS reads 0, whatever CHUNK_LEN holds. -/
theorem State.detNchunks_of_invalid {s : State S w} (hv : s.cfgValid = false) : s.detNchunks = 0 := by
  simp [State.detNchunks, hv]

/-- `t'` is what `t` becomes when the command began with the registers `c`: a loaded configuration has
overwritten them, else they stand. -/
def SameButUnloadedCfg (c : Cfg) (t t' : State S w) : Prop :=
  (t.cfgValid = true → t' = t) ∧ (t.cfgValid = false → t' = { t with cfg := c })

theorem sameButUnloadedCfg_refl (c : Cfg) {t : State S w} (hv : t.cfgValid = true) : SameButUnloadedCfg c t t :=
  ⟨fun _ => rfl, by simp [hv]⟩

theorem sameButUnloadedCfg_replace (c : Cfg) {t : State S w} (hv : t.cfgValid = false) :
    SameButUnloadedCfg c t { t with cfg := c } :=
  ⟨by simp [hv], fun _ => rfl⟩

/-- RDSTAT reads no configuration register while CFG_VALID is 0. -/
theorem rdstatOn_replaceCfg {s : State S w} (c : Cfg) (hv : s.cfgValid = false) :
    rdstatOn { s with cfg := c } =
      .next { s.respond (.stat s.statusWord s.uncorrCnt s.detNchunks) [] with cfg := c } := by
  have hv' : ({ s with cfg := c } : State S w).cfgValid = false := hv
  rw [rdstatOn, State.detNchunks_of_invalid hv, State.detNchunks_of_invalid hv']
  rfl

/-- While no configuration is loaded, a command makes the same of other contents of the configuration
registers. -/
theorem execWith_replaceCfg (P : Build S) (s : State S w) (c : Cfg) (i : Instr S) (hv : s.cfgValid = false) :
    ∃ t t', execWith P i s = .next t ∧ execWith P i { s with cfg := c } = .next t' ∧ SameButUnloadedCfg c t t' := by
  have hv' : ({ s with cfg := c } : State S w).cfgValid = false := hv
  cases i with
  | cfgload r =>
    cases hl : loadCfg r with
    | error e => exact ⟨_, _, cfgloadOn_of_error hv hl, cfgloadOn_of_error hv' hl, sameButUnloadedCfg_replace c hv⟩
    | ok cf => exact ⟨_, _, cfgloadOn_of_ok hv hl, cfgloadOn_of_ok hv' hl, sameButUnloadedCfg_refl c rfl⟩
  | rdstat => exact ⟨_, _, rfl, rdstatOn_replaceCfg c hv, sameButUnloadedCfg_replace c hv⟩
  | _ =>
    exact ⟨_, _, configured_of_invalid hv _, configured_of_invalid hv' _, sameButUnloadedCfg_replace c hv⟩

/-- Settles O1: the preamble refuses every command that would read the registers, RDSTAT reads none of them,
and CFGLOAD overwrites them all or none. -/
theorem resetLeavesTheSpecValues : Obligations.ResetLeavesTheSpecValues := by
  refine ⟨⟨rfl, rfl, rfl, rfl, rfl, rfl⟩, fun s t c i hv h => ?_⟩
  obtain ⟨t₀, t', h₀, h', hsame⟩ := execWith_replaceCfg Build.decided s c i hv
  rw [exec_eq_execWith, h₀] at h
  injection h with h
  subst h
  exact ⟨t', (exec_eq_execWith _ _).trans h', hsame⟩

/-! ## A loaded configuration (10_state.md R33) -/

/-- Every effect of a command keeps a loaded configuration. -/
theorem Effect.keeps_loaded_cfg {P : Build S} {s s' : State S w} {i : Instr S} (he : Effect P s i s')
    (hv : s.cfgValid = true) : s'.cfgValid = true ∧ s'.cfg = s.cfg := by
  cases he with
  | loaded c cf hv' => exact absurd hv (by simp [hv'])
  | _ => simp [hv]

theorem exec_keeps_loaded_cfg {s s' : State} {i : Instr} (h : exec i s = .next s') (hv : s.cfgValid = true) :
    s'.cfgValid = true ∧ s'.cfg = s.cfg :=
  (effect_of_exec h).keeps_loaded_cfg hv

/-- A step keeps a loaded configuration, or is the reset event. -/
theorem step_keeps_loaded_cfg {s s' : State} (h : step s = .next s') (hv : s.cfgValid = true) :
    (s'.cfgValid = true ∧ s'.cfg = s.cfg) ∨ ∃ rest, s.inputs = .reset :: rest ∧ s'.cfgValid = false := by
  rcases step_cases h with ⟨-, rfl⟩ | ⟨rest, hin, rfl⟩ | ⟨c, rest, i, -, -, hex⟩ | ⟨c, rest, e, -, -, rfl⟩
  · exact .inl ⟨hv, rfl⟩
  · exact .inr ⟨rest, hin, rfl⟩
  · have hkept := exec_keeps_loaded_cfg hex hv
    exact .inl hkept
  · exact .inl ⟨hv, rfl⟩

/-- Settles O50, from the list of a command's effects and the cases of a step. -/
theorem configurationIsImmutable : Obligations.ConfigurationIsImmutable :=
  ⟨fun _ _ _ hv h => exec_keeps_loaded_cfg h hv, fun _ _ hv h => step_keeps_loaded_cfg h hv,
    fun _ c hv => cfgloadOn_of_valid hv c⟩

/-! ## The counter (10_state.md R41) -/

theorem le_satAdd (c : BitVec w) (n : Nat) : c.toNat ≤ (satAdd c n).toNat := by
  rw [satAdd_toNat]
  exact le_min (Nat.le_add_right _ _) (Nat.le_sub_one_of_lt c.isLt)

/-- Once saturated the counter stays so, hence two increments are one. -/
theorem satAdd_satAdd (c : BitVec w) (m n : Nat) : satAdd (satAdd c m) n = satAdd c (m + n) := by
  apply BitVec.eq_of_toNat_eq
  simp only [satAdd_toNat]
  omega

/-- Settles O17. -/
theorem counterSaturates : Obligations.CounterSaturates := by
  refine fun w => ⟨fun c n => ⟨satAdd_toNat c n, le_satAdd c n⟩, satAdd_satAdd, fun c m n => ?_⟩
  rw [satAdd_satAdd, satAdd_satAdd, Nat.add_comm]

/-! ## The tone frequencies (10_state.md R45) -/

/-- Neighbouring rows are DF apart, so the tones rise strictly when `DF > 0`. -/
theorem freq_strictly_rising (c : Cfg) (h : 0 < c.df) :
    c.freq .r0 < c.freq .r1 ∧ c.freq .r1 < c.freq .r2 ∧ c.freq .r2 < c.freq .r3 := by
  refine ⟨?_, ?_, ?_⟩ <;>
  · simp only [Cfg.freq]
    linarith

/-- Settles O19. -/
theorem toneFrequencies : Obligations.ToneFrequencies :=
  fun c => ⟨rfl, rfl, rfl, rfl, freq_strictly_rising c⟩

/-! ## The key bits (10_state.md R47, 00_scope.md R11) -/

/-- Bit `i` of a byte, counted from the most significant one. -/
theorem byteBits_getElem? (b : Byte) (i : Nat) (hi : i < 8) :
    (byteBits b)[i]? = some (decide (b.toNat / 2 ^ (7 - i) % 2 = 1)) := by
  simp [byteBits, hi, BitVec.getLsbD, Nat.testBit_eq_decide_div_mod_eq]

/-- Bit `8k + i` of an expansion is bit `i` of byte `k`. -/
theorem bytesToBits_getElem? (bs : ByteSeq) (k i : Nat) (hk : k < bs.length) (hi : i < 8) :
    (bytesToBits bs)[8 * k + i]? = (byteBits bs[k])[i]? := by
  rw [Nat.mul_comm, bytesToBits, flatMap_getElem?_const bs byteBits 8 k i (fun b _ => byteBits_length b) hi hk]

/-- Settles O20. -/
theorem keyBitsMostSignificantFirst : Obligations.KeyBitsMostSignificantFirst := by
  refine ⟨fun c => ⟨rfl, rfl, bytesToBits_length _, bytesToBits_length _⟩, fun bs k i hk hi => ?_⟩
  rw [bytesToBits_getElem? bs k i hk hi, byteBits_getElem? _ i hi, List.getD_eq_getElem _ _ hk]

/-! ## The reference bursts (10_state.md R46, 42_modulator.md R133) -/

/-- Reducing a phase in turns to [0, 1) keeps its cosine. -/
theorem cos_mod1 (x : Rat) : Real.cos (2 * Real.pi * (mod1 x : ℝ)) = Real.cos (2 * Real.pi * (x : ℝ)) :=
  cos_turn_fract x

/-- A phase accumulator may reduce its step: `n` reduced steps differ from `n` steps by whole turns. -/
theorem cos_nat_mul_mod1 (n : Nat) (x : Rat) :
    Real.cos (2 * Real.pi * ((n * mod1 x : Rat) : ℝ)) = Real.cos (2 * Real.pi * ((n * x : Rat) : ℝ)) := by
  have h : 2 * Real.pi * ((n * mod1 x : Rat) : ℝ) =
      2 * Real.pi * ((n * x : Rat) : ℝ) - ((n * x.floor : ℤ) : ℝ) * (2 * Real.pi) := by
    simp only [mod1]
    push_cast
    ring
  rw [h, Real.cos_sub_int_mul_two_pi]

/-- Sample `n` of a burst as the cosine of a phase in turns. -/
theorem toneReal_eq_cos_turns (c : Cfg) (i : Row) (n : Nat) :
    c.toneReal i n = Real.cos (2 * Real.pi * ((c.freq i * n / c.fs : Rat) : ℝ)) := by
  rw [Cfg.toneReal]
  congr 1
  push_cast
  ring

/-- The same sample as the cosine of a reduced phase. -/
theorem toneReal_eq_cos_phase (c : Cfg) (i : Row) (n : Nat) :
    c.toneReal i n = Real.cos (2 * Real.pi * (mod1 (c.freq i * n / c.fs) : Rat)) := by
  rw [cos_mod1, toneReal_eq_cos_turns]

/-- The same sample from a phase accumulator with a reduced step. -/
theorem toneReal_eq_cos_accumulated (c : Cfg) (i : Row) (n : Nat) :
    c.toneReal i n = Real.cos (2 * Real.pi * (mod1 (n * mod1 (c.freq i / c.fs)) : Rat)) := by
  rw [cos_mod1, cos_nat_mul_mod1, toneReal_eq_cos_turns, mul_comm (n : Rat), div_mul_eq_mul_div]

@[simp] theorem toneReal_zero (c : Cfg) (i : Row) : c.toneReal i 0 = 1 := by simp [Cfg.toneReal]

/-- Every sample of a burst lies in [-1, 1], the 0 read beyond its end included. -/
theorem abs_sampleAt_tone_le_one (c : Cfg) (i : Row) (n : Nat) : |sampleAt (c.tone exactNum i) n| ≤ 1 := by
  rcases Nat.lt_or_ge n c.sps with hn | hn
  · rw [sampleAt_tone c i n hn]
    exact Real.abs_cos_le_one _
  · simp [sampleAt_beyond (x := c.tone exactNum i) (n := n) (by simpa using hn)]

/-- Settles O22. -/
theorem burstsStartAtPhaseZero : Obligations.BurstsStartAtPhaseZero := by
  refine fun c i => ⟨tone_length _ c i, fun n hn => ?_, fun h => ?_, abs_sampleAt_tone_le_one c i⟩
  · rw [sampleAt_tone c i n hn]
    exact ⟨rfl, toneReal_eq_cos_phase c i n, toneReal_eq_cos_accumulated c i n⟩
  · rw [sampleAt_tone c i 0 h, toneReal_zero]

/-! ## The reference waveforms (10_state.md R48 to R50) -/

/-- Eight coded bits for every four bits of the padded input (41_ecc.md R102). -/
@[simp] theorem eccEncode_length (bits : BitSeq) : (eccEncode bits).length = 8 * ((bits.length + 3) / 4) := by
  rw [eccEncode, flatMap_length_const _ _ 8 fun _ _ => rfl, granules_length, padBits_granules 4 (by decide)]

/-- SPS samples for every symbol (42_modulator.md R134). -/
@[simp] theorem modulate_length (N : Num S) (c : Cfg) (bits : BitSeq) :
    (modulate N c bits).length = c.sps * ((bits.length + 1) / 2) := by
  rw [modulate, flatMap_length_const _ _ c.sps fun i _ => tone_length N c i, symbolRows_length]

theorem codedIf_of_enabled {enable : Bit} (h : enable = true) (bits : BitSeq) :
    codedIf enable bits = eccEncode bits :=
  if_pos h

theorem codedIf_of_disabled {enable : Bit} (h : enable = false) (bits : BitSeq) : codedIf enable bits = bits := by
  rw [h]
  rfl

/-- A coded key has sixteen bits a byte when it is encoded, else eight. -/
theorem codedIf_bytesToBits_length (enable : Bit) (key : ByteSeq) :
    (codedIf enable (bytesToBits key)).length = if enable then 16 * key.length else 8 * key.length := by
  cases enable with
  | false => exact bytesToBits_length key
  | true =>
    rw [codedIf_of_enabled rfl, eccEncode_length, bytesToBits_length, if_pos rfl]
    omega

/-- The waveform of a coded key has SPS/2 samples a bit: the number of bits is even. -/
theorem modulate_codedKey_length (N : Num S) (c : Cfg) (enable : Bit) (key : ByteSeq) :
    2 * (modulate N c (codedIf enable (bytesToBits key))).length =
      c.sps * (codedIf enable (bytesToBits key)).length := by
  have heven : (codedIf enable (bytesToBits key)).length % 2 = 0 := by
    rw [codedIf_bytesToBits_length]
    split <;> omega
  rw [modulate_length, Nat.mul_left_comm]
  congr 1
  omega

/-- The waveform of an encoded key has 8 SPS samples a byte. -/
theorem modulate_encodedKey_length (N : Num S) (c : Cfg) {enable : Bit} (h : enable = true) (key : ByteSeq) :
    (modulate N c (codedIf enable (bytesToBits key))).length = 8 * c.sps * key.length := by
  have hlen := modulate_codedKey_length N c enable key
  rw [codedIf_bytesToBits_length, if_pos h] at hlen
  linarith

/-- Settles O23: the start and the end key are both cases of a coded key. -/
theorem referenceWaveforms : Obligations.ReferenceWaveforms :=
  fun c => ⟨fun h => ⟨codedIf_of_enabled h _, modulate_encodedKey_length _ c h _⟩, fun h => codedIf_of_disabled h _,
    fun h => ⟨codedIf_of_enabled h _, modulate_encodedKey_length _ c h _⟩, fun h => codedIf_of_disabled h _,
    rfl, modulate_codedKey_length _ c _ _, rfl, modulate_codedKey_length _ c _ _⟩

end Sys2Proof.Machine
end

section
/-! PROOFS. Operand buffers and the functional commands: padding and truncation (20_memory.md R67), and what
a result depends on (20_memory.md R72). -/

namespace Sys2Proof.Machine

variable {S : Type} {w : Nat}

/-! ## The functional commands, as functions of the configuration and the operand (20_memory.md R72) -/

theorem exec_eccenc (b : BitSeq) (s : State) :
    exec (.eccenc b) s = configured s (.next (s.respond (.bits (eccEncode b)) [])) := rfl

theorem exec_eccdec (b : BitSeq) (s : State) :
    exec (.eccdec b) s = configured s (.next ((s.countGuessed (eccDecode Config.guess2 b).2).respond
      (.bitsGuessed (eccDecode Config.guess2 b).1 (eccDecode Config.guess2 b).2) [])) := rfl

theorem exec_modbits (b : BitSeq) (s : State) :
    exec (.modbits b) s = configured s (.next (s.respond (.samples (modulate exactNum s.cfg b)) [])) := rfl

theorem exec_txframe (b : BitSeq) (s : State) :
    exec (.txframe b) s = configured s (.next (s.respond (.samples (frame exactNum s.cfg b)) [])) := rfl

theorem exec_demod (x : SampleSeq) (s : State) :
    exec (.demod x) s =
      configured s (.next (s.respond (.bits (demodulate exactNum Config.score s.cfg x)) [])) := rfl

theorem locateWith_of_none {P : Build S} {s : State S w} {x : List S} (hv : s.cfgValid = true)
    (hl : locateFrame P.num x (s.cfg.startRef P.num) (s.cfg.endRef P.num) = none) :
    locateWith P x s = .next (s.raise .noSyncFound) := by
  simp [locateWith, hv, hl]

theorem locateWith_of_some {P : Build S} {s : State S w} {x : List S} {b e : Nat} (hv : s.cfgValid = true)
    (hl : locateFrame P.num x (s.cfg.startRef P.num) (s.cfg.endRef P.num) = some (b, e)) :
    locateWith P x s = .next (s.respond (.indices b e) []) := by
  simp [locateWith, hv, hl]

/-- `o` is an answer from `s` and `o'` one from `t`: both deliver the same response, count the same `n` guessed
blocks, and write nothing else. -/
def AnswersAlike (s t : State S w) (n : Nat) (o o' : Out S w) : Prop :=
  ∃ r : Response S w,
    o = .next { s.countGuessed n with responses := s.responses ++ [r] } ∧
    o' = .next { t.countGuessed n with responses := t.responses ++ [r] }

section
variable {s t : State S w} {o o' : Out S w} {n : Nat}

theorem answersAlike_respond (n : Nat) (r : Result S w) (ev : List (Event S)) :
    AnswersAlike s t n (.next ((s.countGuessed n).respond r ev)) (.next ((t.countGuessed n).respond r ev)) :=
  ⟨.ok r ev, rfl, rfl⟩

theorem answersAlike_zero_iff : AnswersAlike s t 0 o o' ↔ ∃ r : Response S w,
    o = .next { s with responses := s.responses ++ [r] } ∧
    o' = .next { t with responses := t.responses ++ [r] } := by
  simp only [AnswersAlike, State.countGuessed_zero]

theorem answersAlike_raise (e : Error) : AnswersAlike s t 0 (.next (s.raise e)) (.next (t.raise e)) :=
  answersAlike_zero_iff.2 ⟨.error e, rfl, rfl⟩

/-- The preamble keeps answers alike; where it refuses, nothing is counted. -/
theorem AnswersAlike.preamble (h : AnswersAlike s t n o o') (hv : s.cfgValid = t.cfgValid) :
    AnswersAlike s t (if s.cfgValid then n else 0) (configured s o) (configured t o') := by
  cases hs : s.cfgValid with
  | true =>
    rw [configured_of_valid hs, configured_of_valid (hv.symm.trans hs)]
    exact h
  | false =>
    rw [configured_of_invalid hs, configured_of_invalid (hv.symm.trans hs)]
    exact answersAlike_raise _

/-- The preamble before answers that count nothing. -/
theorem AnswersAlike.preamble_zero (h : AnswersAlike s t 0 o o') (hv : s.cfgValid = t.cfgValid) :
    AnswersAlike s t 0 (configured s o) (configured t o') := by
  simpa only [ite_self] using h.preamble hv

/-- A command that only responds, with a result that is the same in both states. -/
theorem configured_respond_alike (hv : s.cfgValid = t.cfgValid) (r : Result S w) :
    AnswersAlike s t 0 (configured s (.next (s.respond r []))) (configured t (.next (t.respond r []))) := by
  have h := answersAlike_respond (s := s) (t := t) 0 r []
  rw [State.countGuessed_zero, State.countGuessed_zero] at h
  exact h.preamble_zero hv

theorem locateWith_alike (P : Build S) (x : List S) (hv : s.cfgValid = t.cfgValid) (hc : s.cfg = t.cfg) :
    AnswersAlike s t 0 (locateWith P x s) (locateWith P x t) := by
  rw [locateWith, locateWith, hc]
  cases locateFrame P.num x (t.cfg.startRef P.num) (t.cfg.endRef P.num) with
  | none => exact (answersAlike_raise _).preamble_zero hv
  | some p => exact configured_respond_alike hv _

theorem rxframeWith_alike (P : Build S) (x : List S) (hv : s.cfgValid = t.cfgValid) (hc : s.cfg = t.cfg) :
    ∃ n, AnswersAlike s t n (rxframeWith P x s) (rxframeWith P x t) := by
  rw [rxframeWith, rxframeWith, hc]
  cases receive P.num P.score P.guess2 t.cfg x with
  | none => exact ⟨_, (answersAlike_raise _).preamble hv⟩
  | some p => exact ⟨_, (answersAlike_respond p.2 _ _).preamble hv⟩

end

/-- ECCENC, MODBITS, TXFRAME, LOCATE and DEMOD answer alike in states of equal configuration. -/
theorem exec_pure_alike {s t : State} {i : Instr} (hv : s.cfgValid = t.cfgValid) (hc : s.cfg = t.cfg)
    (hi : (∃ b, i = .eccenc b ∨ i = .modbits b ∨ i = .txframe b) ∨ (∃ x, i = .locate x ∨ i = .demod x)) :
    AnswersAlike s t 0 (exec i s) (exec i t) := by
  obtain ⟨b, rfl | rfl | rfl⟩ | ⟨x, rfl | rfl⟩ := hi
  · exact configured_respond_alike hv _
  · rw [exec_modbits, exec_modbits, hc]
    exact configured_respond_alike hv _
  · rw [exec_txframe, exec_txframe, hc]
    exact configured_respond_alike hv _
  · exact locateWith_alike Build.decided x hv hc
  · rw [exec_demod, exec_demod, hc]
    exact configured_respond_alike hv _

/-- ECCDEC and RXFRAME answer alike in states of equal configuration, some number of blocks counted. -/
theorem exec_decoder_alike {s t : State} {i : Instr} (hv : s.cfgValid = t.cfgValid) (hc : s.cfg = t.cfg)
    (hi : (∃ b, i = .eccdec b) ∨ (∃ x, i = .rxframe x)) :
    ∃ n, AnswersAlike s t n (exec i s) (exec i t) := by
  obtain ⟨b, rfl⟩ | ⟨x, rfl⟩ := hi
  · exact ⟨_, (answersAlike_respond (eccDecode Config.guess2 b).2 _ _).preamble hv⟩
  · exact rxframeWith_alike Build.decided x hv hc

/-- Settles O54: the preamble reads CFG_VALID alone, and each result is computed from `cfg` and the operand. -/
theorem pureCommandsAreFunctions : Obligations.PureCommandsAreFunctions := by
  refine fun s t i hv hc => ⟨fun hi => answersAlike_zero_iff.1 (exec_pure_alike hv hc hi), fun hi => ?_⟩
  obtain ⟨n, r, hs, ht⟩ := exec_decoder_alike hv hc hi
  exact ⟨r, n, hs, ht⟩

/-! ## Padding and truncation (20_memory.md R67) -/

/-- The number of zeros that padding appends is the one below `n` that reaches a multiple of `n`. -/
theorem padBits_eq_append {n k : Nat} (bits : BitSeq) (hk : k < n) (h : (bits.length + k) % n = 0) :
    padBits n bits = bits ++ List.replicate k false := by
  have hn : 0 < n := Nat.zero_lt_of_lt hk
  have hpad : (bits.length + (n - bits.length % n) % n) % n = 0 := by
    simpa [padBits] using padBits_length_mod n hn bits
  have hmod : (n - bits.length % n) % n ≡ k [MOD n] := Nat.ModEq.add_left_cancel' bits.length (hpad.trans h.symm)
  rw [padBits, hmod.eq_of_lt_of_lt (Nat.mod_lt _ hn) hk]

/-- Padding an input whose padding zeros are already there gives the same. -/
theorem padBits_append_zeros {n k : Nat} (bits : BitSeq) (hk : k < n) (h : (bits.length + k) % n = 0) :
    padBits n (bits ++ List.replicate k false) = padBits n bits := by
  rw [padBits_eq_append bits hk h, padBits_of_dvd n _ (by simpa using h)]

/-- A final partial granule is left out. -/
theorem granules_append_partial {α : Type} {n : Nat} (a tail : List α) (ha : a.length % n = 0)
    (ht : tail.length < n) : granules n (a ++ tail) = granules n a := by
  rw [granules_append_of_dvd n (Nat.zero_lt_of_lt ht) a tail ha, granules_short n tail ht, List.append_nil]

theorem eccEncode_append_zeros {k : Nat} (bits : BitSeq) (hk : k < 4) (h : (bits.length + k) % 4 = 0) :
    eccEncode (bits ++ List.replicate k false) = eccEncode bits := by
  rw [eccEncode, padBits_append_zeros bits hk h, ← eccEncode]

theorem modulate_append_zero (N : Num S) (c : Cfg) (bits : BitSeq) (h : bits.length % 2 = 1) :
    modulate N c (bits ++ [false]) = modulate N c bits := by
  have hpad : padBits 2 (bits ++ [false]) = padBits 2 bits :=
    padBits_append_zeros (k := 1) bits (by decide) (by omega)
  rw [modulate, symbolRows, hpad, ← symbolRows, ← modulate]

theorem eccDecode_append_partial (g : Syndrome → Nat × Nat) (bits tail : BitSeq) (h : bits.length % 8 = 0)
    (ht : tail.length < 8) : eccDecode g (bits ++ tail) = eccDecode g bits := by
  rw [eccDecode, granules_append_partial bits tail h ht, ← eccDecode]

theorem demodulate_append_partial (N : Num S) (score : Score) (c : Cfg) (x tail : List S)
    (h : x.length % c.sps = 0) (ht : tail.length < c.sps) :
    demodulate N score c (x ++ tail) = demodulate N score c x := by
  rw [demodulate, granules_append_partial x tail h ht, ← demodulate]

/-! ## What LOCATE and DETCHUNK answer for a length (20_memory.md R67) -/

/-- A signal shorter than a reference has no frame. -/
theorem locateFrame_of_short (N : Num S) {x r e : List S} (h : x.length < r.length ∨ x.length < e.length) :
    locateFrame N x r e = none :=
  if_pos h

/-- LOCATE completes or raises `NoSyncFound`. -/
theorem locateWith_cases (P : Build S) {s : State S w} (x : List S) (hv : s.cfgValid = true) :
    locateWith P x s = .next (s.raise .noSyncFound) ∨
      ∃ b e, locateWith P x s = .next (s.respond (.indices b e) []) := by
  cases hl : locateFrame P.num x (s.cfg.startRef P.num) (s.cfg.endRef P.num) with
  | none => exact .inl (locateWith_of_none hv hl)
  | some p => exact .inr ⟨p.1, p.2, locateWith_of_some hv hl⟩

theorem detChunk_of_wrong_length (P : Build S) {s : State S w} {x : List S} {n : Nat} (hr : s.detRun = true)
    (hn : s.cfg.chunkLen = some n) (hl : x.length ≠ n) : detChunk P x s = s.raise .badChunkLength := by
  simp [detChunk, hn, hr, hl]

theorem detChunk_of_length (P : Build S) {s : State S w} {x : List S} {n : Nat} (hr : s.detRun = true)
    (hn : s.cfg.chunkLen = some n) (hl : x.length = n) : detChunk P x s = detTransition P n x s := by
  simp [detChunk, hn, hr, hl]

/-- Every branch of the detector's transition responds `Ok` with no result. -/
theorem detTransition_responds_ok (P : Build S) (n : Nat) (x : List S) (s : State S w) :
    ∃ ev, (detTransition P n x s).responses = s.responses ++ [.ok .empty ev] := by
  rw [detTransition]
  cases s.detState with
  | idle =>
    dsimp only
    split
    · exact ⟨_, rfl⟩
    · exact ⟨_, rfl⟩
  | recording =>
    dsimp only
    split
    · exact ⟨_, rfl⟩
    · split
      · exact ⟨_, rfl⟩
      · exact ⟨_, rfl⟩

/-- The running detector refuses a chunk of another length and completes for one of CHUNK_LEN samples. -/
theorem detchunkWith_of_running (P : Build S) {s : State S w} (x : List S) {n : Nat} (hv : s.cfgValid = true)
    (hr : s.detRun = true) (hn : s.cfg.chunkLen = some n) :
    (x.length ≠ n → detchunkWith P x s = .next (s.raise .badChunkLength)) ∧
    (x.length = n → ∃ t ev, detchunkWith P x s = .next t ∧ t.responses = s.responses ++ [.ok .empty ev]) := by
  rw [detchunkWith, configured_of_valid hv]
  refine ⟨fun hl => by rw [detChunk_of_wrong_length P hr hn hl], fun hl => ?_⟩
  obtain ⟨ev, hev⟩ := detTransition_responds_ok P n x s
  exact ⟨_, ev, rfl, by rw [detChunk_of_length P hr hn hl, hev]⟩

/-- Settles O34: each operand reaches its command only through its granules, and a configured command that only
computes from them completes. -/
theorem paddingIsInvisible : Obligations.PaddingIsInvisible := by
  refine fun s => ⟨fun bits h => ?_, fun bits n hn h => ?_, fun bits tail h ht => ?_, fun x tail h ht => ?_,
    fun hv bits x => ⟨⟨_, configured_of_valid hv _⟩, ⟨_, configured_of_valid hv _⟩,
      ⟨_, _, configured_of_valid hv _⟩, ⟨_, configured_of_valid hv _⟩,
      fun h => locateWith_of_none hv (locateFrame_of_short exactNum h), locateWith_cases Build.decided x hv,
      fun n hr hn => detchunkWith_of_running Build.decided x hv hr hn⟩⟩
  · rw [exec_modbits, exec_modbits, modulate_append_zero _ _ bits h]
  · rw [exec_eccenc, exec_eccenc, eccEncode_append_zeros bits hn h]
  · rw [exec_eccdec, exec_eccdec, eccDecode_append_partial _ bits tail h ht]
  · rw [exec_demod, exec_demod, demodulate_append_partial _ _ _ x tail h ht]

end Sys2Proof.Machine
end

section
/-! PROOFS. Encoding: the reserved opcode bytes (30_encoding.md R87) and the response to a command
(30_encoding.md R88). -/

namespace Sys2Proof.Machine

variable {S : Type} {w : Nat}

/-! ## The opcode table and the decoder (30_encoding.md R81, R86, R87) -/

theorem opcode_mem_opcodeBytes (i : Instr S) : opcode i ∈ opcodeBytes := by
  cases i <;> simp [opcode, opcodeBytes]

/-- The decoder accepts exactly the bytes of the opcode table. -/
theorem mem_opcodeBytes_iff (c : Command S) : c.op ∈ opcodeBytes ↔ ∃ i, decode c = .ok i := by
  constructor
  · obtain ⟨op, r, b, x⟩ := c
    simp only [opcodeBytes, List.mem_cons, List.not_mem_nil, or_false]
    rintro (rfl | rfl | rfl | rfl | rfl | rfl | rfl | rfl | rfl | rfl | rfl | rfl | rfl | rfl) <;>
      simp [decode, unitOf, fnOf]
  · rintro ⟨i, hd⟩
    exact opcode_of_decode hd ▸ opcode_mem_opcodeBytes i

theorem not_mem_opcodeBytes_of_error {c : Command S} {e : DecodeError} (hd : decode c = .error e) :
    c.op ∉ opcodeBytes := by
  rw [mem_opcodeBytes_iff, hd]
  rintro ⟨i, h⟩
  cases h

theorem decode_error_of_reserved {c : Command S} (h : c.op ∉ opcodeBytes) : ∃ e, decode c = .error e := by
  cases hd : decode c with
  | error e => exact ⟨e, rfl⟩
  | ok i => exact absurd ((mem_opcodeBytes_iff c).2 ⟨i, hd⟩) h

/-- DETCHUNK's operand is SAMPIN. -/
theorem sampin_of_decode_detchunk {c : Command S} {x : List S} (hd : decode c = .ok (.detchunk x)) :
    c.sampin = x := by
  obtain ⟨op, r, b, y⟩ := c
  obtain rfl : 0x41#8 = op := opcode_of_decode hd
  simpa [decode, unitOf, fnOf] using hd

/-- The bytes that R87 reserves by UNIT and FN, one byte after the other. -/
theorem reserved_iff_not_mem_opcodeBytes (op : Byte) :
    (5 ≤ op.toNat / 16 ∨ (op.toNat / 16 ≤ 2 ∧ 1 < op.toNat % 16) ∨ (op.toNat / 16 = 3 ∧ 2 < op.toNat % 16) ∨
      (op.toNat / 16 = 4 ∧ 4 < op.toNat % 16)) ↔ op ∉ opcodeBytes := by
  revert op
  decide +kernel

/-! ## The step on a command -/

section
variable {s : State} {c : Command} {rest : List Input}

theorem step_of_decode_ok {i : Instr} (hin : s.inputs = .command c :: rest) (hd : decode c = .ok i) :
    step s = exec i { s with inputs := rest } := by
  rw [step_input hin, takeInput, hd]

theorem step_of_decode_error {e : DecodeError} (hin : s.inputs = .command c :: rest) (hd : decode c = .error e) :
    step s = .next (State.raise { s with inputs := rest } .illegalCommand) := by
  rw [step_input hin, takeInput, hd]

end

/-- Settles O7: a byte outside the table decodes to an error, and the step on an error raises
`IllegalCommand`. -/
theorem reservedOpcodesAreIllegal : Obligations.ReservedOpcodesAreIllegal := by
  refine fun c => ⟨reserved_iff_not_mem_opcodeBytes c.op, fun hc s rest hin => ?_⟩
  obtain ⟨e, hd⟩ := decode_error_of_reserved hc
  exact step_of_decode_error hin hd

/-! ## What a response may be (30_encoding.md R86, R88) -/

/-- The RESULT column of the opcode table (30_encoding.md R86): the results that a command can have. -/
inductive ResultOf : Instr S → Result S w → Prop
  | cfgload (c : CfgRecord) : ResultOf (.cfgload c) .empty
  | rdstat (st : BitVec 32) (u : BitVec w) (n : Nat) : ResultOf .rdstat (.stat st u n)
  | eccenc (b o : BitSeq) : ResultOf (.eccenc b) (.bits o)
  | eccdec (b o : BitSeq) (n : Nat) : ResultOf (.eccdec b) (.bitsGuessed o n)
  | modbits (b : BitSeq) (v : List S) : ResultOf (.modbits b) (.samples v)
  | txframe (b : BitSeq) (v : List S) : ResultOf (.txframe b) (.samples v)
  | locate (x : List S) (b e : Nat) : ResultOf (.locate x) (.indices b e)
  | demod (x : List S) (o : BitSeq) : ResultOf (.demod x) (.bits o)
  | rxframe (x : List S) (o : BitSeq) (n : Nat) : ResultOf (.rxframe x) (.bitsGuessed o n)
  | detstart : ResultOf .detstart .empty
  | detchunk (x : List S) : ResultOf (.detchunk x) .empty
  | detstop : ResultOf .detstop .empty
  | txon : ResultOf .txon .empty
  | txoff : ResultOf .txoff .empty

/-- The commands that name each kind of result, by their opcode bytes. -/
theorem ResultOf.kind_iff_opcode {i : Instr S} {v : Result S w} (h : ResultOf i v) :
    (v = .empty ↔ opcode i ∈ [0x00#8, 0x40#8, 0x41#8, 0x42#8, 0x43#8, 0x44#8]) ∧
    ((∃ b, v = .bits b) ↔ opcode i ∈ [0x10#8, 0x31#8]) ∧
    ((∃ b n, v = .bitsGuessed b n) ↔ opcode i ∈ [0x11#8, 0x32#8]) ∧
    ((∃ x, v = .samples x) ↔ opcode i ∈ [0x20#8, 0x21#8]) ∧
    ((∃ b e, v = .indices b e) ↔ opcode i = 0x30#8) ∧
    ((∃ st u n, v = .stat st u n) ↔ opcode i = 0x01#8) := by
  cases h <;> simp [opcode]

/-- The commands that can end with a status, and the states in which they can (30_encoding.md R88). -/
def StatusRule (s : State S w) (i : Instr S) : Status → Prop
  | .ok => True
  | .configMissingField | .configInvalid => opcode i = 0x00#8 ∧ s.cfgValid = false
  | .configLocked => opcode i = 0x00#8 ∧ s.cfgValid = true
  | .notConfigured =>
    (s.cfgValid = false ∧ opcode i ≠ 0x00#8 ∧ opcode i ≠ 0x01#8) ∨
      (s.cfgValid = true ∧ s.cfg.chunkLen = none ∧ opcode i ∈ [0x40#8, 0x41#8])
  | .noSyncFound => opcode i ∈ [0x30#8, 0x32#8] ∧ s.cfgValid = true
  | .detectorStopped => opcode i = 0x41#8 ∧ s.detRun = false
  | .badChunkLength => ∃ x, i = .detchunk x ∧ s.detRun = true ∧ s.cfg.chunkLen ≠ some x.length
  | .uncorrectableBlock | .invalidEncoding | .streamClosed | .illegalCommand => False

/-- `r` is a response that the command `i` may have in the state `s`. -/
structure MayAnswer (s : State S w) (i : Instr S) (r : Response S w) : Prop where
  status : StatusRule s i r.status
  events : r.events ≠ [] → opcode i = 0x41#8
  result : ∀ v ev, r = .ok v ev → ResultOf i v

/-- The outcome `o` of the command `i` delivers one response, one that `i` may have in `s`. -/
def DeliversOne (s : State S w) (i : Instr S) (o : Out S w) : Prop :=
  ∃ t r, o = .next t ∧ t.responses = s.responses ++ [r] ∧ MayAnswer s i r

/-! ## Every command delivers one response -/

section
variable {s : State S w} {i : Instr S}

theorem mayAnswer_error {e : Error} (h : StatusRule s i e.status) : MayAnswer s i (.error e) where
  status := h
  events hne := absurd rfl hne
  result _ _ h := nomatch h

theorem mayAnswer_ok {v : Result S w} {ev : List (Event S)} (hv : ResultOf i v)
    (hev : ev ≠ [] → opcode i = 0x41#8) : MayAnswer s i (.ok v ev) where
  status := trivial
  events := hev
  result _ _ h := by
    cases h
    exact hv

/-- A command without events. -/
theorem mayAnswer_result {v : Result S w} (hv : ResultOf i v) : MayAnswer s i (.ok v []) :=
  mayAnswer_ok hv fun h => absurd rfl h

theorem deliversOne_raise {e : Error} {o : Out S w} (ho : o = .next (s.raise e)) (h : StatusRule s i e.status) :
    DeliversOne s i o :=
  ⟨_, _, ho, rfl, mayAnswer_error h⟩

/-- What CFGLOAD raises for a record: an absent field, or illegal values (40_control.md R90). -/
def RecordError (e : Error) : Prop := (∃ f, e = .configMissingField f) ∨ e = .configInvalid

/-- A check of one required field, before the rest `g` of the checks. -/
theorem recordError_of_required_bind {α β : Type} {v : Option α} {f : CfgField} {g : α → Except Error β} {e : Error}
    (h : required v f >>= g = .error e) (hg : ∀ a, g a = .error e → RecordError e) : RecordError e := by
  cases v with
  | none =>
    injection h with h
    exact .inl ⟨f, h.symm⟩
  | some a => exact hg a h

theorem recordError_of_loadCfg {r : CfgRecord} {e : Error} (h : loadCfg r = .error e) : RecordError e := by
  rw [loadCfg] at h
  refine recordError_of_required_bind h fun _ h => recordError_of_required_bind h fun _ h =>
    recordError_of_required_bind h fun _ h => recordError_of_required_bind h fun _ h =>
    recordError_of_required_bind h fun _ h => ?_
  dsimp only at h
  split at h
  · cases h
  · injection h with h
    exact .inr h.symm

theorem statusRule_of_loadCfg_error {r : CfgRecord} {e : Error} (hv : s.cfgValid = false)
    (hl : loadCfg r = .error e) : StatusRule s (.cfgload r) e.status := by
  obtain ⟨f, rfl⟩ | rfl := recordError_of_loadCfg hl
  · exact ⟨rfl, hv⟩
  · exact ⟨rfl, hv⟩

/-- Without a configuration CFGLOAD and RDSTAT answer, the other commands raise `NotConfigured`. -/
theorem execWith_deliversOne_of_invalid (P : Build S) (i : Instr S) (hv : s.cfgValid = false) :
    DeliversOne s i (execWith P i s) := by
  cases i with
  | cfgload r =>
    cases hl : loadCfg r with
    | error e => exact deliversOne_raise (cfgloadOn_of_error hv hl) (statusRule_of_loadCfg_error hv hl)
    | ok cf => exact ⟨_, _, cfgloadOn_of_ok hv hl, rfl, mayAnswer_result (.cfgload r)⟩
  | rdstat => exact ⟨_, _, rfl, rfl, mayAnswer_result (.rdstat _ _ _)⟩
  | _ => exact deliversOne_raise (configured_of_invalid hv _) (.inl ⟨hv, by simp [opcode], by simp [opcode]⟩)

theorem detstartOn_deliversOne (hv : s.cfgValid = true) : DeliversOne s .detstart (detstartOn s) := by
  rw [detstartOn, configured_of_valid hv]
  cases hn : s.cfg.chunkLen with
  | none => exact deliversOne_raise rfl (.inr ⟨hv, hn, by simp [opcode]⟩)
  | some n =>
    dsimp only
    split
    · exact ⟨_, _, rfl, rfl, mayAnswer_result .detstart⟩
    · exact ⟨_, _, rfl, rfl, mayAnswer_result .detstart⟩

theorem detChunk_of_no_length (P : Build S) (x : List S) (hn : s.cfg.chunkLen = none) :
    detChunk P x s = s.raise .notConfigured := by
  simp [detChunk, hn]

theorem detChunk_of_stopped (P : Build S) (x : List S) {n : Nat} (hn : s.cfg.chunkLen = some n)
    (hr : s.detRun = false) : detChunk P x s = s.raise .detectorStopped := by
  simp [detChunk, hn, hr]

theorem detchunkWith_deliversOne (P : Build S) (x : List S) (hv : s.cfgValid = true) :
    DeliversOne s (.detchunk x) (detchunkWith P x s) := by
  rw [detchunkWith, configured_of_valid hv]
  cases hn : s.cfg.chunkLen with
  | none =>
    rw [detChunk_of_no_length P x hn]
    exact deliversOne_raise rfl (.inr ⟨hv, hn, by simp [opcode]⟩)
  | some n =>
    cases hr : s.detRun with
    | false =>
      rw [detChunk_of_stopped P x hn hr]
      exact deliversOne_raise rfl ⟨rfl, hr⟩
    | true =>
      by_cases hl : x.length = n
      · obtain ⟨ev, hev⟩ := detTransition_responds_ok P n x s
        rw [detChunk_of_length P hr hn hl]
        exact ⟨_, _, rfl, hev, mayAnswer_ok (.detchunk x) fun _ => rfl⟩
      · rw [detChunk_of_wrong_length P hr hn hl]
        exact deliversOne_raise rfl ⟨x, rfl, hr, by simp [hn, Ne.symm hl]⟩

theorem locateWith_deliversOne (P : Build S) (x : List S) (hv : s.cfgValid = true) :
    DeliversOne s (.locate x) (locateWith P x s) := by
  obtain h | ⟨b, e, h⟩ := locateWith_cases P x hv
  · exact deliversOne_raise h ⟨by simp [opcode], hv⟩
  · exact ⟨_, _, h, rfl, mayAnswer_result (.locate x b e)⟩

theorem rxframeWith_deliversOne (P : Build S) (x : List S) (hv : s.cfgValid = true) :
    DeliversOne s (.rxframe x) (rxframeWith P x s) := by
  rw [rxframeWith, configured_of_valid hv]
  cases receive P.num P.score P.guess2 s.cfg x with
  | none => exact deliversOne_raise rfl ⟨by simp [opcode], hv⟩
  | some p => exact ⟨_, _, rfl, rfl, mayAnswer_result (.rxframe x _ _)⟩

/-- With a configuration CFGLOAD is locked, LOCATE and RXFRAME may find no frame, the detector has its own
refusals, and every other command completes. -/
theorem execWith_deliversOne_of_valid (P : Build S) (i : Instr S) (hv : s.cfgValid = true) :
    DeliversOne s i (execWith P i s) := by
  cases i with
  | cfgload r => exact deliversOne_raise (cfgloadOn_of_valid hv r) ⟨rfl, hv⟩
  | rdstat => exact ⟨_, _, rfl, rfl, mayAnswer_result (.rdstat _ _ _)⟩
  | eccenc b => exact ⟨_, _, configured_of_valid hv _, rfl, mayAnswer_result (.eccenc b _)⟩
  | eccdec b => exact ⟨_, _, configured_of_valid hv _, rfl, mayAnswer_result (.eccdec b _ _)⟩
  | modbits b => exact ⟨_, _, configured_of_valid hv _, rfl, mayAnswer_result (.modbits b _)⟩
  | txframe b => exact ⟨_, _, configured_of_valid hv _, rfl, mayAnswer_result (.txframe b _)⟩
  | locate x => exact locateWith_deliversOne P x hv
  | demod x => exact ⟨_, _, configured_of_valid hv _, rfl, mayAnswer_result (.demod x _)⟩
  | rxframe x => exact rxframeWith_deliversOne P x hv
  | detstart => exact detstartOn_deliversOne hv
  | detchunk x => exact detchunkWith_deliversOne P x hv
  | detstop => exact ⟨_, _, configured_of_valid hv _, rfl, mayAnswer_result .detstop⟩
  | txon => exact ⟨_, _, configured_of_valid hv _, rfl, mayAnswer_result .txon⟩
  | txoff => exact ⟨_, _, configured_of_valid hv _, rfl, mayAnswer_result .txoff⟩

theorem execWith_deliversOne (P : Build S) (s : State S w) (i : Instr S) : DeliversOne s i (execWith P i s) := by
  cases hv : s.cfgValid with
  | false => exact execWith_deliversOne_of_invalid P i hv
  | true => exact execWith_deliversOne_of_valid P i hv

end

/-! ## The refusals that are certain -/

/-- A command takes no input of the host. -/
theorem Effect.inputs_eq {P : Build S} {s t : State S w} {i : Instr S} (h : Effect P s i t) : t.inputs = s.inputs := by
  cases h <;> rfl

section
variable {P : Build S} {s : State S w} {i : Instr S}

theorem execWith_of_configLocked (h : StatusRule s i .configLocked) :
    execWith P i s = .next (s.raise .configLocked) := by
  obtain ⟨hop, hv⟩ := h
  cases i with
  | cfgload r => exact cfgloadOn_of_valid hv r
  | _ => simp [opcode] at hop

theorem execWith_of_notConfigured (h : StatusRule s i .notConfigured) :
    execWith P i s = .next (s.raise .notConfigured) := by
  obtain ⟨hv, hload, hstat⟩ | ⟨hv, hn, hop⟩ := h
  · cases i with
    | cfgload r => exact absurd rfl hload
    | rdstat => exact absurd rfl hstat
    | _ => exact configured_of_invalid hv _
  · cases i with
    | detstart => simp [execWith, detstartOn, hv, hn]
    | detchunk x => simp [execWith, detchunkWith, hv, detChunk_of_no_length P x hn]
    | _ => simp [opcode] at hop

end

/-! ## The status codes (30_encoding.md R88) -/

theorem Status.code_injective : Function.Injective Status.code := by
  intro a b h
  cases a <;> cases b <;> simp [Status.code] at h ⊢

theorem Response.code_mem (r : Response S w) : r.status.code ∈ [0, 1, 2, 16, 17, 18, 19, 20, 21] := by
  cases r with
  | ok v ev => simp [Response.status, Status.code]
  | error e => cases e <;> simp [Response.status, Error.status, Status.code]

/-- A response with the code of a status keeps the rule of that status. -/
theorem MayAnswer.rule_of_code {s : State S w} {i : Instr S} {r : Response S w} (h : MayAnswer s i r) (st : Status)
    (hc : r.status.code = st.code) : StatusRule s i st :=
  Status.code_injective hc ▸ h.status

/-- Where its rule makes an error certain, a command responds with its code exactly by that rule. -/
theorem MayAnswer.code_iff_rule {P : Build S} {s t : State S w} {i : Instr S} {r : Response S w} (h : MayAnswer s i r)
    (hex : execWith P i s = .next t) (hr : t.responses = s.responses ++ [r]) (e : Error)
    (hraise : StatusRule s i e.status → execWith P i s = .next (s.raise e)) :
    r.status.code = e.status.code ↔ StatusRule s i e.status := by
  refine ⟨h.rule_of_code e.status, fun hrule => ?_⟩
  have ht := hex.symm.trans (hraise hrule)
  injection ht with ht
  have hre : r = .error e := by simpa [ht] using hr.symm
  rw [hre]
  rfl

/-- Settles O51: a reserved byte is answered `IllegalCommand`; any other is a command, which delivers one
response by its row of the table, and certainly `NotConfigured` or `ConfigLocked` where their rules hold. -/
theorem oneResponsePerCommand : Obligations.OneResponsePerCommand := by
  intro s s' c rest hin hstep
  cases hd : decode c with
  | error e =>
    have hop := not_mem_opcodeBytes_of_error hd
    rw [step_of_decode_error hin hd] at hstep
    injection hstep with hs'
    subst hs'
    have h0 : c.op ≠ 0x00#8 := fun h => hop (by simp [h, opcodeBytes])
    exact ⟨rfl, .error .illegalCommand, rfl,
      by simp [Response.status, Response.events, Error.status, Status.code, hop, h0]⟩
  | ok i =>
    have hop := (mem_opcodeBytes_iff c).2 ⟨i, hd⟩
    rw [step_of_decode_ok hin hd, exec_eq_execWith] at hstep
    obtain ⟨t, r, ht, hr, ha⟩ := execWith_deliversOne Build.decided { s with inputs := rest } i
    have hinputs := (effect_of_execWith hstep).inputs_eq
    obtain rfl : t = s' := by
      rw [ht] at hstep
      injection hstep
    have hlocked := ha.code_iff_rule ht hr .configLocked execWith_of_configLocked
    have hunconf := ha.code_iff_rule ht hr .notConfigured execWith_of_notConfigured
    have hlen : r.status.code = 20 → opcode i = 0x41#8 ∧ s.cfg.chunkLen ≠ some c.sampin.length := fun h => by
      obtain ⟨x, rfl, -, hne⟩ := ha.rule_of_code .badChunkLength h
      exact ⟨rfl, sampin_of_decode_detchunk hd ▸ hne⟩
    rw [← opcode_of_decode hd] at hop ⊢
    exact ⟨hinputs, r, hr, r.code_mem, ha.events,
      fun h => (ha.rule_of_code .configMissingField h).1,
      fun h => (ha.rule_of_code .noSyncFound h).1,
      ⟨fun h => (ha.rule_of_code .illegalCommand h).elim, fun h => absurd hop h⟩,
      hunconf.trans (and_iff_right hop).symm,
      hlocked,
      fun h => (ha.rule_of_code .configInvalid h).1,
      hlen,
      ha.rule_of_code .detectorStopped,
      fun v ev h => (ha.result v ev h).kind_iff_opcode⟩

end Sys2Proof.Machine
end

section
/-! PROOFS. Control: the preamble, CFGLOAD and RDSTAT (40_control.md). -/

namespace Sys2Proof.Machine

variable {S : Type} {w : Nat}

/-! ## The preamble (40_control.md R91) -/

/-- Settles O8: a byte outside the table is answered before the state is looked at (O7); a byte of the table
decodes to a command of that opcode, which the missing configuration refuses. -/
theorem preambleChecksInOrder : Obligations.PreambleChecksInOrder := by
  refine fun s c rest hin => ⟨fun hop => (reservedOpcodesAreIllegal c).2 hop s rest hin, fun hop hv hload hstat => ?_⟩
  obtain ⟨i, hd⟩ := (mem_opcodeBytes_iff c).1 hop
  rw [← opcode_of_decode hd] at hload hstat
  rw [step_of_decode_ok hin hd, exec_eq_execWith]
  exact execWith_of_notConfigured (.inl ⟨hv, hload, hstat⟩)

/-! ## CFGLOAD (40_control.md R90) -/

@[simp] theorem required_none_bind {α β : Type} (name : CfgField) (g : α → Except Error β) :
    required none name >>= g = .error (.configMissingField name) := rfl

@[simp] theorem required_some_bind {α β : Type} (a : α) (name : CfgField) (g : α → Except Error β) :
    required (some a) name >>= g = g a := rfl

/-- An optional field with a default, as R90 states DF: its value where present, else the default. -/
theorem eq_getD_of_cases {α : Type} {o : Option α} {a d : α} (hsome : ∀ b, o = some b → a = b)
    (hnone : o = none → a = d) : a = o.getD d := by
  cases o with
  | none => exact hnone rfl
  | some b => exact hsome b rfl

/-- R90's `floor(fs / r)` is the model's integer division only for a positive rate: for a negative one the
integer division rounds up. -/
theorem floor_div_rate (fs : Int) {r : Int} (hr : 1 ≤ r) : ⌊(fs : Rat) / (r : Rat)⌋ = fs / r := by
  lift r to Nat using le_trans zero_le_one hr
  exact Rat.floor_intCast_div_natCast fs r

/-- The legal values, with the quotient as the spec writes it. -/
theorem legal_iff (fs r : Int) (df : Rat) (chunkLen : Option Int) :
    legal fs r df chunkLen = true ↔
      1 ≤ fs ∧ 1 ≤ r ∧ 1 ≤ ⌊(fs : Rat) / (r : Rat)⌋ ∧ 0 < df ∧ ∀ n, chunkLen = some n → 1 ≤ n := by
  have hfloor : (1 ≤ r ∧ 1 ≤ ⌊(fs : Rat) / (r : Rat)⌋) ↔ (1 ≤ r ∧ 1 ≤ fs / r) :=
    and_congr_right fun hr => by rw [floor_div_rate fs hr]
  rw [← and_assoc (a := 1 ≤ r), hfloor]
  cases chunkLen <;> simp [legal, and_assoc]

/-- The illegal values are the others. -/
theorem not_legal_iff (fs r : Int) (df : Rat) (chunkLen : Option Int) :
    ¬ legal fs r df chunkLen = true ↔
      fs < 1 ∨ r < 1 ∨ ⌊(fs : Rat) / (r : Rat)⌋ < 1 ∨ df ≤ 0 ∨ ∃ n, chunkLen = some n ∧ n < 1 := by
  rw [legal_iff]
  simp only [not_and_or, not_le, not_lt, not_forall, exists_prop]

/-- A record with the five required fields loads exactly if its values are legal. -/
theorem loadCfg_of_present {c : CfgRecord} {f : Rat} {fs r : Int} {ks ke : ByteSeq} (hf : c.frequency = some f)
    (hfs : c.samplingRate = some fs) (hr : c.symbolsPerSecond = some r) (hks : c.recordStart = some ks)
    (hke : c.recordEnd = some ke) :
    loadCfg c =
      if legal fs r (c.toneSpacing.getD r) c.chunkLen then
        .ok ⟨f, fs.toNat, r.toNat, ks, ke, c.toneSpacing.getD r, c.threshold.getD 5, c.chunkLen.map Int.toNat,
          c.eccEnable.getD ⟨true, true, true⟩⟩
      else .error .configInvalid := by
  simp [loadCfg, hf, hfs, hr, hks, hke]

/-- Settles O9: the lock comes first; each absent field ends the load once the fields before it are present;
with all five the values decide. -/
theorem cfgloadFollowsItsRule : Obligations.CfgloadFollowsItsRule := by
  refine fun s c => ⟨fun hv => cfgloadOn_of_valid hv c, fun hv => ?_⟩
  refine ⟨fun h => cfgloadOn_of_error hv (by simp [loadCfg, h]), fun f hf => ?_⟩
  refine ⟨fun h => cfgloadOn_of_error hv (by simp [loadCfg, hf, h]), fun fs hfs => ?_⟩
  refine ⟨fun h => cfgloadOn_of_error hv (by simp [loadCfg, hf, hfs, h]), fun r hr => ?_⟩
  refine ⟨fun h => cfgloadOn_of_error hv (by simp [loadCfg, hf, hfs, hr, h]), fun ks hks => ?_⟩
  refine ⟨fun h => cfgloadOn_of_error hv (by simp [loadCfg, hf, hfs, hr, hks, h]), fun ke hke => ?_⟩
  intro df hsome hnone
  obtain rfl := eq_getD_of_cases hsome hnone
  have hload := loadCfg_of_present hf hfs hr hks hke
  constructor
  · intro hillegal
    exact cfgloadOn_of_error hv (hload.trans (if_neg ((not_legal_iff ..).2 hillegal)))
  · intro h₁ h₂ h₃ h₄ h₅
    exact cfgloadOn_of_ok hv (hload.trans (if_pos ((legal_iff ..).2 ⟨h₁, h₂, h₃, h₄, h₅⟩)))

/-! ## RDSTAT (40_control.md R92) -/

theorem bitWord_getLsbD (b : Bit) (k : Nat) : (bitWord b).getLsbD k = (decide (k = 0) && b) := by
  cases b <;> simp [bitWord, BitVec.getLsbD_one]

/-- A bit shifted to position `i` stands there alone. -/
theorem bitWord_shiftLeft_getLsbD (b : Bit) {i : Nat} (hi : i < 32) (k : Nat) :
    (bitWord b <<< i).getLsbD k = (decide (k = i) && b) := by
  rw [BitVec.getLsbD_shiftLeft, bitWord_getLsbD, ← Bool.and_assoc]
  congr 1
  rw [Bool.eq_iff_iff]
  simp only [Bool.and_eq_true, Bool.not_eq_true', decide_eq_true_eq, decide_eq_false_iff_not]
  omega

theorem State.statusWord_getLsbD (s : State S w) (k : Nat) :
    s.statusWord.getLsbD k =
      ((decide (k = 0) && s.cfgValid) || (decide (k = 1) && s.detRun) ||
        (decide (k = 2) && decide (s.detState = .recording)) || (decide (k = 3) && s.txActive)) := by
  simp only [State.statusWord, BitVec.getLsbD_or, bitWord_getLsbD, bitWord_shiftLeft_getLsbD _ (by decide : 1 < 32),
    bitWord_shiftLeft_getLsbD _ (by decide : 2 < 32), bitWord_shiftLeft_getLsbD _ (by decide : 3 < 32)]

theorem State.detNchunks_of_no_length {s : State S w} (hn : s.cfg.chunkLen = none) : s.detNchunks = 0 := by
  cases hv : s.cfgValid <;> simp [State.detNchunks, hv, hn]

theorem State.detNchunks_of_length {s : State S w} {m : Nat} (hv : s.cfgValid = true) (hm : s.cfg.chunkLen = some m) :
    s.detNchunks = s.detBuf.length / m := by
  simp [State.detNchunks, hv, hm]

/-- The buffer holds whole chunks (10_state.md R37). -/
theorem State.BufOk.chunkLen_dvd {s : State S w} (h : s.BufOk) {m : Nat} (hm : s.cfg.chunkLen = some m) :
    m ∣ s.detBuf.length := by
  obtain ⟨hidle, hrec⟩ := h
  cases hd : s.detState with
  | idle => simp [hidle hd]
  | recording =>
    obtain ⟨-, n, k, hn, -, hlen⟩ := hrec hd
    obtain rfl : n = m := Option.some.inj (hn.symm.trans hm)
    exact ⟨k, hlen.trans (Nat.mul_comm k n)⟩

/-- Settles O10: the witnesses are the status word and the chunk count of the model. -/
theorem rdstatReportsTheStatus : Obligations.RdstatReportsTheStatus := by
  refine fun s => ⟨s.statusWord, s.detNchunks, rfl, ?_, ?_, ?_, ?_, fun k hk => ?_, fun h => ?_, fun m hv hm => ?_⟩
  · exact (s.statusWord_getLsbD 0).trans (by simp)
  · exact (s.statusWord_getLsbD 1).trans (by simp)
  · exact (s.statusWord_getLsbD 2).trans (by simp)
  · exact (s.statusWord_getLsbD 3).trans (by simp)
  · obtain ⟨h0, h1, h2, h3⟩ : k ≠ 0 ∧ k ≠ 1 ∧ k ≠ 2 ∧ k ≠ 3 := by omega
    simp [State.statusWord_getLsbD, h0, h1, h2, h3]
  · obtain hv | hn := h
    · exact State.detNchunks_of_invalid hv
    · exact State.detNchunks_of_no_length hn
  · rw [State.detNchunks_of_length hv hm]
    exact ⟨rfl, fun hinv => Nat.div_mul_cancel (hinv.buf.chunkLen_dvd hm)⟩

end Sys2Proof.Machine
end

section
/-! PROOFS. The Hamming SECDED encoder and decoder (41_ecc.md). -/

namespace Sys2Proof.Machine

/-! ## A command that works granule by granule -/

/-- Granule `k` of a sequence, written with the sequence's own `drop` and `take`. -/
theorem granules_eq_map_drop_take {α : Type} (n : Nat) (s : List α) :
    granules n s = (List.range (s.length / n)).map fun k => (s.drop (n * k)).take n := by
  refine List.map_congr_left fun k _ => ?_
  rw [slice, Nat.mul_comm k n, Nat.add_mul, Nat.one_mul, Nat.mul_comm k n, Nat.add_sub_cancel_left]

theorem granules_getElem {α : Type} (n k : Nat) (s : List α) (hk : k < (granules n s).length) :
    (granules n s)[k] = (s.drop (n * k)).take n := by
  simp [granules_eq_map_drop_take]

/-- A sequence of one granule. -/
theorem granules_of_length_eq {α : Type} {n : Nat} {s : List α} (hn : 0 < n) (hs : s.length = n) :
    granules n s = [s] := by
  simpa using granules_append n s [] hn hs

/-- Part `k` of a concatenation of sequences of one length `m` is the `k`-th of them. -/
theorem take_drop_flatMap_const {α β : Type} (xs : List α) (f : α → List β) (m k : Nat)
    (h : ∀ x ∈ xs, (f x).length = m) (hk : k < xs.length) : ((xs.flatMap f).drop (m * k)).take m = f xs[k] := by
  have hlen : (f xs[k]).length = m := h _ (List.getElem_mem hk)
  refine List.ext_getElem? fun j => ?_
  rcases Nat.lt_or_ge j m with hj | hj
  · rw [List.getElem?_take_of_lt hj, List.getElem?_drop, Nat.mul_comm m k, flatMap_getElem?_const xs f m k j h hj hk]
  · rw [List.getElem?_take_eq_none hj, List.getElem?_eq_none (hlen.le.trans hj)]

/-- If `f` answers `m` elements for every granule, part `k` of its answers is that for granule `k`. -/
theorem take_drop_flatMap_granules {α β : Type} (f : List α → List β) {n m k : Nat} (s : List α)
    (hf : ∀ x, (f x).length = m) (hk : k < s.length / n) :
    (((granules n s).flatMap f).drop (m * k)).take m = f ((s.drop (n * k)).take n) := by
  have hk' : k < (granules n s).length := by rwa [granules_length]
  rw [take_drop_flatMap_const _ f m k (fun x _ => hf x) hk', granules_getElem]

/-! ## The encoder (41_ecc.md R102, R103) -/

/-- Bit `i` of granule `k`. -/
theorem bitAt_take_drop (bits : BitSeq) {n i : Nat} (k : Nat) (hi : i < n) :
    bitAt ((bits.drop (n * k)).take n) i = bitAt bits (n * k + i) := by
  simp [bitAt, List.getElem?_take_of_lt hi]

/-- Block `k` encodes the four bits from `4k` on, a bit beyond the end being 0. -/
theorem eccEncode_block (bits : BitSeq) {k : Nat} (hk : k < (bits.length + 3) / 4) :
    ((eccEncode bits).drop (8 * k)).take 8 =
      eccBlock (bitAt bits (4 * k)) (bitAt bits (4 * k + 1)) (bitAt bits (4 * k + 2)) (bitAt bits (4 * k + 3)) := by
  have hk' : k < (padBits 4 bits).length / 4 := by rwa [padBits_granules 4 (by decide)]
  have hbit (i : Nat) (hi : i < 4) :
      bitAt (((padBits 4 bits).drop (4 * k)).take 4) i = bitAt bits (4 * k + i) := by
    rw [bitAt_take_drop _ _ hi, bitAt_padBits]
  rw [eccEncode, take_drop_flatMap_granules (m := 8) _ _ (fun _ => rfl) hk', hbit 0 (by decide), hbit 1 (by decide),
    hbit 2 (by decide), hbit 3 (by decide), Nat.add_zero]

/-- Settles O11: the equations of the parities are those of `eccBlock`. -/
theorem eccencBlockFormula : Obligations.EccencBlockFormula := by
  refine fun s bits hv => ⟨eccEncode bits, ?_, eccEncode_length bits, fun g hg => ?_⟩
  · rw [exec_eccenc, configured_of_valid hv]
  · rintro _ _ _ _ rfl rfl rfl rfl _ _ _ _ rfl rfl rfl rfl
    exact eccEncode_block bits hg

/-! ## The decision about a received block (41_ecc.md R105 to R111) -/

section
variable {r : BitSeq} (g : Syndrome → Nat × Nat)

/-- A sequence of bits has an odd number of ones if their exclusive or is 1. -/
theorem countP_id_odd_iff_xor (bits : BitSeq) : bits.countP id % 2 = 1 ↔ bits.foldr xor false = true := by
  induction bits with
  | nil => simp
  | cons b bits ih =>
    cases b with
    | false => simpa using ih
    | true =>
      rw [List.countP_cons_of_pos rfl, List.foldr_cons, Bool.true_xor, Bool.not_eq_true', ← Bool.not_eq_true, ← ih]
      omega

/-- The eight bits of a block. -/
theorem exists_eq_of_length_eq_eight (hr : r.length = 8) :
    ∃ b0 b1 b2 b3 b4 b5 b6 b7 : Bit, r = [b0, b1, b2, b3, b4, b5, b6, b7] := by
  match r, hr with
  | [b0, b1, b2, b3, b4, b5, b6, b7], _ => exact ⟨b0, b1, b2, b3, b4, b5, b6, b7, rfl⟩

/-- A block whose global parity differs from the recomputed one has an odd number of ones. -/
theorem globalParity_ne_iff_odd (hr : r.length = 8) : bitAt r 7 ≠ pgCalc r ↔ r.countP id % 2 = 1 := by
  have hxor : r.foldr xor false = (pgCalc r ^^ bitAt r 7) := by
    obtain ⟨b0, b1, b2, b3, b4, b5, b6, b7, rfl⟩ := exists_eq_of_length_eq_eight hr
    simp [pgCalc, bitAt]
  rw [countP_id_odd_iff_xor, hxor, Bool.xor_comm]
  exact bne_iff_ne.symm

/-- Flipping the position of a syndrome adds that syndrome to the block's (41_ecc.md R107). -/
theorem syndrome_flipAt (hr : r.length = 8) {sy : Syndrome} {i : Nat} (hi : syn1 sy = some i) :
    syndrome (flipAt r i) =
      ((syndrome r).1 ^^ sy.1, (syndrome r).2.1 ^^ sy.2.1, (syndrome r).2.2 ^^ sy.2.2) := by
  obtain ⟨b0, b1, b2, b3, b4, b5, b6, b7, rfl⟩ := exists_eq_of_length_eq_eight hr
  rw [syn1.eq_def] at hi
  split at hi
  case h_8 => cases hi
  all_goals
    cases hi
    simp [syndrome, flipAt, bitAt]

/-- Every syndrome but 000 is that of a position in 0 to 6. -/
theorem syn1_of_ne_zero : ∀ {sy : Syndrome}, sy ≠ (false, false, false) → ∃ i, i < 7 ∧ syn1 sy = some i := by
  decide

/-- Flipping the position of a block's own syndrome leaves the syndrome 000. -/
theorem syndrome_flipAt_syn1 (hr : r.length = 8) {i : Nat} (hi : syn1 (syndrome r) = some i) :
    syndrome (flipAt r i) = (false, false, false) := by
  rw [syndrome_flipAt hr hi, Bool.xor_self, Bool.xor_self, Bool.xor_self]

theorem classify_eq_noError (hp : bitAt r 7 = pgCalc r) (hz : syndrome r = (false, false, false)) :
    classify r = .noError := by
  rw [classify, if_pos hp, if_pos hz]

theorem classify_eq_single (hp : bitAt r 7 ≠ pgCalc r) : classify r = .single :=
  if_neg hp

theorem classify_eq_guess (hp : bitAt r 7 = pgCalc r) (hz : syndrome r ≠ (false, false, false)) :
    classify r = .guess := by
  rw [classify, if_pos hp, if_neg hz]

/-- Every block decodes to four bits. -/
@[simp] theorem decodeBlock_length (r : BitSeq) : (decodeBlock g r).length = 4 := by
  rw [decodeBlock]
  cases classify r with
  | noError => rfl
  | single => cases syn1 (syndrome r) <;> rfl
  | guess => rfl

theorem decodeBlock_of_noError (h : classify r = .noError) : decodeBlock g r = dataBits r := by
  rw [decodeBlock, h]

theorem decodeBlock_of_single_some (h : classify r = .single) {i : Nat} (hi : syn1 (syndrome r) = some i) :
    decodeBlock g r = dataBits (flipAt r i) := by
  simp only [decodeBlock, h, hi]

theorem decodeBlock_of_single_none (h : classify r = .single) (hi : syn1 (syndrome r) = none) :
    decodeBlock g r = dataBits r := by
  simp only [decodeBlock, h, hi]

theorem decodeBlock_of_guess (h : classify r = .guess) :
    decodeBlock g r = dataBits (flipAt (flipAt r (g (syndrome r)).1) (g (syndrome r)).2) := by
  rw [decodeBlock, h]

/-- One block decodes to its four bits, and counts if they are guessed. -/
theorem eccDecode_of_block (hr : r.length = 8) :
    eccDecode g r = (decodeBlock g r, if classify r = .guess then 1 else 0) := by
  simp [eccDecode, granules_of_length_eq (by decide) hr, List.countP_singleton]

end

/-- Settles O14: the three cases of `classify`, each with what `decodeBlock` answers in it; the flip of the
second is SYN1's. -/
theorem blockDecisionRules : Obligations.BlockDecisionRules := by
  intro g r hr _ data flip hdata hflip
  obtain rfl : data = dataBits := funext hdata
  obtain rfl : flip = flipAt := funext fun q => funext (hflip q)
  refine ⟨rfl, rfl, globalParity_ne_iff_odd hr, fun hp hz => ?_, fun hp => ?_, fun hp hz => ?_⟩
  · have hc : classify r = .noError := classify_eq_noError hp hz
    exact ⟨hc, by simp [eccDecode_of_block g hr, hc, decodeBlock_of_noError]⟩
  · have hc : classify r = .single := classify_eq_single hp
    refine ⟨hc, fun hz => ?_, fun hz => ?_⟩
    · have hnone : syn1 (syndrome r) = none := by rw [hz]; rfl
      simp [eccDecode_of_block g hr, hc, decodeBlock_of_single_none g hc hnone]
    · obtain ⟨i, hi, hsome⟩ := syn1_of_ne_zero hz
      exact ⟨i, hi, syndrome_flipAt_syn1 hr hsome,
        by simp [eccDecode_of_block g hr, hc, decodeBlock_of_single_some g hc hsome]⟩
  · have hc : classify r = .guess := classify_eq_guess hp hz
    exact ⟨hc, by simp [eccDecode_of_block g hr, hc, decodeBlock_of_guess]⟩

/-! ## The decoder (41_ecc.md R113, R115) -/

/-- A code of GUESS2 names two distinct positions in 0 to 6 (41_ecc.md R112). -/
theorem pairOfCode_distinct (p : Fin 7 × Fin 6) :
    (Config.pairOfCode p).1 < 7 ∧ (Config.pairOfCode p).2 < 7 ∧
      (Config.pairOfCode p).1 ≠ (Config.pairOfCode p).2 := by
  simp only [Config.pairOfCode]
  split <;> omega

/-- Four bits for every whole block. -/
@[simp] theorem eccDecode_length (g : Syndrome → Nat × Nat) (bits : BitSeq) :
    (eccDecode g bits).1.length = 4 * (bits.length / 8) := by
  rw [eccDecode, flatMap_length_const _ _ 4 fun r _ => decodeBlock_length g r, granules_length]

/-- The count is that of the blocks that are guessed. -/
theorem eccDecode_count (g : Syndrome → Nat × Nat) (bits : BitSeq) :
    (eccDecode g bits).2 =
      (List.range (bits.length / 8)).countP fun k => decide (classify ((bits.drop (8 * k)).take 8) = .guess) := by
  rw [eccDecode, granules_eq_map_drop_take, List.countP_map]
  rfl

/-- The four bits from `4k` on are those of block `k`. -/
theorem eccDecode_block (g : Syndrome → Nat × Nat) (bits : BitSeq) {k : Nat} (hk : k < bits.length / 8) :
    ((eccDecode g bits).1.drop (4 * k)).take 4 = decodeBlock g ((bits.drop (8 * k)).take 8) :=
  take_drop_flatMap_granules _ _ (decodeBlock_length g) hk

/-- Settles O15: what ECCDEC answers and counts is the decoding under GUESS2, whose positions are distinct
whatever its code. -/
theorem eccdecDecodesBlocks : Obligations.EccdecDecodesBlocks := by
  refine ⟨fun sy => pairOfCode_distinct (Config.guess2Code sy), fun s bits hv => ?_⟩
  refine ⟨(eccDecode Config.guess2 bits).1, (eccDecode Config.guess2 bits).2, ?_, eccDecode_length _ bits,
    eccDecode_count _ bits, fun k hk => eccDecode_block _ bits hk⟩
  rw [exec_eccdec, configured_of_valid hv]
  rfl

end Sys2Proof.Machine
end

section
/-! PROOFS. The FSK symbol modulator: the alphabet, MODBITS and TXFRAME (42_modulator.md). -/

namespace Sys2Proof.Machine

variable {S : Type}

/-! ## The alphabet (42_modulator.md R131, R132) -/

theorem dibit_rowOf (b0 b1 : Bit) : (rowOf b0 b1).dibit = (b0, b1) := by
  cases b0 <;> cases b1 <;> rfl

theorem rowOf_dibit (i : Row) : rowOf i.dibit.1 i.dibit.2 = i := by
  cases i <;> rfl

/-- The dibits of neighbouring rows agree in one bit exactly if they differ in the other. -/
theorem neighbouring_rows_differ_in_one_bit : ∀ k, k < 3 →
    ((Row.ofIndex k).dibit.1 = (Row.ofIndex (k + 1)).dibit.1 ↔
      (Row.ofIndex k).dibit.2 ≠ (Row.ofIndex (k + 1)).dibit.2) := by
  decide

/-- Settles O18: the two functions row by row, the tones by their definition. -/
theorem alphabetIsABijection : Obligations.AlphabetIsABijection :=
  ⟨rfl, rfl, rfl, rfl, rfl, rfl, rfl, rfl, dibit_rowOf, rowOf_dibit,
    fun c => ⟨rfl, rfl, rfl, rfl, freq_strictly_rising c⟩, neighbouring_rows_differ_in_one_bit⟩

/-! ## The waveform of a bit sequence (42_modulator.md R134) -/

/-- Equal entries of two waveforms, or two reads beyond the ends, are equal samples. -/
theorem sampleAt_congr {x y : SampleSeq} {m n : Nat} (h : x[m]? = y[n]?) : sampleAt x m = sampleAt y n := by
  simp only [sampleAt, waveReal, List.getD_eq_getElem?_getD, List.getElem?_map, h]

/-- Sample `k·SPS + n` is sample `n` of the tone of symbol `k`. -/
theorem sampleAt_modulate (c : Cfg) (bits : BitSeq) {k n : Nat} (hk : k < (bits.length + 1) / 2) (hn : n < c.sps) :
    sampleAt (modulate exactNum c bits) (k * c.sps + n) =
      c.toneReal (rowOf (bitAt bits (2 * k)) (bitAt bits (2 * k + 1))) n := by
  have hlen : k < (symbolRows bits).length := by rwa [symbolRows_length]
  have hrow : (symbolRows bits)[k] = rowOf (bitAt bits (2 * k)) (bitAt bits (2 * k + 1)) :=
    (List.getElem_eq_iff hlen).2 (symbolRows_getElem? bits k hk)
  rw [← hrow, ← sampleAt_tone c _ n hn]
  exact sampleAt_congr (flatMap_getElem?_const _ _ c.sps k n (fun i _ => tone_length _ c i) hn hlen)

/-- The waveform of an even input followed by another is its own followed by the other's. -/
theorem modulate_append (N : Num S) (c : Cfg) (x y : BitSeq) (h : x.length % 2 = 0) :
    modulate N c (x ++ y) = modulate N c x ++ modulate N c y := by
  rw [modulate, symbolRows_append x y h, List.flatMap_append, ← modulate, ← modulate]

/-! ## The commands of a configured block (41_ecc.md R103, 42_modulator.md R135, R138) -/

theorem exec_eccenc_of_valid {s : State} (hv : s.cfgValid = true) (b : BitSeq) :
    exec (.eccenc b) s = .next (s.respond (.bits (eccEncode b)) []) := by
  rw [exec_eccenc, configured_of_valid hv]

theorem exec_modbits_of_valid {s : State} (hv : s.cfgValid = true) (b : BitSeq) :
    exec (.modbits b) s = .next (s.respond (.samples (modulate exactNum s.cfg b)) []) := by
  rw [exec_modbits, configured_of_valid hv]

theorem exec_txframe_of_valid {s : State} (hv : s.cfgValid = true) (b : BitSeq) :
    exec (.txframe b) s = .next (s.respond (.samples (frame exactNum s.cfg b)) []) := by
  rw [exec_txframe, configured_of_valid hv]

/-! ## MODBITS (42_modulator.md R135) -/

/-- The state after a response determines the result that was delivered. -/
theorem respond_result_injective {w : Nat} {s : State S w} {r r' : Result S w} {ev ev' : List (Event S)}
    (h : s.respond r ev = s.respond r' ev') : r = r' := by
  have hresp : s.responses ++ [.ok r ev] = s.responses ++ [.ok r' ev'] := congrArg State.responses h
  injection List.singleton_inj.1 (List.append_cancel_left hresp)

/-- A waveform that MODBITS answers is that of its operand. -/
theorem eq_modulate_of_exec_modbits {s : State} (hv : s.cfgValid = true) {b : BitSeq} {v : SampleSeq}
    (h : exec (.modbits b) s = .next (s.respond (.samples v) [])) : v = modulate exactNum s.cfg b := by
  rw [exec_modbits_of_valid hv] at h
  injection h with h
  injection respond_result_injective h with h
  exact h.symm

/-- Settles O21: `modulate` sample by sample, on an input with its padding zero, and on a concatenation. -/
theorem modbitsWaveform : Obligations.ModbitsWaveform := by
  refine fun s bits hv => ⟨modulate exactNum s.cfg bits, exec_modbits_of_valid hv bits, modulate_length _ _ bits,
    fun k n hk hn f hf => ?_, fun hodd => ?_, fun more v heven hmore => ?_⟩
  · have hfreq : f = s.cfg.freq (rowOf (bitAt bits (2 * k)) (bitAt bits (2 * k + 1))) := by
      rw [hf, bitAt, bitAt]
      cases bits.getD (2 * k) false <;> cases bits.getD (2 * k + 1) false <;> rfl
    rw [hfreq]
    exact sampleAt_modulate s.cfg bits hk hn
  · rw [exec_modbits, modulate_append_zero _ _ _ hodd, ← exec_modbits]
  · rw [eq_modulate_of_exec_modbits hv hmore, exec_modbits_of_valid hv, modulate_append _ _ _ _ heven]

/-! ## TXFRAME (42_modulator.md R137, R138) -/

/-- The waveform of `m` encoded bytes has 8 SPS samples a byte. -/
theorem modulate_eccEncode_length (N : Num S) (c : Cfg) {bits : BitSeq} {m : Nat} (h : bits.length = 8 * m) :
    (modulate N c (eccEncode bits)).length = 8 * c.sps * m := by
  have hsymbols : (8 * ((8 * m + 3) / 4) + 1) / 2 = 8 * m := by omega
  rw [modulate_length, eccEncode_length, h, hsymbols]
  ring

/-- The length of a frame with all parts encoded and a payload of whole bytes (42_modulator.md R138). -/
theorem frame_length_of_encoded (N : Num S) (c : Cfg) (hen : c.eccEn = ⟨true, true, true⟩) {payload : BitSeq}
    {m : Nat} (h : payload.length = 8 * m) :
    (frame N c payload).length = c.sps * 8 * (c.keyStart.length + m + c.keyEnd.length) := by
  have hstart : (c.startRef N).length = 8 * c.sps * c.keyStart.length :=
    modulate_encodedKey_length N c (by rw [hen]) _
  have hend : (c.endRef N).length = 8 * c.sps * c.keyEnd.length := modulate_encodedKey_length N c (by rw [hen]) _
  have hpayload : (modulate N c (codedIf c.eccEn.payload payload)).length = 8 * c.sps * m := by
    rw [codedIf_of_enabled (by rw [hen]), modulate_eccEncode_length N c h]
  rw [frame, List.length_append, List.length_append, hstart, hpayload, hend]
  ring

/-- An enabled part of a frame is what ECCENC answers for it. -/
theorem exec_eccenc_codedIf {s : State} (hv : s.cfgValid = true) {enable : Bit} (h : enable = true) (bits : BitSeq) :
    exec (.eccenc bits) s = .next (s.respond (.bits (codedIf enable bits)) []) := by
  rw [codedIf_of_enabled h, exec_eccenc_of_valid hv]

/-- Settles O24: the parts are the coded start key, payload and end key, whose waveforms `frame` concatenates. -/
theorem txframeIsThreeParts : Obligations.TxframeIsThreeParts :=
  fun s payload hv => ⟨s.cfg.startCoded, codedIf s.cfg.eccEn.payload payload, s.cfg.endCoded, _, _, _,
    exec_txframe_of_valid hv payload,
    exec_modbits_of_valid hv _, exec_modbits_of_valid hv _, exec_modbits_of_valid hv _,
    fun h => exec_eccenc_codedIf hv h _, fun h => codedIf_of_disabled h _,
    fun h => exec_eccenc_codedIf hv h _, fun h => codedIf_of_disabled h _,
    fun h => exec_eccenc_codedIf hv h _, fun h => codedIf_of_disabled h _,
    fun _ hen hlen => frame_length_of_encoded _ _ hen hlen⟩

end Sys2Proof.Machine
end

section
/-! PROOFS. The matched-filter demodulator: LOCATE, DEMOD and RXFRAME (43_demodulator.md). -/

namespace Sys2Proof.Machine

variable {S : Type} {w : Nat}

/-! ## The frame locator and LOCATE (43_demodulator.md R153, R154, R157) -/

/-- The locator takes the first greatest correlations, and finds a frame where they leave a segment. -/
theorem locateFrame_of_firstMax {x r e : SampleSeq} {a b : Nat} (hr : r.length ≤ x.length) (he : e.length ≤ x.length)
    (ha : FirstMax (corrAt x r) (x.length - r.length + 1) a) (hb : FirstMax (corrAt x e) (x.length - e.length + 1) b) :
    locateFrame exactNum x r e = if a + r.length < b then some (a + r.length, b) else none := by
  have hstart : argmaxFirst exactNum.lt (xcorrValid exactNum x r) = a := (xcorr_firstMax x r hr).unique ha
  have hend : argmaxFirst exactNum.lt (xcorrValid exactNum x e) = b := (xcorr_firstMax x e he).unique hb
  rw [locateFrame, if_neg (by omega), hstart, hend, ← ite_not]
  simp only [ge_iff_le, not_le]

/-- Settles O25: the lags are those that the locator's two searches return. -/
theorem locateFindsFirstMaxima : Obligations.LocateFindsFirstMaxima := by
  rintro s x _ _ hv rfl rfl
  refine ⟨fun h => locateWith_of_none hv (locateFrame_of_short _ h), fun hr he => ?_⟩
  have ha := xcorr_firstMax x (s.cfg.startRef exactNum) hr
  have hb := xcorr_firstMax x (s.cfg.endRef exactNum) he
  have hl := locateFrame_of_firstMax hr he ha hb
  refine ⟨_, _, ha, hb, fun h => ?_, fun h => ?_⟩
  · exact locateWith_of_some hv (hl.trans (if_pos h))
  · exact locateWith_of_none hv (hl.trans (if_neg h.not_gt))

/-! ## Windows and DEMOD (43_demodulator.md R160, R162 to R164) -/

/-- Two bits for every whole window. -/
@[simp] theorem demodulate_length (N : Num S) (score : Score) (c : Cfg) (x : List S) :
    (demodulate N score c x).length = 2 * (x.length / c.sps) := by
  rw [demodulate, flatMap_length_const _ _ 2 fun _ _ => rfl, granules_length]

/-- Bits `2k` and `2k + 1` are the dibit of the row decided for window `k`. -/
theorem demodulate_dibit (N : Num S) (score : Score) (c : Cfg) (x : List S) {k : Nat} {i : Row}
    (hk : k < x.length / c.sps) (hi : decideRow N score c (slice x (k * c.sps) ((k + 1) * c.sps)) = i) :
    (demodulate N score c x)[2 * k]? = some i.dibit.1 ∧ (demodulate N score c x)[2 * k + 1]? = some i.dibit.2 := by
  subst hi
  have hlen : k < (granules c.sps x).length := by rwa [granules_length]
  have hwindow : (granules c.sps x)[k] = slice x (k * c.sps) ((k + 1) * c.sps) :=
    (List.getElem_eq_iff hlen).2 (granules_getElem? c.sps k x hk)
  rw [← hwindow, Nat.mul_comm 2 k]
  exact ⟨flatMap_getElem?_const _ _ 2 k 0 (fun _ _ => rfl) (by decide) hlen,
    flatMap_getElem?_const _ _ 2 k 1 (fun _ _ => rfl) (by decide) hlen⟩

/-- The score of a window cut out of a signal is that of the window in the signal. -/
theorem scoreAt_slice (c : Cfg) (x : SampleSeq) (i : Row) {k l : Nat} (h : l - k = c.sps) :
    c.scoreAt (slice x k l) 0 i = c.scoreAt x k i := by
  refine Finset.sum_congr rfl fun n hn => ?_
  rw [Nat.zero_add, sampleAt_slice x k l n (by rw [h]; exact Finset.mem_range.1 hn)]

theorem exec_demod_of_valid {s : State} (hv : s.cfgValid = true) (x : SampleSeq) :
    exec (.demod x) s = .next (s.respond (.bits (demodulate exactNum Config.score s.cfg x)) []) := by
  rw [exec_demod, configured_of_valid hv]

/-- Settles O27: the decided SCORE is DOT, and window `k` is the slice of `SPS` samples from `k·SPS`. -/
theorem demodDecidesGreatestScore : Obligations.DemodDecidesGreatestScore := by
  refine fun s x hv => ⟨_, exec_demod_of_valid hv x, demodulate_length _ _ _ x, fun k hk => ?_⟩
  have hspan : (k + 1) * s.cfg.sps - k * s.cfg.sps = s.cfg.sps := by
    rw [Nat.add_mul, Nat.one_mul, Nat.add_sub_cancel_left]
  have hinside : (k + 1) * s.cfg.sps ≤ x.length :=
    (Nat.mul_le_mul_right _ hk).trans (Nat.div_mul_le_self _ _)
  obtain ⟨m, hm, hrow⟩ := decideRow_dot s.cfg (slice x (k * s.cfg.sps) ((k + 1) * s.cfg.sps))
    ((slice_length x _ _ hinside).trans hspan)
  simp only [scoreAt_slice s.cfg x _ hspan] at hm
  exact ⟨m, hm, demodulate_dibit exactNum .dot s.cfg x hk hrow⟩

/-! ## The normalised score (43_demodulator.md R161) -/

/-- A search over the four rows, in any order that is that of a real value of each row, finds the first
greatest value. -/
theorem argmaxFirst_rows_firstMax {α : Type} (lt : α → α → Bool) (f : Row → α) (v : Row → ℝ)
    (h : ∀ i j, lt (f i) (f j) = true ↔ v i < v j) :
    FirstMax (fun k => v (Row.ofIndex k)) 4 (argmaxFirst lt (Row.all.map f)) := by
  rw [← argmaxFirst_map (fun i j => lt (f i) (f j)) lt f fun _ _ => rfl]
  obtain ⟨hm, hmax, hfirst⟩ := argmaxFirst_spec (fun i j => lt (f i) (f j)) v h Row.all (by decide)
  have hrow : ∀ k, (hk : k < Row.all.length) → Row.all[k] = Row.ofIndex k := by decide
  simp only [hrow] at hmax hfirst
  refine ⟨hm, fun k hk => ?_, hfirst⟩
  exact hmax _ (List.mem_of_getElem (hrow k hk))

/-- A window of norm 0 is silent. -/
theorem sampleAt_of_waveNorm_zero {x : SampleSeq} (h : waveNorm x = 0) (n : Nat) : sampleAt x n = 0 := by
  have hsq : ∀ m ∈ Finset.range x.length, 0 ≤ sampleAt x m * sampleAt x m := fun m _ => mul_self_nonneg _
  have hsum := (Real.sqrt_eq_zero (Finset.sum_nonneg hsq)).1 h
  rcases Nat.lt_or_ge n x.length with hn | hn
  · exact mul_self_eq_zero.1 ((Finset.sum_eq_zero_iff_of_nonneg hsq).1 hsum n (Finset.mem_range.2 hn))
  · exact sampleAt_beyond hn

theorem scoreAt_of_waveNorm_zero (c : Cfg) {x : SampleSeq} (h : waveNorm x = 0) (k : Nat) (i : Row) :
    c.scoreAt x k i = 0 :=
  Finset.sum_eq_zero fun n _ => by rw [sampleAt_of_waveNorm_zero h, zero_mul]

/-- The window's own norm does not change the order of the scores. -/
theorem normScore_lt_iff (c : Cfg) (x : SampleSeq) (i j : Row) :
    c.normScore x i < c.normScore x j ↔
      c.scoreAt x 0 i / Real.sqrt (c.gram i i) < c.scoreAt x 0 j / Real.sqrt (c.gram j j) := by
  by_cases h : waveNorm x = 0
  · simp [Cfg.normScore, h, scoreAt_of_waveNorm_zero c h]
  · have hpos : 0 < waveNorm x := lt_of_le_of_ne (Real.sqrt_nonneg _) (Ne.symm h)
    simp only [Cfg.normScore, if_neg h, mul_comm (waveNorm x), ← div_div]
    exact div_lt_div_iff_of_pos_right hpos

/-- With bursts of equal norms the normalised scores are ordered as the scores themselves. -/
theorem normScore_lt_iff_of_equal_norms {c : Cfg} (hs : 1 ≤ c.sps) (x : SampleSeq) {i j : Row}
    (h : c.gram i i = c.gram j j) : c.normScore x i < c.normScore x j ↔ c.scoreAt x 0 i < c.scoreAt x 0 j := by
  have hpos : 0 < Real.sqrt (c.gram j j) := Real.sqrt_pos.2 (one_pos.trans_le (gram_self_ge_one c hs j))
  rw [normScore_lt_iff, h, div_lt_div_iff_of_pos_right hpos]

/-- The row that `NDOT` decides for a window of one symbol. -/
theorem decideRow_ndot (c : Cfg) (x : SampleSeq) (hs : 1 ≤ c.sps) (h : x.length = c.sps) :
    ∃ m, FirstMax (fun i => c.normScore x (Row.ofIndex i)) 4 m ∧ decideRow exactNum .ndot c x = Row.ofIndex m := by
  refine ⟨_, argmaxFirst_rows_firstMax (ndotLt exactNum) _ (c.normScore x) fun i j => ?_, rfl⟩
  have hpos (i : Row) : 0 < (exactNum.dot (c.tone exactNum i) (c.tone exactNum i)).toReal := by
    rw [gram_toReal]
    exact one_pos.trans_le (gram_self_ge_one c hs i)
  rw [ndotLt_iff _ _ (hpos i) (hpos j), normScore_lt_iff]
  simp only [gram_toReal, score_toReal c x _ h]

/-- Settles O28: the first greatest index depends on the order of the scores alone. -/
theorem normalisedScoreDecision : Obligations.NormalisedScoreDecision := by
  refine fun c x hs hx => ⟨decideRow_ndot c x hs hx, fun i => Real.one_le_sqrt.2 (gram_self_ge_one c hs i), fun heq => ?_⟩
  obtain ⟨m, hm, hndot⟩ := decideRow_ndot c x hs hx
  obtain ⟨n, hn, hdot⟩ := decideRow_dot c x hx
  have hm' : FirstMax (fun i => c.scoreAt x 0 (Row.ofIndex i)) 4 m :=
    hm.of_order fun _ _ _ _ => normScore_lt_iff_of_equal_norms hs x (heq _ _)
  rw [hndot, hdot, hm'.unique hn]

/-! ## The receive path and RXFRAME (43_demodulator.md R167, R168) -/

section
variable {P : Build S} {s : State S w} {x : List S} {b e : Nat}

theorem rxframeWith_of_none (hv : s.cfgValid = true)
    (hl : locateFrame P.num x (s.cfg.startRef P.num) (s.cfg.endRef P.num) = none) :
    rxframeWith P x s = .next (s.raise .noSyncFound) := by
  simp [rxframeWith, receive, hv, hl]

/-- With an encoded payload RXFRAME is ECCDEC of the segment's bits. -/
theorem rxframeWith_of_encoded (hv : s.cfgValid = true) (hp : s.cfg.eccEn.payload = true)
    (hl : locateFrame P.num x (s.cfg.startRef P.num) (s.cfg.endRef P.num) = some (b, e)) :
    rxframeWith P x s = eccdecWith P (demodulate P.num P.score s.cfg (slice x b e)) s := by
  simp [rxframeWith, receive, eccdecWith, hv, hl, hp]

/-- With a payload that is not encoded RXFRAME answers the segment's bits and counts nothing. -/
theorem rxframeWith_of_plain (hv : s.cfgValid = true) (hp : s.cfg.eccEn.payload = false)
    (hl : locateFrame P.num x (s.cfg.startRef P.num) (s.cfg.endRef P.num) = some (b, e)) :
    rxframeWith P x s = .next ((s.countGuessed 0).respond
      (.bitsGuessed (demodulate P.num P.score s.cfg (slice x b e)) 0) []) := by
  simp [rxframeWith, receive, hv, hl, hp]

end

theorem exec_eccdec_of_valid {s : State} (hv : s.cfgValid = true) (bits : BitSeq) :
    exec (.eccdec bits) s = .next ((s.countGuessed (eccDecode Config.guess2 bits).2).respond
      (.bitsGuessed (eccDecode Config.guess2 bits).1 (eccDecode Config.guess2 bits).2) []) := by
  rw [exec_eccdec, configured_of_valid hv]

/-- Settles O33: the locator leaves a segment or none, and its bits are decoded or not. -/
theorem rxframeIsTheReceivePath : Obligations.RxframeIsTheReceivePath := by
  rintro s x _ _ hv rfl rfl
  refine ⟨fun h => rxframeWith_of_none hv (locateFrame_of_short _ h), fun a b hr he ha hb => ?_⟩
  have hl := locateFrame_of_firstMax hr he ha hb
  refine ⟨fun h => rxframeWith_of_none hv (hl.trans (if_neg h.not_gt)), fun h => ?_⟩
  rw [if_pos h] at hl
  cases hp : s.cfg.eccEn.payload with
  | true =>
    have hrx := rxframeWith_of_encoded (P := Build.decided) hv hp hl
    exact ⟨_, _, _, exec_demod_of_valid hv _, hrx.trans (exec_eccdec_of_valid hv _), fun _ => hrx.symm, nofun⟩
  | false =>
    have hrx := rxframeWith_of_plain (P := Build.decided) hv hp hl
    refine ⟨_, _, _, exec_demod_of_valid hv _, hrx, nofun, fun _ => hrx.trans ?_⟩
    rw [State.countGuessed_zero]
    rfl

end Sys2Proof.Machine
end

section
/-! PROOFS. The frame detector: DETSTART, DETCHUNK, DETSTOP, TXON and TXOFF (44_detector.md). -/

namespace Sys2Proof.Machine

variable {S : Type} {w : Nat}

/-! ## DETSTART, DETSTOP, TXON and TXOFF (44_detector.md R182, R192, R194, R195) -/

section
variable {s : State S w}

theorem detstartOn_of_no_length (hv : s.cfgValid = true) (hn : s.cfg.chunkLen = none) :
    detstartOn s = .next (s.raise .notConfigured) := by
  simp [detstartOn, hv, hn]

theorem detstartOn_of_stopped (hv : s.cfgValid = true) {n : Nat} (hn : s.cfg.chunkLen = some n)
    (hr : s.detRun = false) :
    detstartOn s =
      .next (State.respond { s with detRun := true, detState := .idle, detBuf := [] } .empty []) := by
  simp [detstartOn, hv, hn, hr]

theorem detstartOn_of_running (hv : s.cfgValid = true) {n : Nat} (hn : s.cfg.chunkLen = some n)
    (hr : s.detRun = true) : detstartOn s = .next (s.respond .empty []) := by
  simp [detstartOn, hv, hn, hr]

/-- A stopped detector is `Idle` with an empty buffer (10_state.md R37), so stopping it again writes nothing. -/
theorem State.Inv.stopped_eq_self (h : s.Inv) (hr : s.detRun = false) :
    { s with detRun := false, detState := .idle, detBuf := [] } = s := by
  obtain ⟨hidle, hrec⟩ := h.buf
  have hd : s.detState = .idle := by
    cases hd : s.detState with
    | idle => rfl
    | recording =>
      obtain ⟨hrun, -⟩ := hrec hd
      simp [hr] at hrun
  rw [← hr, ← hd, ← hidle hd]

end

/-- Settles O35. -/
theorem detstartRule : Obligations.DetstartRule :=
  fun _ hv => ⟨detstartOn_of_no_length hv, fun _ hn => ⟨detstartOn_of_stopped hv hn, detstartOn_of_running hv hn⟩⟩

/-- Settles O36. -/
theorem detstopRule : Obligations.DetstopRule := by
  intro s hv
  have hstop : exec .detstop s =
      .next (State.respond { s with detRun := false, detState := .idle, detBuf := [] } .empty []) :=
    configured_of_valid hv _
  exact ⟨hstop, fun hi hr => by rw [hstop, hi.stopped_eq_self hr]⟩

/-- Settles O37. -/
theorem txGateSetAndClear : Obligations.TxGateSetAndClear :=
  fun _ hv => ⟨configured_of_valid hv _, configured_of_valid hv _⟩

/-! ## The rolling correlator (44_detector.md R181, R183) -/

/-- The values of the correlation of `x` with a `ref` that is not longer. -/
def corrValues (x ref : SampleSeq) : Set ℝ := corrAt x ref '' Set.Iic (x.length - ref.length)

theorem FirstMax.isGreatest {v : Nat → ℝ} {n m : Nat} (h : FirstMax v (n + 1) m) :
    IsGreatest (v '' Set.Iic n) (v m) := by
  obtain ⟨hm, hmax, -⟩ := h
  exact ⟨⟨m, Nat.le_of_lt_succ hm, rfl⟩, Set.forall_mem_image.2 fun k hk => hmax k (Nat.lt_succ_of_le hk)⟩

/-- The value at the lag that the search returns is the greatest. -/
theorem xcorr_isGreatest {x ref : SampleSeq} (h : ref.length ≤ x.length) :
    IsGreatest (corrValues x ref) ((xcorrValid exactNum x ref).getD
      (argmaxFirst exactNum.lt (xcorrValid exactNum x ref)) (exactNum.ofRat 0)).toReal := by
  have hm := xcorr_firstMax x ref h
  have hlt : argmaxFirst exactNum.lt (xcorrValid exactNum x ref) < (xcorrValid exactNum x ref).length := by
    rw [xcorrValid_length]
    exact hm.1
  rw [List.getD_eq_getElem _ _ hlt, xcorrValid_toReal x ref h _ hlt]
  exact hm.isGreatest

theorem peak_isGreatest_of_le {x ref : SampleSeq} (h : ref.length ≤ x.length) :
    IsGreatest (corrValues x ref) (peak exactNum x ref).toReal := by
  rw [peak, rollingCorr, if_pos h]
  exact xcorr_isGreatest h

theorem peak_isGreatest_of_lt {x ref : SampleSeq} (h : x.length < ref.length) :
    IsGreatest (corrValues ref x) (peak exactNum x ref).toReal := by
  rw [peak, rollingCorr, if_neg h.not_ge]
  exact xcorr_isGreatest h.le

theorem corrAt_of_ref_empty (x : SampleSeq) {ref : SampleSeq} (h : ref.length = 0) (k : Nat) : corrAt x ref k = 0 := by
  simp [corrAt, h]

/-- Every correlation with an empty reference is 0, so the greatest is. -/
theorem peak_of_ref_empty (x : SampleSeq) {ref : SampleSeq} (h : ref.length = 0) :
    (peak exactNum x ref).toReal = 0 := by
  obtain ⟨⟨k, -, hk⟩, -⟩ := peak_isGreatest_of_le (x := x) (ref := ref) (by omega)
  rw [← hk, corrAt_of_ref_empty x h]

theorem hit_iff_lt_peak (th : Rat) (x ref : SampleSeq) :
    hit exactNum th x ref = true ↔ (th : ℝ) < (peak exactNum x ref).toReal := by
  have hlt := exactLt_iff (exactOfRat th) (peak exactNum x ref)
  rwa [exactOfRat_toReal] at hlt

/-! Scaling a sequence scales its correlations, whichever side it is on, and a positive factor keeps their order. -/

section
variable {x y : SampleSeq} {g : ℝ}

theorem corrAt_scale_left (ref : SampleSeq) (hy : ∀ n, sampleAt y n = g * sampleAt x n) (k : Nat) :
    corrAt y ref k = g * corrAt x ref k := by
  simp only [corrAt, hy, mul_assoc, Finset.mul_sum]

theorem corrAt_scale_right (z : SampleSeq) (hlen : y.length = x.length) (hy : ∀ n, sampleAt y n = g * sampleAt x n)
    (k : Nat) : corrAt z y k = g * corrAt z x k := by
  simp only [corrAt, hlen, hy, mul_left_comm _ g, Finset.mul_sum]

theorem isGreatest_image_scale {u v : Nat → ℝ} (I : Set Nat) {a : ℝ} (hg : 0 < g) (hv : ∀ k, v k = g * u k)
    (h : IsGreatest (u '' I) a) : IsGreatest (v '' I) (g * a) := by
  have himage : v '' I = (g * ·) '' (u '' I) := by rw [Set.image_image, funext hv]
  rw [himage]
  exact (monotone_mul_left_of_nonneg hg.le).map_isGreatest h

theorem peak_scale (ref : SampleSeq) (hg : 0 < g) (hlen : y.length = x.length)
    (hy : ∀ n, sampleAt y n = g * sampleAt x n) :
    (peak exactNum y ref).toReal = g * (peak exactNum x ref).toReal := by
  rcases le_or_gt ref.length x.length with h | h
  · have hx := isGreatest_image_scale _ hg (corrAt_scale_left ref hy) (peak_isGreatest_of_le h)
    rw [← hlen] at hx h
    exact (peak_isGreatest_of_le h).unique hx
  · have hx := isGreatest_image_scale _ hg (corrAt_scale_right ref hlen hy) (peak_isGreatest_of_lt h)
    rw [← hlen] at hx h
    exact (peak_isGreatest_of_lt h).unique hx

end

/-- A greatest correlation, in the words of R181: one of them, and none above it. -/
theorem corr_bounds_of_isGreatest {x ref : SampleSeq} {p : ℝ} (h : IsGreatest (corrValues x ref) p) :
    (∃ k, k ≤ x.length - ref.length ∧ p = corrAt x ref k) ∧ ∀ k, k ≤ x.length - ref.length → corrAt x ref k ≤ p := by
  obtain ⟨⟨k, hk, hp⟩, hmax⟩ := h
  exact ⟨⟨k, hk, hp.symm⟩, Set.forall_mem_image.1 hmax⟩

/-- Settles O38: the search of the correlator returns the greatest correlation, the chunk on either side. -/
theorem rollingCorrelatorPeak : Obligations.RollingCorrelatorPeak :=
  fun th x r => ⟨fun h => corr_bounds_of_isGreatest (peak_isGreatest_of_le h),
    fun h => corr_bounds_of_isGreatest (peak_isGreatest_of_lt h), peak_of_ref_empty x, hit_iff_lt_peak th x r,
    fun _ _ hg hlen hy => peak_scale r hg hlen hy⟩

/-- A hit is a real correlation above the threshold. -/
theorem hit_iff_exists_corr (th : Rat) (x r : SampleSeq) : hit exactNum th x r = true ↔
    (r.length ≤ x.length ∧ ∃ k, k ≤ x.length - r.length ∧ (th : ℝ) < corrAt x r k) ∨
      (x.length < r.length ∧ ∃ k, k ≤ r.length - x.length ∧ (th : ℝ) < corrAt r x k) := by
  have hhit : hit exactNum th x r = hit realNum th (waveReal x) (waveReal r) := exactNum_hom.hit th x r
  simp only [hhit, realHit_iff, HitReal, waveReal_length, corrAt_eq]

/-- No hit where no real correlation is above the threshold. -/
theorem hit_eq_false_of_corr_le {th : Rat} {x r : SampleSeq}
    (h : (r.length ≤ x.length ∧ ∀ k, k ≤ x.length - r.length → corrAt x r k ≤ (th : ℝ)) ∨
      (x.length < r.length ∧ ∀ k, k ≤ r.length - x.length → corrAt r x k ≤ (th : ℝ))) :
    hit exactNum th x r = false := by
  rw [Bool.eq_false_iff, ne_eq, hit_iff_exists_corr]
  rintro (⟨hl, k, hk, hlt⟩ | ⟨hl, k, hk, hlt⟩)
  · obtain ⟨-, hle⟩ | ⟨hl', -⟩ := h
    · exact (hle k hk).not_gt hlt
    · exact hl.not_gt hl'
  · obtain ⟨hl', -⟩ | ⟨-, hle⟩ := h
    · exact hl.not_ge hl'
    · exact (hle k hk).not_gt hlt

/-! ## DETCHUNK of a running detector (44_detector.md R185 to R191) -/

section
variable {P : Build S} {n : Nat} {x : List S} {s : State S w}

theorem detTransition_starts (hd : s.detState = .idle) (ht : s.txActive = false)
    (hh : hit P.num s.cfg.thresh x (s.cfg.startRef P.num) = true) :
    detTransition P n x s = State.respond { s with detState := .recording, detBuf := x } .empty [.startOfFrame] := by
  simp [detTransition, hd, ht, hh]

theorem detTransition_drops (hd : s.detState = .idle)
    (h : s.txActive = true ∨ hit P.num s.cfg.thresh x (s.cfg.startRef P.num) = false) :
    detTransition P n x s = s.respond .empty [] := by
  rcases h with h | h <;> simp [detTransition, hd, h]

theorem detTransition_overruns (hd : s.detState = .recording)
    (ho : overrun P.maxFrameChunks n (s.detBuf ++ x).length = true) :
    detTransition P n x s = State.respond { s with detState := .idle, detBuf := [] } .empty [.frameOverrun] := by
  rw [detTransition, hd]
  exact if_pos ho

theorem detTransition_completes (hd : s.detState = .recording)
    (ho : overrun P.maxFrameChunks n (s.detBuf ++ x).length = false)
    (hh : hit P.num s.cfg.thresh x (s.cfg.endRef P.num) = true) :
    detTransition P n x s =
      State.respond { s with detState := .idle, detBuf := [] } .empty [.frameComplete (s.detBuf ++ x)] := by
  simp only [detTransition, hd, ho, hh, Bool.false_eq_true, if_false, if_true]

theorem detTransition_appends (hd : s.detState = .recording)
    (ho : overrun P.maxFrameChunks n (s.detBuf ++ x).length = false)
    (hh : hit P.num s.cfg.thresh x (s.cfg.endRef P.num) = false) :
    detTransition P n x s = State.respond { s with detBuf := s.detBuf ++ x } .empty [] := by
  simp only [detTransition, hd, ho, hh, Bool.false_eq_true, if_false]

/-- In `Recording` TX_ACTIVE is carried along and not read. -/
theorem detTransition_replace_txActive (hd : s.detState = .recording) (b : Bit) :
    detTransition P n x { s with txActive := b } = { detTransition P n x s with txActive := b } := by
  have hd' : ({ s with txActive := b } : State S w).detState = .recording := hd
  cases ho : overrun P.maxFrameChunks n (s.detBuf ++ x).length with
  | true => rw [detTransition_overruns hd ho, detTransition_overruns hd' ho]; rfl
  | false =>
    cases hh : hit P.num s.cfg.thresh x (s.cfg.endRef P.num) with
    | true => rw [detTransition_completes hd ho hh, detTransition_completes hd' ho hh]; rfl
    | false => rw [detTransition_appends hd ho hh, detTransition_appends hd' ho hh]; rfl

/-- The limit is read only in `Recording`, and only to say whether the buffer overruns it. -/
theorem detTransition_congr_limit {a b : Option Nat} (h : s.detState = .recording →
      overrun a n (s.detBuf ++ x).length = overrun b n (s.detBuf ++ x).length) :
    detTransition { P with maxFrameChunks := a } n x s = detTransition { P with maxFrameChunks := b } n x s := by
  cases hd : s.detState with
  | idle => simp only [detTransition, hd]
  | recording => simp only [detTransition, hd, h hd]

/-- DETCHUNK of a running detector is its transition. -/
theorem execWith_detchunk_of_running (P : Build S) (hv : s.cfgValid = true) (hr : s.detRun = true)
    (hn : s.cfg.chunkLen = some n) (hl : x.length = n) :
    execWith P (.detchunk x) s = .next (detTransition P n x s) := by
  rw [← detChunk_of_length P hr hn hl]
  exact configured_of_valid hv _

end

theorem exec_detchunk_of_running {s : State} {n : Nat} {x : SampleSeq} (hv : s.cfgValid = true) (hr : s.detRun = true)
    (hn : s.cfg.chunkLen = some n) (hl : x.length = n) :
    exec (.detchunk x) s = .next (detTransition Build.decided n x s) :=
  execWith_detchunk_of_running Build.decided hv hr hn hl

/-- Settles O40: the gate and the start test are the two conditions of the transition. -/
theorem detchunkInIdle : Obligations.DetchunkInIdle := by
  rintro s x _ hv hr hd hn rfl
  rw [exec_detchunk_of_running hv hr hn rfl]
  refine ⟨fun ht => ?_, fun ht => ⟨fun h => ?_, fun h => ?_⟩⟩
  · rw [detTransition_drops hd (.inl ht)]
  · rw [detTransition_starts hd ht ((hit_iff_exists_corr _ _ _).2 h)]
  · rw [detTransition_drops hd (.inr (hit_eq_false_of_corr_le h))]

/-- A recording holds at least one chunk, so with another it holds at least two (10_state.md R37). -/
theorem State.Inv.two_chunks_of_append {s : State S w} (h : s.Inv) (hd : s.detState = .recording) {x : List S}
    (hn : s.cfg.chunkLen = some x.length) : ∃ k, 2 ≤ k ∧ (s.detBuf ++ x).length = k * x.length := by
  obtain ⟨-, hrec⟩ := h.buf
  obtain ⟨-, n, k, hn', hk, hlen⟩ := hrec hd
  obtain rfl : x.length = n := Option.some.inj (hn.symm.trans hn')
  exact ⟨k + 1, by omega, by rw [List.length_append, hlen, Nat.succ_mul]⟩

/-- Settles O41: MAX_FRAME_CHUNKS is unlimited, so the end test alone decides. -/
theorem detchunkInRecording : Obligations.DetchunkInRecording := by
  rintro s x _ hv hr hd hn rfl
  rw [exec_detchunk_of_running hv hr hn rfl]
  refine ⟨fun h => ?_, fun h => ?_, fun hi => hi.two_chunks_of_append hd hn⟩
  · rw [detTransition_completes hd rfl ((hit_iff_exists_corr _ _ _).2 h)]
  · rw [detTransition_appends hd rfl (hit_eq_false_of_corr_le h)]

/-- Settles O42: the two cases of DET_STATE, of which only `Idle` reads TX_ACTIVE. -/
theorem transmitGateActsOnlyInIdle : Obligations.TransmitGateActsOnlyInIdle := by
  intro s x hv hr hn
  have hrun := exec_detchunk_of_running hv hr hn rfl
  refine ⟨fun hd ht => ?_, fun hd => ⟨_, hrun, fun b => ?_⟩⟩
  · rw [hrun, detTransition_drops hd (.inl ht)]
  · rw [← detTransition_replace_txActive hd b]
    exact exec_detchunk_of_running hv hr hn rfl

/-! ## MAX_FRAME_CHUNKS (44_detector.md R191) -/

/-- Another chunk overruns the limit exactly where whole chunks would exceed it. -/
theorem overrun_of_whole_chunks {m n k : Nat} (hn : 1 ≤ n) (h : m * n < k * n + n) :
    overrun (some m) n (k * n + n) = true := by
  refine (overrun_iff _ _ _).2 ⟨m, rfl, ?_⟩
  rw [← Nat.succ_mul] at h ⊢
  rw [Nat.mul_div_cancel _ hn]
  exact Nat.lt_of_mul_lt_mul_right h

theorem overrun_of_le {m n len : Nat} (h : len ≤ m * n) : overrun (some m) n len = false := by
  rw [Bool.eq_false_iff, ne_eq, overrun_iff]
  rintro ⟨_, hm, hlt⟩
  obtain rfl := Option.some.inj hm
  exact hlt.not_ge (Nat.div_le_of_le_mul (h.trans_eq (Nat.mul_comm _ _)))

/-- Settles O43: a limit matters only through `overrun`, which compares whole chunks. -/
theorem frameLengthLimit : Obligations.FrameLengthLimit := by
  refine ⟨?_, fun s x => exec_eq_execWith (.detchunk x) s⟩
  rintro S w P m n s x - hn hv hc hl hr
  have hlen : (s.detBuf ++ x).length = s.detBuf.length + n := by rw [List.length_append, hl]
  simp only [execWith_detchunk_of_running _ hv hr hc hl]
  refine ⟨fun hd hlt ⟨k, hk⟩ => ?_, fun hd hle => ?_, fun hd => ?_⟩
  · have ho : overrun (some m) n (s.detBuf ++ x).length = true := by
      rw [hlen, hk]
      exact overrun_of_whole_chunks hn (hk ▸ hlt)
    rw [detTransition_overruns hd ho]
  · rw [detTransition_congr_limit (b := none) fun _ => by rw [hlen, overrun_of_le hle]; rfl]
  · rw [detTransition_congr_limit (b := none) fun hd' => by simp [hd] at hd']

/-! ## A whole recording (44_detector.md R197) -/

/-- The host's input that presents `x` to the detector. -/
def chunkInput (x : SampleSeq) : Input := .command (encode (.detchunk x))

theorem run_succ_of_step {s t : State} (h : step s = .next t) (k : Nat) :
    Sys2Proof.core.run (k + 1) s = Sys2Proof.core.run k t := by
  have hcore : Sys2Proof.core.step s = .next t := h
  simp only [Host.Core.run, hcore]

/-- A step of a running detector on a chunk. -/
theorem step_chunk {s : State} {n : Nat} {x : SampleSeq} {rest : List Input} (hin : s.inputs = chunkInput x :: rest)
    (hv : s.cfgValid = true) (hr : s.detRun = true) (hn : s.cfg.chunkLen = some n) (hl : x.length = n) :
    step s = .next (detTransition Build.decided n x { s with inputs := rest }) := by
  obtain ⟨-, hdecode, -⟩ := Laws.Encoding.detchunk x
  rw [step_of_decode_ok hin hdecode]
  exact exec_detchunk_of_running hv hr hn hl

/-- A recording appends every chunk that misses END_REF, and completes with the first that hits it. -/
theorem run_recording (xs : List SampleSeq) {last : SampleSeq} {rest : List Input} {n : Nat} {s : State}
    (hv : s.cfgValid = true) (hr : s.detRun = true) (hd : s.detState = .recording) (hn : s.cfg.chunkLen = some n)
    (hxs : ∀ x ∈ xs, x.length = n ∧ hit exactNum s.cfg.thresh x (s.cfg.endRef exactNum) = false)
    (hlast : last.length = n) (hhit : hit exactNum s.cfg.thresh last (s.cfg.endRef exactNum) = true)
    (hin : s.inputs = xs.map chunkInput ++ chunkInput last :: rest) :
    Sys2Proof.core.run (xs.length + 1) s = .next { s with
      detState := .idle
      detBuf := []
      inputs := rest
      responses := s.responses ++ List.replicate xs.length (.ok .empty []) ++
        [.ok .empty [.frameComplete (s.detBuf ++ xs.flatten ++ last)]] } := by
  induction xs generalizing s with
  | nil =>
    have hstep := (step_chunk hin hv hr hn hlast).trans (congrArg _ (detTransition_completes hd rfl hhit))
    rw [List.length_nil, run_succ_of_step hstep]
    simp [Host.Core.run, State.respond]
  | cons x xs ih =>
    obtain ⟨⟨hlen, hmiss⟩, hxs⟩ := List.forall_mem_cons.1 hxs
    have hstep := (step_chunk hin hv hr hn hlen).trans (congrArg _ (detTransition_appends hd rfl hmiss))
    have htail := ih (s := State.respond { s with
      detBuf := s.detBuf ++ x
      inputs := xs.map chunkInput ++ chunkInput last :: rest } .empty []) hv hr hd hn hxs hhit rfl
    rw [List.length_cons]
    refine (run_succ_of_step hstep _).trans (htail.trans ?_)
    simp [State.respond, List.replicate_succ]

/-- Settles O44: the first step starts the recording; the other four are a recording of three misses and a hit. -/
theorem detectorScenario : Obligations.DetectorScenario := by
  intro s c1 c2 c3 c4 c5 rest hv hr hd ht hn h2 h3 h4 h5 hstart hm2 hm3 hm4 hend hin
  have hstep := (step_chunk hin hv hr hn rfl).trans (congrArg _ (detTransition_starts hd ht hstart))
  have hmisses : ∀ x ∈ [c2, c3, c4],
      x.length = c1.length ∧ hit exactNum s.cfg.thresh x (s.cfg.endRef exactNum) = false := by
    simp [h2, h3, h4, hm2, hm3, hm4]
  have hrec := run_recording (s := State.respond { s with
    detState := .recording
    detBuf := c1
    inputs := [c2, c3, c4].map chunkInput ++ chunkInput c5 :: rest } .empty [.startOfFrame])
    [c2, c3, c4] hv hr rfl hn hmisses h5 hend rfl
  refine (run_succ_of_step hstep _).trans (hrec.trans ?_)
  simp [State.respond]

/-! ## What stops the detector (44_detector.md R198) -/

/-- DETSTOP is the only command that clears DET_RUN. -/
theorem Effect.eq_detstop_of_stops {P : Build S} {s s' : State S w} {i : Instr S} (h : Effect P s i s')
    (hr : s.detRun = true) (hr' : s'.detRun = false) : i = .detstop := by
  cases h with
  | stopped => rfl
  | started => simp at hr'
  | _ => simp [hr] at hr'

/-- RXFRAME writes no register of the detector, whether it raises or answers. -/
theorem Effect.rxframe_keeps_detector {P : Build S} {s s' : State S w} {x : List S} (h : Effect P s (.rxframe x) s') :
    s'.detRun = s.detRun ∧ s'.detState = s.detState ∧ s'.detBuf = s.detBuf := by
  cases h with
  | raised => exact ⟨rfl, rfl, rfl⟩
  | received => exact ⟨rfl, rfl, rfl⟩

/-- Settles O46, from the cases of a step and the list of a command's effects. -/
theorem detectorNeverStopsItself : Obligations.DetectorNeverStopsItself := by
  refine ⟨fun s s' h hr hr' => ?_, fun _ _ _ h => (effect_of_exec h).rxframe_keeps_detector⟩
  obtain ⟨-, rfl⟩ | ⟨rest, hin, -⟩ | ⟨c, rest, i, hin, hdecode, hex⟩ | ⟨c, rest, e, -, -, rfl⟩ := step_cases h
  · simp [hr] at hr'
  · exact ⟨rest, .inl hin⟩
  · obtain rfl := (effect_of_exec hex).eq_detstop_of_stops hr hr'
    exact ⟨rest, .inr ⟨c, hin, (opcode_of_decode hdecode).symm⟩⟩
  · simp [hr] at hr'

end Sys2Proof.Machine
end

section
/-! PROOFS. Exceptions: what a raised error leaves (60_exceptions.md R236) and what an event marks
(60_exceptions.md R240). -/

namespace Sys2Proof.Machine

variable {S : Type} {w : Nat}

/-- A step on a command is one of the command's effects, or `IllegalCommand` for a reserved byte. -/
theorem step_command_cases {s s' : State} {c : Command} {rest : List Input} (hin : s.inputs = .command c :: rest)
    (hstep : step s = .next s') :
    (∃ i, decode c = .ok i ∧ Effect Build.decided { s with inputs := rest } i s') ∨
      s' = State.raise { s with inputs := rest } .illegalCommand := by
  cases hd : decode c with
  | ok i =>
    rw [step_of_decode_ok hin hd] at hstep
    exact .inl ⟨i, rfl, effect_of_exec hstep⟩
  | error e =>
    rw [step_of_decode_error hin hd] at hstep
    injection hstep with hs'
    exact .inr hs'.symm

/-! ## Raised errors (60_exceptions.md R236) -/

theorem State.raise_error_injective {s : State S w} {e e' : Error}
    (hr : (s.raise e').responses = s.responses ++ [.error e]) : e' = e := by
  simpa using hr

/-- Of a command's effects only the raise responds with an error. -/
theorem Effect.eq_raise_of_error {P : Build S} {s s' : State S w} {i : Instr S} (h : Effect P s i s') {e : Error}
    (hr : s'.responses = s.responses ++ [.error e]) : s' = s.raise e := by
  cases h with
  | raised i e' => rw [State.raise_error_injective hr]
  | _ => simp at hr

/-- Settles O53: only a raise responds with an error, whether the command's own or `IllegalCommand`, and a raise
writes nothing but its response. -/
theorem raisedErrorsChangeNothing : Obligations.RaisedErrorsChangeNothing := by
  intro s s' c rest e hin hstep hr
  obtain ⟨i, -, heff⟩ | rfl := step_command_cases hin hstep
  · exact heff.eq_raise_of_error hr
  · rw [State.raise_error_injective hr]
    rfl

/-! ## Events (60_exceptions.md R240) -/

/-- The events that the command `c` may emit on its way from `s` to `s'`: none where DET_STATE stays or a command
other than DETCHUNK makes it `Idle`, and one for each move that a DETCHUNK makes. -/
inductive EventRule (s s' : State) (c : Command) : List Event → Prop
  | stays (hd : s'.detState = s.detState) : EventRule s s' c []
  | cancels (hop : c.op ≠ 0x41#8) (hd' : s'.detState = .idle) : EventRule s s' c []
  | starts (hop : c.op = 0x41#8) (hd : s.detState = .idle) (hd' : s'.detState = .recording) :
      EventRule s s' c [.startOfFrame]
  | completes (hop : c.op = 0x41#8) (hd : s.detState = .recording) (hd' : s'.detState = .idle) :
      EventRule s s' c [.frameComplete (s.detBuf ++ c.sampin)]

/-- A step on a command delivers a response with the events of its move; no buffer overruns, since the decided
MAX_FRAME_CHUNKS is unlimited. -/
theorem step_eventRule {s s' : State} {c : Command} {rest : List Input} (hin : s.inputs = .command c :: rest)
    (hstep : step s = .next s') : ∃ r, s'.responses = s.responses ++ [r] ∧ EventRule s s' c r.events := by
  obtain ⟨i, hdec, heff⟩ | rfl := step_command_cases hin hstep
  · have hop := opcode_of_decode hdec
    cases heff with
    | chunkTriggers x _ _ hd => exact ⟨_, rfl, .starts hop.symm hd rfl⟩
    | chunkCompletes x _ _ hd =>
      rw [← sampin_of_decode_detchunk hdec]
      exact ⟨_, rfl, .completes hop.symm hd rfl⟩
    | chunkOverruns x m _ _ _ _ hm => cases hm
    | started => exact ⟨_, rfl, .cancels (by simp [← hop, opcode]) rfl⟩
    | stopped => exact ⟨_, rfl, .cancels (by simp [← hop, opcode]) rfl⟩
    | _ => exact ⟨_, rfl, .stays rfl⟩
  · exact ⟨_, rfl, .stays rfl⟩

section
variable {s s' : State} {c : Command} {ev : List Event}

theorem EventRule.none_or_one (h : EventRule s s' c ev) :
    ev = [] ∨ (c.op = 0x41#8 ∧ (ev = [.startOfFrame] ∨ ev = [.frameComplete (s.detBuf ++ c.sampin)])) := by
  cases h with
  | stays => exact .inl rfl
  | cancels => exact .inl rfl
  | starts hop => exact .inr ⟨hop, .inl rfl⟩
  | completes hop => exact .inr ⟨hop, .inr rfl⟩

theorem EventRule.startOfFrame_iff (h : EventRule s s' c ev) :
    ev = [.startOfFrame] ↔ s.detState = .idle ∧ s'.detState = .recording := by
  cases h with
  | stays hd => simp +contextual [hd]
  | cancels _ hd' => simp [hd']
  | starts _ hd hd' => simp [hd, hd']
  | completes _ hd => simp [hd]

theorem EventRule.frameComplete_iff (h : EventRule s s' c ev) :
    (∃ b, ev = [.frameComplete b]) ↔ s.detState = .recording ∧ s'.detState = .idle ∧ c.op = 0x41#8 := by
  cases h with
  | stays hd => simp +contextual [hd]
  | cancels hop => simp [hop]
  | starts _ hd => simp [hd]
  | completes hop hd hd' => simp [hop, hd, hd']

end

/-- Settles O52: the response's events are those of the command's move, and the moves exclude each other. -/
theorem eventsMarkTransitions : Obligations.EventsMarkTransitions := by
  intro s s' c rest r hin hstep hr
  obtain ⟨r', hr', hev⟩ := step_eventRule hin hstep
  obtain rfl : r' = r := by simpa [hr'] using hr
  exact ⟨hev.none_or_one, hev.startOfFrame_iff, hev.frameComplete_iff⟩

end Sys2Proof.Machine
end

section
/-! PROOFS. The step of the block: reset, the decoded command and its placing (20_memory.md section 5,
30_encoding.md sections 2 and 3, 70_reset_and_hazards.md section 1). -/

namespace Sys2Proof.Machine

variable {S : Type} {w : Nat}

/-! ## Decoding and encoding (30_encoding.md R80, R82, R86) -/

/-- Every command keeps the law of the encoding, row by row of the opcode table. -/
theorem encoding_statement : ∀ i : Instr, Laws.Encoding.Statement i
  | .cfgload c => Laws.Encoding.cfgload c
  | .rdstat => Laws.Encoding.rdstat
  | .eccenc b => Laws.Encoding.eccenc b
  | .eccdec b => Laws.Encoding.eccdec b
  | .modbits b => Laws.Encoding.modbits b
  | .txframe b => Laws.Encoding.txframe b
  | .locate x => Laws.Encoding.locate x
  | .demod x => Laws.Encoding.demod x
  | .rxframe x => Laws.Encoding.rxframe x
  | .detstart => Laws.Encoding.detstart
  | .detchunk x => Laws.Encoding.detchunk x
  | .detstop => Laws.Encoding.detstop
  | .txon => Laws.Encoding.txon
  | .txoff => Laws.Encoding.txoff

theorem decode_encode (i : Instr) : decode (encode i) = .ok i := by
  obtain ⟨-, hdecode, -⟩ := encoding_statement i
  exact hdecode

/-- The presented command with the buffers that its opcode's row does not name emptied. -/
def namedBufferOnly (c : Command) : Command where
  op := c.op
  cfgin := if c.op = 0x00#8 then c.cfgin else CfgRecord.empty
  bitin := if c.op ∈ [0x10#8, 0x11#8, 0x20#8, 0x21#8] then c.bitin else []
  sampin := if c.op ∈ [0x30#8, 0x31#8, 0x32#8, 0x41#8] then c.sampin else []

/-- The encoding of a decoded command, opcode byte by opcode byte. -/
theorem encode_of_decode {c : Command} {i : Instr} (hd : decode c = .ok i) : encode i = namedBufferOnly c := by
  have hop := (mem_opcodeBytes_iff c).2 ⟨i, hd⟩
  obtain ⟨op, r, b, x⟩ := c
  simp only [opcodeBytes, List.mem_cons, List.not_mem_nil, or_false] at hop
  rcases hop with rfl | rfl | rfl | rfl | rfl | rfl | rfl | rfl | rfl | rfl | rfl | rfl | rfl | rfl <;>
  · simp only [decode, unitOf, fnOf, BitVec.extractLsb'_toNat] at hd
    cases hd
    rfl

/-- Settles O6: the encoding of a decoded command is the presented one without the buffers its row does not name. -/
theorem encodeDecodeAgree : Obligations.EncodeDecodeAgree := by
  refine ⟨decode_encode, mem_opcodeBytes_iff, fun c i hd => ?_⟩
  rw [encode_of_decode hd]
  exact ⟨rfl, rfl, rfl, rfl⟩

/-! ## The step (20_memory.md R71, 70_reset_and_hazards.md R260) -/

/-- Settles O2. -/
theorem resetEventRestoresTheBlock : Obligations.ResetEventRestoresTheBlock :=
  fun _ _ hin => step_input hin

/-- Settles O3. -/
theorem stepRunsTheDecodedCommand : Obligations.StepRunsTheDecodedCommand :=
  ⟨fun _ _ _ _ hin hd => step_of_decode_ok hin hd, fun _ hin => step_idle hin⟩

theorem decode_tableCommand {k : Nat} {i : Instr} (h : decodeTableWord 8 k = some i) :
    decode (tableCommand k) = .ok i := by
  rw [decodeTableWord] at h
  split at h
  · cases hd : decode (tableCommand k) with
    | ok j => simpa [hd, Except.toOption] using h
    | error e => simp [hd, Except.toOption] at h
  · cases h

/-- Settles O4: the placed command is the oldest input, and taking it leaves the inputs as they were. -/
theorem placedWordIsTheNextCommand : Obligations.PlacedWordIsTheNextCommand :=
  fun s k _ h => step_of_decode_ok (s := s.withFetchWord 8 k) rfl (decode_tableCommand h)

/-- Settles O5, from UNIT and FN of each word. -/
theorem opcodeWordsDecode : Obligations.OpcodeWordsDecode := by
  intro r b x
  simp [decode, unitOf, fnOf]

/-- A step goes on if every command does. -/
theorem takeOldest_goes_on {run : Instr S → State S w → Out S w} (hrun : ∀ i s, ∃ s', run i s = .next s')
    (s : State S w) : ∃ s', takeOldest run s = .next s' := by
  cases hin : s.inputs with
  | nil => exact ⟨_, takeOldest_idle hin⟩
  | cons i rest =>
    rw [takeOldest_input hin]
    cases i with
    | reset => exact ⟨_, rfl⟩
    | command c =>
      rw [takeInput]
      cases decode c with
      | ok i => exact hrun i _
      | error e => exact ⟨_, rfl⟩

theorem execWith_goes_on (P : Build S) (i : Instr S) (s : State S w) : ∃ s', execWith P i s = .next s' := by
  obtain ⟨s', h, -⟩ := execWith_effect P s i
  exact ⟨s', h⟩

/-- Settles O57: every command answers one of its effects, and `exec` is the commands of a build. -/
theorem stepAlwaysGoesOn : Obligations.StepAlwaysGoesOn := by
  have hexec (i : Instr) (s : State) : ∃ s', exec i s = .next s' := by
    rw [exec_eq_execWith]
    exact execWith_goes_on _ i s
  exact ⟨takeOldest_goes_on hexec, fun s i => hexec i s,
    fun S w P s => ⟨takeOldest_goes_on (execWith_goes_on P) s, fun i => execWith_goes_on P i s⟩⟩

end Sys2Proof.Machine
end

section
/-! PROOFS. The invariant of the block (10_state.md sections 2 and 3) and the limit on DET_BUF
(44_detector.md R191), for every build; what a command leaves unchanged (60_exceptions.md section 4). -/

namespace Sys2Proof.Machine

variable {S : Type} {w : Nat}

/-! ## The configuration that CFGLOAD loads is legal (10_state.md R25, R26, R29, R31) -/

/-- A required field that passes its check is present. -/
theorem exists_of_required_bind {α β : Type} {v : Option α} {name : CfgField} {g : α → Except Error β} {b : β}
    (h : required v name >>= g = .ok b) : ∃ a, v = some a ∧ g a = .ok b := by
  cases v with
  | none => cases h
  | some a => exact ⟨a, rfl, h⟩

/-- Only a record with the five required fields loads. -/
theorem present_of_loadCfg_ok {c : CfgRecord} {cf : Cfg} (h : loadCfg c = .ok cf) :
    ∃ f fs r ks ke, c.frequency = some f ∧ c.samplingRate = some fs ∧ c.symbolsPerSecond = some r ∧
      c.recordStart = some ks ∧ c.recordEnd = some ke := by
  obtain ⟨f, hf, h⟩ := exists_of_required_bind h
  obtain ⟨fs, hfs, h⟩ := exists_of_required_bind h
  obtain ⟨r, hr, h⟩ := exists_of_required_bind h
  obtain ⟨ks, hks, h⟩ := exists_of_required_bind h
  obtain ⟨ke, hke, -⟩ := exists_of_required_bind h
  exact ⟨f, fs, r, ks, ke, hf, hfs, hr, hks, hke⟩

theorem legal_of_loadCfg_ok {c : CfgRecord} {cf : Cfg} (h : loadCfg c = .ok cf) : cf.Legal := by
  obtain ⟨f, fs, r, ks, ke, hf, hfs, hr, hks, hke⟩ := present_of_loadCfg_ok h
  rw [loadCfg_of_present hf hfs hr hks hke] at h
  split at h
  next hlegal =>
    injection h with h
    subst h
    obtain ⟨h1, h2, h3, h4, h5⟩ := (legal_iff ..).1 hlegal
    rw [floor_div_rate fs h2, Int.le_ediv_iff_mul_le (by omega), one_mul] at h3
    refine ⟨by simp only; omega, by simp only; omega, by simp only; omega, h4, fun n hn => ?_⟩
    obtain ⟨k, hk, rfl⟩ := Option.map_eq_some_iff.1 hn
    have hk1 := h5 k hk
    omega
  next => cases h

/-! ## The invariant, one rule for each operation on the state -/

section
variable {s : State S w}

theorem State.inv_initial : (State.initial : State S w).Inv where
  legal := nofun
  running := nofun
  buf := ⟨fun _ => rfl, nofun⟩
  unconfigured := fun _ => ⟨rfl, rfl⟩

/-- The invariant does not read the pending inputs and the responses (logs 1 and 2). -/
theorem State.Inv.interface (h : s.Inv) (i : List (Input S)) (r : List (Response S w)) :
    State.Inv { s with inputs := i, responses := r } :=
  ⟨h.legal, h.running, h.buf, h.unconfigured⟩

theorem State.Inv.respond (h : s.Inv) (r : Result S w) (ev : List (Event S)) : (s.respond r ev).Inv :=
  h.interface s.inputs _

theorem State.Inv.raise (h : s.Inv) (e : Error) : (s.raise e).Inv :=
  h.interface s.inputs _

theorem State.Inv.afterReset (s : State S w) : s.afterReset.Inv :=
  State.inv_initial.interface s.inputs s.responses

/-- The counter and the gate are free once a configuration is loaded. -/
theorem State.Inv.write_counter_gate (h : s.Inv) (hv : s.cfgValid = true) (u : BitVec w) (b : Bit) :
    State.Inv { s with uncorrCnt := u, txActive := b } :=
  ⟨h.legal, h.running, h.buf, fun hv' => by simp [hv] at hv'⟩

theorem State.Inv.countGuessed (h : s.Inv) (hv : s.cfgValid = true) (n : Nat) : (s.countGuessed n).Inv :=
  h.write_counter_gate hv _ s.txActive

/-- The detector goes `Idle` with an empty buffer; it may run where there is a chunk length. -/
theorem State.Inv.toIdle (h : s.Inv) (b : Bit) (hb : b = true → s.cfgValid = true ∧ ∃ n, s.cfg.chunkLen = some n) :
    State.Inv { s with detRun := b, detState := .idle, detBuf := [] } :=
  ⟨h.legal, hb, ⟨fun _ => rfl, nofun⟩, h.unconfigured⟩

/-- The running detector holds `k` chunks. -/
theorem State.Inv.toRecording (h : s.Inv) (hr : s.detRun = true) {n k : Nat} {buf : List S}
    (hn : s.cfg.chunkLen = some n) (hk : 1 ≤ k) (hlen : buf.length = k * n) :
    State.Inv { s with detState := .recording, detBuf := buf } :=
  ⟨h.legal, h.running, ⟨nofun, fun _ => ⟨hr, n, k, hn, hk, hlen⟩⟩, h.unconfigured⟩

/-- Before a configuration is loaded the detector is stopped. -/
theorem State.Inv.stopped_of_invalid (h : s.Inv) (hv : s.cfgValid = false) : s.detRun = false := by
  rw [Bool.eq_false_iff]
  intro hr
  obtain ⟨hv', -⟩ := h.running hr
  simp [hv] at hv'

/-- A stopped detector has an empty buffer. -/
theorem State.Inv.detBuf_of_stopped (h : s.Inv) (hr : s.detRun = false) : s.detBuf = [] :=
  (congrArg State.detBuf (h.stopped_eq_self hr)).symm

/-- The detector is at its reset value when a configuration is loaded. -/
theorem State.Inv.load (h : s.Inv) (hv : s.cfgValid = false) {cf : Cfg} (hcf : cf.Legal) :
    State.Inv { s with cfgValid := true, cfg := cf } := by
  have hr := h.stopped_of_invalid hv
  refine ⟨fun _ => hcf, fun hr' => ?_, ⟨fun _ => h.detBuf_of_stopped hr, fun hd => ?_⟩, nofun⟩
  · simp [hr] at hr'
  · have hidle : DetState.idle = s.detState := congrArg State.detState (h.stopped_eq_self hr)
    simp [← hidle] at hd

end

/-! ## Every command and every step keeps the invariant -/

section
variable {P : Build S} {s s' : State S w} {i : Instr S}

theorem Effect.keeps_inv (he : Effect P s i s') (h : s.Inv) : s'.Inv := by
  cases he with
  | raised _ e => exact h.raise e
  | loaded c cf hv hl => exact (h.load hv (legal_of_loadCfg_ok hl)).respond _ _
  | decoded b o n hv => exact (h.countGuessed hv n).respond _ _
  | received x o n hv => exact (h.countGuessed hv n).respond _ _
  | started n hv hn => exact (h.toIdle true fun _ => ⟨hv, n, hn⟩).respond _ _
  | chunkTriggers x hv hr hd hc => exact (h.toRecording hr hc le_rfl (one_mul _).symm).respond _ _
  | chunkOverruns => exact (h.toIdle s.detRun h.running).respond _ _
  | chunkAppended x hv hr hd hc =>
    obtain ⟨k, hk, hlen⟩ := h.two_chunks_of_append hd hc
    have hrec := h.toRecording hr hc (by omega) hlen
    rw [← hd] at hrec
    exact hrec.respond _ _
  | chunkCompletes => exact (h.toIdle s.detRun h.running).respond _ _
  | stopped => exact (h.toIdle false nofun).respond _ _
  | gateClosed hv => exact (h.write_counter_gate hv s.uncorrCnt true).respond _ _
  | gateOpened hv => exact (h.write_counter_gate hv s.uncorrCnt false).respond _ _
  | _ => exact h.respond _ _

/-- A step of a build is an effect of a command, or it writes nothing of the block, or it resets it. -/
theorem stepWith_cases (h : stepWith P s = .next s') :
    s' = s ∨ (∃ rest, s' = State.afterReset { s with inputs := rest }) ∨
      ∃ rest i, Effect P { s with inputs := rest } i s' := by
  obtain ⟨-, rfl⟩ | ⟨rest, -, rfl⟩ | ⟨c, rest, i, -, -, hex⟩ | ⟨c, rest, e, -, -, rfl⟩ := takeOldest_cases h
  · exact .inl rfl
  · exact .inr (.inl ⟨rest, rfl⟩)
  · exact .inr (.inr ⟨rest, i, effect_of_execWith hex⟩)
  · exact .inr (.inr ⟨rest, .rdstat, .raised _ _⟩)

theorem stepWith_keeps_inv (hstep : stepWith P s = .next s') (h : s.Inv) : s'.Inv := by
  obtain rfl | ⟨rest, rfl⟩ | ⟨rest, i, he⟩ := stepWith_cases hstep
  · exact h
  · exact State.Inv.afterReset _
  · exact he.keeps_inv (h.interface rest s.responses)

/-! ## Every step keeps DET_BUF within MAX_FRAME_CHUNKS chunks (44_detector.md R191) -/

theorem withinLimit_of_empty (limit : Option Nat) (hb : s.detBuf = []) : s.WithinLimit limit :=
  fun m n _ _ => by simp [hb]

/-- A buffer of whole chunks that does not overrun is within the limit. -/
theorem withinLimit_of_chunks {limit : Option Nat} {n k : Nat} (hn : s.cfg.chunkLen = some n)
    (hlen : s.detBuf.length = k * n) (hk : ∀ m, limit = some m → k ≤ m) : s.WithinLimit limit := by
  intro m n' hm hn'
  obtain rfl : n = n' := Option.some.inj (hn.symm.trans hn')
  rw [hlen]
  exact Nat.mul_le_mul_right n (hk m hm)

theorem Effect.keeps_withinLimit (hP : ∀ m, P.maxFrameChunks = some m → 1 ≤ m) (he : Effect P s i s') (h : s.Inv)
    (hw : s.WithinLimit P.maxFrameChunks) : s'.WithinLimit P.maxFrameChunks := by
  cases he with
  | loaded c cf hv => exact withinLimit_of_empty _ (h.detBuf_of_stopped (h.stopped_of_invalid hv))
  | started => exact withinLimit_of_empty _ rfl
  | chunkTriggers x hv hr hd hc => exact withinLimit_of_chunks hc (one_mul _).symm hP
  | chunkOverruns => exact withinLimit_of_empty _ rfl
  | chunkAppended x hv hr hd hc ho =>
    obtain ⟨k, -, hlen⟩ := h.two_chunks_of_append hd hc
    refine withinLimit_of_chunks hc hlen fun m hm => ?_
    obtain ⟨-, -, -, -, hpos⟩ := h.legal hv
    have hle := ho m hm
    rwa [hlen, Nat.mul_div_cancel _ (hpos _ hc)] at hle
  | chunkCompletes => exact withinLimit_of_empty _ rfl
  | stopped => exact withinLimit_of_empty _ rfl
  | _ => exact hw

theorem stepWith_keeps_withinLimit (hP : ∀ m, P.maxFrameChunks = some m → 1 ≤ m)
    (hstep : stepWith P s = .next s') (h : s.Inv) (hw : s.WithinLimit P.maxFrameChunks) :
    s'.WithinLimit P.maxFrameChunks := by
  obtain rfl | ⟨rest, rfl⟩ | ⟨rest, i, he⟩ := stepWith_cases hstep
  · exact hw
  · exact withinLimit_of_empty _ rfl
  · exact he.keeps_withinLimit hP (h.interface rest s.responses) hw

end

/-- Settles O48. -/
theorem invariantAtReset : Obligations.InvariantAtReset := State.inv_initial

/-- Settles O60, from the list of a command's effects: one rule of the invariant for each write. -/
theorem everyBuildKeepsInvariant : Obligations.EveryBuildKeepsInvariant :=
  fun _ _ _ hP => ⟨⟨State.inv_initial, withinLimit_of_empty _ rfl⟩, fun _ _ h hstep =>
    ⟨stepWith_keeps_inv hstep h, stepWith_keeps_withinLimit hP hstep h⟩⟩

/-- Settles O49: `step` is the step of a build. -/
theorem stepKeepsInvariant : Obligations.StepKeepsInvariant := by
  intro s s' h hstep
  rw [step_eq_stepWith] at hstep
  exact stepWith_keeps_inv hstep h

/-! ## What a command leaves unchanged (60_exceptions.md R238, R249, 10_state.md R38, R40) -/

section
variable {P : Build S} {s s' : State S w} {i : Instr S}

/-- Only DETSTART, DETCHUNK and DETSTOP write the detector's registers. -/
theorem Effect.keeps_detector (he : Effect P s i s') (hstart : i ≠ .detstart) (hstop : i ≠ .detstop)
    (hchunk : ∀ x, i ≠ .detchunk x) :
    s'.detRun = s.detRun ∧ s'.detState = s.detState ∧ s'.detBuf = s.detBuf := by
  cases he with
  | started => exact absurd rfl hstart
  | chunkTriggers x => exact absurd rfl (hchunk x)
  | chunkOverruns x => exact absurd rfl (hchunk x)
  | chunkAppended x => exact absurd rfl (hchunk x)
  | chunkCompletes x => exact absurd rfl (hchunk x)
  | stopped => exact absurd rfl hstop
  | _ => exact ⟨rfl, rfl, rfl⟩

/-- Only TXON and TXOFF write TX_ACTIVE. -/
theorem Effect.keeps_txActive (he : Effect P s i s') (hon : i ≠ .txon) (hoff : i ≠ .txoff) :
    s'.txActive = s.txActive := by
  cases he with
  | gateClosed => exact absurd rfl hon
  | gateOpened => exact absurd rfl hoff
  | _ => rfl

/-- UNCORR_CNT is not lowered, and written by ECCDEC and RXFRAME only. -/
theorem Effect.uncorrCnt_rule (he : Effect P s i s') :
    s.uncorrCnt.toNat ≤ s'.uncorrCnt.toNat ∧
      (s.uncorrCnt ≠ s'.uncorrCnt → opcode i = 0x11#8 ∨ opcode i = 0x32#8) := by
  cases he with
  | decoded b o n => exact ⟨le_satAdd _ n, fun _ => .inl rfl⟩
  | received x o n => exact ⟨le_satAdd _ n, fun _ => .inr rfl⟩
  | _ => exact ⟨le_rfl, fun hne => absurd rfl hne⟩

end

/-- Settles O47, from the list of a command's effects. -/
theorem detectorUndisturbed : Obligations.DetectorUndisturbed := fun _ _ _ h =>
  have he := effect_of_exec h
  ⟨he.keeps_detector, he.keeps_txActive, he.inputs_eq⟩

/-- Settles O55, from the cases of a step and the list of a command's effects. -/
theorem counterWrittenOnlyByDecoders : Obligations.CounterWrittenOnlyByDecoders := by
  intro s s' h
  obtain ⟨-, rfl⟩ | ⟨rest, hin, rfl⟩ | ⟨c, rest, i, hin, hd, hex⟩ | ⟨c, rest, e, -, -, rfl⟩ := step_cases h
  · exact .inr ⟨le_rfl, fun hne => absurd rfl hne⟩
  · exact .inl ⟨rest, hin, rfl⟩
  · obtain ⟨hle, hwrite⟩ := (effect_of_exec hex).uncorrCnt_rule
    rw [opcode_of_decode hd] at hwrite
    exact .inr ⟨hle, fun hne => ⟨c, rest, hin, hwrite hne⟩⟩
  · exact .inr ⟨le_rfl, fun hne => absurd rfl hne⟩

end Sys2Proof.Machine
end

section
/-! PROOFS. The ECC: codewords, the round trip and errors in a block (41_ecc.md R104, R107, R114). -/

namespace Sys2Proof.Machine

/-! ## Codewords (41_ecc.md R104, R107) -/

theorem classify_eccBlock : ∀ d1 d2 d3 d4 : Bit, classify (eccBlock d1 d2 d3 d4) = .noError := by
  decide

/-- Settles O12: the sixteen codewords are computed. -/
theorem codewordTable : Obligations.CodewordTable :=
  ⟨by decide +kernel, by decide +kernel, classify_eccBlock⟩

/-- Settles O13: the sixteen codewords and the seven positions are gone through. -/
theorem syndromeOfSinglePosition : Obligations.SyndromeOfSinglePosition :=
  ⟨by decide +kernel, by decide +kernel⟩

/-! ## Errors in one block (41_ecc.md R108 to R111) -/

/-- A block that is not guessed decodes alike under every GUESS2. -/
theorem decodeBlock_congr_of_not_guess {r : BitSeq} (h : classify r ≠ .guess) (g g' : Syndrome → Nat × Nat) :
    decodeBlock g r = decodeBlock g' r := by
  cases hc : classify r with
  | noError => rw [decodeBlock_of_noError g hc, decodeBlock_of_noError g' hc]
  | single => simp only [decodeBlock, hc]
  | guess => exact absurd hc h

/-- One flip is classified `Single`, and undone. -/
theorem single_flip_corrected : ∀ d1 d2 d3 d4 : Bit, ∀ k < 8,
    classify (flipAt (eccBlock d1 d2 d3 d4) k) = .single ∧
      decodeBlock guess2Default (flipAt (eccBlock d1 d2 d3 d4) k) = [d1, d2, d3, d4] := by
  decide +kernel

/-- Two flips leave the parity and change the syndrome. -/
theorem double_flip_guessed : ∀ d1 d2 d3 d4 : Bit, ∀ k < 8, ∀ j < k,
    classify (flipAt (flipAt (eccBlock d1 d2 d3 d4) j) k) = .guess := by
  decide +kernel

@[simp] theorem flipAt_length (r : BitSeq) (i : Nat) : (flipAt r i).length = r.length := by simp [flipAt]

@[simp] theorem eccBlock_length (d1 d2 d3 d4 : Bit) : (eccBlock d1 d2 d3 d4).length = 8 := rfl

theorem eccDecode_single_flip (g : Syndrome → Nat × Nat) (d1 d2 d3 d4 : Bit) {k : Nat} (hk : k < 8) :
    eccDecode g (flipAt (eccBlock d1 d2 d3 d4) k) = ([d1, d2, d3, d4], 0) := by
  obtain ⟨hc, hd⟩ := single_flip_corrected d1 d2 d3 d4 k hk
  have hng : classify (flipAt (eccBlock d1 d2 d3 d4) k) ≠ .guess := by simp [hc]
  rw [eccDecode_of_block g (by simp), decodeBlock_congr_of_not_guess hng g guess2Default, hd, if_neg hng]

theorem eccDecode_double_flip (g : Syndrome → Nat × Nat) (d1 d2 d3 d4 : Bit) {j k : Nat} (hj : j < k) (hk : k < 8) :
    classify (flipAt (flipAt (eccBlock d1 d2 d3 d4) j) k) = .guess ∧
    (eccDecode g (flipAt (flipAt (eccBlock d1 d2 d3 d4) j) k)).1.length = 4 ∧
    (eccDecode g (flipAt (flipAt (eccBlock d1 d2 d3 d4) j) k)).2 = 1 := by
  have hc := double_flip_guessed d1 d2 d3 d4 k hk j hj
  rw [eccDecode_of_block g (by simp)]
  exact ⟨hc, decodeBlock_length g _, if_pos hc⟩

/-! ## The round trip (41_ecc.md R114) -/

/-- The granules of a concatenation of granules are those granules. -/
theorem granules_flatMap {α β : Type} {n : Nat} (hn : 0 < n) (xs : List α) (f : α → List β)
    (h : ∀ x ∈ xs, (f x).length = n) : granules n (xs.flatMap f) = xs.map f := by
  induction xs with
  | nil => simp
  | cons x xs ih =>
    obtain ⟨hx, hxs⟩ := List.forall_mem_cons.1 h
    rw [List.flatMap_cons, granules_append n _ _ hn hx, ih hxs, List.map_cons]

/-- A map that leaves every whole granule as it is leaves the sequence as it is. -/
theorem flatMap_granules_eq_self {α : Type} {n : Nat} (hn : 0 < n) (f : List α → List α)
    (hf : ∀ g, g.length = n → f g = g) (s : List α) (h : s.length % n = 0) : (granules n s).flatMap f = s := by
  obtain ⟨m, hm⟩ := Nat.dvd_of_mod_eq_zero h
  clear h
  induction m generalizing s with
  | zero =>
    obtain rfl : s = [] := List.length_eq_zero_iff.1 (by simpa using hm)
    simp
  | succ m ih =>
    have hfirst : (s.take n).length = n := by
      rw [List.length_take, hm, Nat.mul_succ]
      omega
    have hrest : (s.drop n).length = n * m := by
      rw [List.length_drop, hm, Nat.mul_succ, Nat.add_sub_cancel]
    conv_lhs => rw [← List.take_append_drop n s, granules_append n _ _ hn hfirst]
    rw [List.flatMap_cons, hf _ hfirst, ih _ hrest, List.take_append_drop]

/-- The codeword of a granule of four bits. -/
def granuleBlock (g : BitSeq) : BitSeq := eccBlock (bitAt g 0) (bitAt g 1) (bitAt g 2) (bitAt g 3)

theorem classify_granuleBlock (b : BitSeq) : classify (granuleBlock b) = .noError := classify_eccBlock _ _ _ _

theorem decodeBlock_granuleBlock (g : Syndrome → Nat × Nat) {b : BitSeq} (hb : b.length = 4) :
    decodeBlock g (granuleBlock b) = b := by
  rw [decodeBlock_of_noError g (classify_granuleBlock b)]
  match b, hb with
  | [_, _, _, _], _ => rfl

/-- The blocks of an encoding are the codewords of the granules of its padded input. -/
theorem granules_eccEncode (x : BitSeq) : granules 8 (eccEncode x) = (granules 4 (padBits 4 x)).map granuleBlock :=
  granules_flatMap (by decide) _ granuleBlock fun _ _ => rfl

theorem eccDecode_eccEncode (g : Syndrome → Nat × Nat) (x : BitSeq) : eccDecode g (eccEncode x) = (padBits 4 x, 0) := by
  have hdata : (granules 4 (padBits 4 x)).flatMap (fun b => decodeBlock g (granuleBlock b)) = padBits 4 x :=
    flatMap_granules_eq_self (by decide) _ (fun _ hb => decodeBlock_granuleBlock g hb) _
      (padBits_length_mod 4 (by decide) x)
  have hcount : ((granules 4 (padBits 4 x)).map granuleBlock).countP (fun r => decide (classify r = .guess)) = 0 := by
    rw [List.countP_map, List.countP_eq_zero]
    intro b _
    simp [classify_granuleBlock]
  rw [eccDecode, granules_eccEncode, List.flatMap_map, hdata, hcount]

/-- Settles O16: a codeword decodes to its data, one flip is undone, two are guessed; the count under the default
table is computed. -/
theorem eccRoundTripAndErrors : Obligations.EccRoundTripAndErrors := by
  refine ⟨eccDecode_eccEncode, fun g d1 d2 d3 d4 k hk => eccDecode_single_flip g d1 d2 d3 d4 hk,
    fun g d1 d2 d3 d4 j k hj hk => eccDecode_double_flip g d1 d2 d3 d4 hj hk, fun sy => ?_, by decide +kernel⟩
  by_cases hz : sy = (false, false, false)
  · exact .inl hz
  · exact .inr (syn1_of_ne_zero hz)

end Sys2Proof.Machine
end

section
/-! PROOFS. Corner cases of the frame locator (43_demodulator.md R158) and of the detector (44_detector.md R184,
R196): silence, empty keys, a chunk that is refused. -/

namespace Sys2Proof.Machine

/-! ## Correlations that are all 0 -/

/-- Samples of a silent waveform. -/
def Silent (x : SampleSeq) : Prop := ∀ n, sampleAt x n = 0

theorem corrAt_of_silent {x : SampleSeq} (h : Silent x) (r : SampleSeq) (k : Nat) : corrAt x r k = 0 :=
  Finset.sum_eq_zero fun j _ => by rw [h, zero_mul]

theorem corrAt_of_ref_silent (x : SampleSeq) {r : SampleSeq} (h : Silent r) (k : Nat) : corrAt x r k = 0 :=
  Finset.sum_eq_zero fun j _ => by rw [h, mul_zero]

/-- Of equal values the first is taken. -/
theorem FirstMax.eq_zero_of_const {v : Nat → ℝ} {n m : Nat} (h : FirstMax v n m) (hv : ∀ k, v k = 0) : m = 0 := by
  obtain ⟨-, -, hfirst⟩ := h
  by_contra hm
  have hlt := hfirst 0 (Nat.pos_of_ne_zero hm)
  simp [hv] at hlt

/-! ## The waveform of an empty key -/

@[simp] theorem modulate_codedIf_nil {S : Type} (N : Num S) (c : Cfg) (enable : Bit) :
    modulate N c (codedIf enable (bytesToBits [])) = [] := by
  apply List.length_eq_zero_iff.1
  rw [modulate_length, codedIf_bytesToBits_length]
  simp

theorem startRef_of_keyStart_nil {S : Type} (N : Num S) {c : Cfg} (h : c.keyStart = []) : c.startRef N = [] := by
  rw [Cfg.startRef, Cfg.startCoded, Cfg.startBits, h, modulate_codedIf_nil]

theorem endRef_of_keyEnd_nil {S : Type} (N : Num S) {c : Cfg} (h : c.keyEnd = []) : c.endRef N = [] := by
  rw [Cfg.endRef, Cfg.endCoded, Cfg.endBits, h, modulate_codedIf_nil]

/-! ## The locator (43_demodulator.md R158) -/

section
variable {x y r e : SampleSeq}

/-- The locator finds nothing if, where the references fit, the lags leave no segment. -/
theorem locateFrame_eq_none (h : ∀ a b, r.length ≤ x.length → e.length ≤ x.length →
      FirstMax (corrAt x r) (x.length - r.length + 1) a → FirstMax (corrAt x e) (x.length - e.length + 1) b →
      b ≤ a + r.length) : locateFrame exactNum x r e = none := by
  by_cases hshort : x.length < r.length ∨ x.length < e.length
  · exact locateFrame_of_short _ hshort
  · obtain ⟨hr, he⟩ := not_or.1 hshort
    have ha := xcorr_firstMax x r (not_lt.1 hr)
    have hb := xcorr_firstMax x e (not_lt.1 he)
    rw [locateFrame_of_firstMax (not_lt.1 hr) (not_lt.1 he) ha hb]
    exact if_neg (h _ _ (not_lt.1 hr) (not_lt.1 he) ha hb).not_gt

theorem locateFrame_of_end_corr_zero (h : ∀ k, corrAt x e k = 0) : locateFrame exactNum x r e = none :=
  locateFrame_eq_none fun a b _ _ _ hb => by
    rw [hb.eq_zero_of_const h]
    exact Nat.zero_le _

/-- A start reference as long as the signal leaves no segment. -/
theorem locateFrame_of_start_whole (h : r.length = x.length) : locateFrame exactNum x r e = none :=
  locateFrame_eq_none fun a b _ _ _ ⟨hb, _, _⟩ => by omega

/-- With an empty start reference the start is 0, and the end must be after it. -/
theorem locateFrame_of_start_nil (he : e.length ≤ x.length) {b : Nat}
    (hb : FirstMax (corrAt x e) (x.length - e.length + 1) b) :
    locateFrame exactNum x [] e = if 1 ≤ b then some (0, b) else none := by
  have ha := xcorr_firstMax x [] (Nat.zero_le _)
  have hzero := ha.eq_zero_of_const (corrAt_of_ref_empty x rfl)
  rw [locateFrame_of_firstMax (Nat.zero_le _) he ha hb, hzero]
  rfl

theorem FirstMax.scale {u v : Nat → ℝ} {n m : Nat} {g : ℝ} (h : FirstMax u n m) (hg : 0 < g)
    (hv : ∀ k, v k = g * u k) : FirstMax v n m :=
  h.of_order fun i j _ _ => by rw [hv, hv, mul_lt_mul_iff_right₀ hg]

theorem locateFrame_scale {g : ℝ} (hg : 0 < g) (hlen : y.length = x.length)
    (hy : ∀ n, sampleAt y n = g * sampleAt x n) : locateFrame exactNum y r e = locateFrame exactNum x r e := by
  by_cases hshort : x.length < r.length ∨ x.length < e.length
  · rw [locateFrame_of_short _ hshort, locateFrame_of_short _ (hlen ▸ hshort)]
  · obtain ⟨hr, he⟩ := not_or.1 hshort
    have ha := xcorr_firstMax x r (not_lt.1 hr)
    have hb := xcorr_firstMax x e (not_lt.1 he)
    have ha' := ha.scale hg (corrAt_scale_left r hy)
    have hb' := hb.scale hg (corrAt_scale_left e hy)
    rw [locateFrame_of_firstMax (not_lt.1 hr) (not_lt.1 he) ha hb]
    rw [← hlen] at ha' hb' hr he
    exact locateFrame_of_firstMax (not_lt.1 hr) (not_lt.1 he) ha' hb'

end

/-- Settles O26. -/
theorem locatorCornerCases : Obligations.LocatorCornerCases := by
  refine fun c x => ⟨fun hx => ?_, fun he => ?_, fun hs hlen b hb => ?_, fun h => ?_, fun y g hg hlen hy => ?_⟩
  · exact locateFrame_of_end_corr_zero (corrAt_of_silent hx _)
  · rw [endRef_of_keyEnd_nil _ he]
    exact locateFrame_of_end_corr_zero (corrAt_of_ref_empty x rfl)
  · rw [startRef_of_keyStart_nil _ hs]
    exact locateFrame_of_start_nil hlen hb
  · exact locateFrame_of_start_whole h
  · exact locateFrame_scale hg hlen hy

/-! ## The detector (44_detector.md R184, R196) -/

/-- Every correlation with a silent chunk is 0, so the greatest is. -/
theorem peak_of_silent {x : SampleSeq} (h : Silent x) (r : SampleSeq) : (peak exactNum x r).toReal = 0 := by
  rcases le_or_gt r.length x.length with hl | hl
  · obtain ⟨⟨k, -, hk⟩, -⟩ := peak_isGreatest_of_le hl
    rw [← hk, corrAt_of_silent h]
  · obtain ⟨⟨k, -, hk⟩, -⟩ := peak_isGreatest_of_lt hl
    rw [← hk, corrAt_of_ref_silent r h]

/-- Settles O45: the peak is 0 in both cases. -/
theorem detectorCornerCases : Obligations.DetectorCornerCases := by
  refine ⟨fun th x r h => ?_, fun c => ⟨startRef_of_keyStart_nil _, endRef_of_keyEnd_nil _⟩⟩
  have hpeak : (peak exactNum x r).toReal = 0 := by
    obtain rfl | hx := h
    · exact peak_of_ref_empty x rfl
    · exact peak_of_silent hx r
  rw [hit_iff_lt_peak, hpeak, Rat.cast_lt_zero]

/-- Settles O39. -/
theorem detchunkRefusals : Obligations.DetchunkRefusals := by
  intro s x hv
  have hexec : exec (.detchunk x) s = .next (detChunk Build.decided x s) := configured_of_valid hv _
  refine ⟨fun hn => ?_, fun n hn => ⟨fun hr => ?_, fun hr hl => ?_⟩⟩
  · rw [hexec, detChunk_of_no_length _ x hn]
  · rw [hexec, detChunk_of_stopped _ x hn hr]
  · rw [hexec, detChunk_of_wrong_length _ hr hn hl]

end Sys2Proof.Machine
end

section
/-! PROOFS. The symbol decision: the zero-noise round trip, orthogonal tones, amplitude and polarity
(43_demodulator.md R165, R166, R169). -/

namespace Sys2Proof.Machine

/-! ## The round trip, row by row (43_demodulator.md R165) -/

/-- The two bits of a row. -/
def Row.bits (i : Row) : BitSeq := [i.dibit.1, i.dibit.2]

theorem symbolRows_bits (i : Row) : symbolRows i.bits = [i] := by
  cases i <;> decide

theorem Row.bits_injective : Function.Injective Row.bits := by
  intro i j h
  have hrows := congrArg symbolRows h
  rw [symbolRows_bits, symbolRows_bits] at hrows
  exact List.singleton_inj.1 hrows

/-- The dibit mapper and its inverse, over a whole even sequence. -/
theorem symbolRows_flatMap_bits {bits : BitSeq} (h : bits.length % 2 = 0) : (symbolRows bits).flatMap Row.bits = bits := by
  rw [symbolRows, padBits_of_dvd 2 bits h, List.flatMap_map]
  refine flatMap_granules_eq_self (by decide) _ (fun g hg => ?_) bits h
  rw [Row.bits, dibit_rowOf]
  match g, hg with
  | [_, _], _ => rfl

section
variable {S : Type} {N : Num S} {score : Score} {c : Cfg}

/-- The windows of a waveform are its bursts. -/
theorem demodulate_modulate (hs : 1 ≤ c.sps) (bits : BitSeq) :
    demodulate N score c (modulate N c bits) =
      (symbolRows bits).flatMap fun i => (decideRow N score c (c.tone N i)).bits := by
  rw [demodulate, modulate, granules_flatMap hs _ _ fun i _ => tone_length N c i, List.flatMap_map]
  rfl

/-- Every even sequence comes back exactly if every burst decides its own row. -/
theorem roundTrip_iff (hs : 1 ≤ c.sps) :
    (∀ bits : BitSeq, bits.length % 2 = 0 → demodulate N score c (modulate N c bits) = bits) ↔
      ∀ j, decideRow N score c (c.tone N j) = j := by
  constructor
  · intro h j
    have hj := h j.bits (by simp [Row.bits])
    rw [demodulate_modulate hs, symbolRows_bits, List.flatMap_singleton] at hj
    exact Row.bits_injective hj
  · intro h bits hbits
    simp only [demodulate_modulate hs, h]
    exact symbolRows_flatMap_bits hbits

end

theorem Cfg.Legal.one_le_sps {c : Cfg} (h : c.Legal) : 1 ≤ c.sps := by
  obtain ⟨-, hrate, hle, -, -⟩ := h
  exact Nat.div_pos hle hrate

/-! ## Rows by their index -/

theorem forall_row_iff {p : Row → Prop} : (∀ j, p j) ↔ ∀ k, k < 4 → p (Row.ofIndex k) := by
  refine ⟨fun h k _ => h _, fun h j => ?_⟩
  cases j with
  | r0 => exact h 0 (by decide)
  | r1 => exact h 1 (by decide)
  | r2 => exact h 2 (by decide)
  | r3 => exact h 3 (by decide)

theorem ofIndex_inj : ∀ a < 4, ∀ b < 4, Row.ofIndex a = Row.ofIndex b ↔ a = b := by
  decide

/-- A decision by the first greatest of four scores is row `k` exactly if that is the first greatest. -/
theorem eq_ofIndex_iff_firstMax {v : Nat → ℝ} {i : Row} (h : ∃ m, FirstMax v 4 m ∧ i = Row.ofIndex m) {k : Nat}
    (hk : k < 4) : i = Row.ofIndex k ↔ FirstMax v 4 k := by
  obtain ⟨m, hm, rfl⟩ := h
  rw [ofIndex_inj m hm.1 k hk]
  exact ⟨fun e => e ▸ hm, hm.unique⟩

/-- A value above all others is the first greatest. -/
theorem FirstMax.of_strict {v : Nat → ℝ} {n m : Nat} (hm : m < n) (h : ∀ k, k < n → k ≠ m → v k < v m) :
    FirstMax v n m := by
  refine ⟨hm, fun k hk => ?_, fun k hk => h k (hk.trans hm) hk.ne⟩
  rcases eq_or_ne k m with rfl | hne
  · exact le_rfl
  · exact (h k hk hne).le

/-! ## The scores of the bursts: the Gram matrix (43_demodulator.md R165) -/

section
variable {c : Cfg}

theorem gram_comm (c : Cfg) (i j : Row) : c.gram i j = c.gram j i :=
  Finset.sum_congr rfl fun _ _ => mul_comm _ _

theorem scoreAt_tone (c : Cfg) (i j : Row) : c.scoreAt (c.tone exactNum j) 0 i = c.gram i j := by
  rw [gram_comm, ← gram_toReal, score_toReal c _ i (tone_length _ c j)]

theorem decideRow_dot_tone_iff {j : Nat} (hj : j < 4) :
    decideRow exactNum .dot c (c.tone exactNum (Row.ofIndex j)) = Row.ofIndex j ↔
      FirstMax (fun i => c.gram (Row.ofIndex i) (Row.ofIndex j)) 4 j := by
  have h := decideRow_dot c (c.tone exactNum (Row.ofIndex j)) (tone_length _ c _)
  simp only [scoreAt_tone] at h
  exact eq_ofIndex_iff_firstMax h hj

/-- Bursts that differ somewhere are not parallel: both start with 1. -/
theorem gram_sq_lt_of_differ (hs : 1 ≤ c.sps) {i j : Row} (h : ∃ n, n < c.sps ∧ c.toneReal i n ≠ c.toneReal j n) :
    c.gram i j ^ 2 < c.gram i i * c.gram j j := by
  obtain ⟨n, hn, hne⟩ := h
  by_contra hle
  have hpos : 0 < c.gram j j := one_pos.trans_le (gram_self_ge_one c hs j)
  have hsum : ∑ k ∈ Finset.range c.sps, (c.gram j j * c.toneReal i k - c.gram i j * c.toneReal j k) ^ 2 =
      c.gram j j * (c.gram i i * c.gram j j - c.gram i j ^ 2) := by
    have hterm (k : Nat) : (c.gram j j * c.toneReal i k - c.gram i j * c.toneReal j k) ^ 2 =
        c.gram j j ^ 2 * (c.toneReal i k * c.toneReal i k) -
          2 * c.gram j j * c.gram i j * (c.toneReal i k * c.toneReal j k) +
          c.gram i j ^ 2 * (c.toneReal j k * c.toneReal j k) := by ring
    simp only [hterm, Finset.sum_add_distrib, Finset.sum_sub_distrib, ← Finset.mul_sum]
    rw [← Cfg.gram, ← Cfg.gram, ← Cfg.gram]
    ring
  have hnonpos : c.gram j j * (c.gram i i * c.gram j j - c.gram i j ^ 2) ≤ 0 :=
    mul_nonpos_of_nonneg_of_nonpos hpos.le (by linarith [not_lt.1 hle])
  have hzero (k : Nat) (hk : k < c.sps) : c.gram j j * c.toneReal i k = c.gram i j * c.toneReal j k := by
    have hall := (Finset.sum_eq_zero_iff_of_nonneg fun k _ => sq_nonneg _).1
      (le_antisymm (hsum.trans_le hnonpos) (Finset.sum_nonneg fun k _ => sq_nonneg _))
    exact sub_eq_zero.1 (sq_eq_zero_iff.1 (hall k (Finset.mem_range.2 hk)))
  have hsame : c.gram j j = c.gram i j := by simpa using hzero 0 hs
  exact hne (mul_left_cancel₀ hpos.ne' (hsame ▸ hzero n hn))

/-- The normalised score of a burst is greatest for its own row, if the other burst differs. -/
theorem normScore_tone_lt (hs : 1 ≤ c.sps) {i j : Row} (h : ∃ n, n < c.sps ∧ c.toneReal i n ≠ c.toneReal j n) :
    c.normScore (c.tone exactNum j) i < c.normScore (c.tone exactNum j) j := by
  have hpos : 0 < Real.sqrt (c.gram i i) := Real.sqrt_pos.2 (one_pos.trans_le (gram_self_ge_one c hs i))
  have hcs := Real.lt_sqrt_of_sq_lt (gram_sq_lt_of_differ hs h)
  rw [Real.sqrt_mul (zero_le_one.trans (gram_self_ge_one c hs i)), mul_comm] at hcs
  rw [normScore_lt_iff, scoreAt_tone, scoreAt_tone, Real.div_sqrt, div_lt_iff₀ hpos]
  exact hcs

/-- Equal bursts are one real waveform. -/
theorem waveReal_tone_congr {i j : Row} (h : ∀ n, n < c.sps → c.toneReal i n = c.toneReal j n) :
    waveReal (c.tone exactNum i) = waveReal (c.tone exactNum j) := by
  refine List.ext_getElem (by simp) fun n hi hj => ?_
  have hn : n < c.sps := by simpa using hi
  have hsame : sampleAt (c.tone exactNum i) n = sampleAt (c.tone exactNum j) n := by
    rw [sampleAt_tone c i n hn, sampleAt_tone c j n hn, h n hn]
  rwa [sampleAt, sampleAt, List.getD_eq_getElem _ _ hi, List.getD_eq_getElem _ _ hj] at hsame

/-- Under NDOT every burst decides its own row exactly if the bursts are pairwise different. -/
theorem decideRow_ndot_tone_iff (hs : 1 ≤ c.sps) :
    (∀ j, decideRow exactNum .ndot c (c.tone exactNum j) = j) ↔
      ∀ i j : Row, i ≠ j → ∃ n, n < c.sps ∧ c.toneReal i n ≠ c.toneReal j n := by
  constructor
  · intro h i j hne
    by_contra hsame
    push Not at hsame
    refine hne ?_
    rw [← h i, ← h j, exactNum_hom.decideRow, exactNum_hom.decideRow]
    exact congrArg _ (waveReal_tone_congr hsame)
  · intro h
    refine forall_row_iff.2 fun j hj => ?_
    refine (eq_ofIndex_iff_firstMax (decideRow_ndot c _ hs (tone_length _ c _)) hj).2 (.of_strict hj fun k hk hne => ?_)
    exact normScore_tone_lt hs (h _ _ fun e => hne ((ofIndex_inj k hk j hj).1 e))

end

/-- Settles O30: the round trip is that every burst decides its own row. -/
theorem zeroNoiseRoundTrip : Obligations.ZeroNoiseRoundTrip := by
  intro c hc
  have hs := hc.one_le_sps
  rw [roundTrip_iff hs, roundTrip_iff hs, decideRow_ndot_tone_iff hs, forall_row_iff]
  exact ⟨forall₂_congr fun j hj => decideRow_dot_tone_iff hj, Iff.rfl⟩

/-! ## Orthogonal tones (43_demodulator.md R166) -/

/-- The cosines of `u` turns in `N` steps cancel, unless `u` is a multiple of `N`: they are the real parts of a
geometric sum of a root of unity. -/
theorem sum_cos_turns {N : Nat} {u : ℤ} (hN : N ≠ 0) (hu : ¬(N : ℤ) ∣ u) :
    ∑ n ∈ Finset.range N, Real.cos (2 * Real.pi * (u * n / N)) = 0 := by
  have hN' : (N : ℂ) ≠ 0 := Nat.cast_ne_zero.2 hN
  set x : ℂ := Complex.exp (2 * Real.pi * Complex.I * (u / N)) with hx
  have hpow (n : Nat) : (x ^ n).re = Real.cos (2 * Real.pi * (u * n / N)) := by
    rw [hx, ← Complex.exp_nat_mul, ← Complex.exp_ofReal_mul_I_re]
    congr 2
    push_cast
    ring
  have hroot : x ^ N = 1 := by
    rw [hx, ← Complex.exp_nat_mul, Complex.exp_eq_one_iff]
    exact ⟨u, by field_simp⟩
  have hne : x ≠ 1 := by
    rw [hx, ne_eq, Complex.exp_eq_one_iff]
    rintro ⟨k, hk⟩
    refine hu ⟨k, ?_⟩
    have hdiv : (u : ℂ) / N = k := by
      refine mul_left_cancel₀ Complex.two_pi_I_ne_zero ?_
      rw [hk, mul_comm]
    rw [div_eq_iff hN'] at hdiv
    rw [mul_comm]
    exact_mod_cast hdiv
  have hgeom : ∑ n ∈ Finset.range N, x ^ n = 0 := by
    rw [geom_sum_eq hne, hroot, sub_self, zero_div]
  simp only [← hpow, ← Complex.re_sum, hgeom, Complex.zero_re]

theorem sum_cos_no_turns (N : Nat) : ∑ n ∈ Finset.range N, Real.cos (2 * Real.pi * (((0 : ℤ) : ℝ) * n / N)) = N := by
  simp

/-- The place of a row in the alphabet. -/
def Row.index : Row → ℤ
  | .r0 => 0
  | .r1 => 1
  | .r2 => 2
  | .r3 => 3

theorem ofIndex_index (i : Row) : Row.ofIndex i.index.toNat = i := by
  cases i <;> rfl

theorem Row.index_injective : Function.Injective Row.index :=
  Function.LeftInverse.injective (g := fun k : ℤ => Row.ofIndex k.toNat) ofIndex_index

theorem two_mul_freq (c : Cfg) (i : Row) : 2 * c.freq i = 2 * c.fc + (2 * i.index - 3) * c.df := by
  cases i <;> simp only [Cfg.freq, Row.index] <;> push_cast <;> ring

/-- The orthogonality condition in integers: tone `i` makes `z + (2i - 3)m` half turns in a symbol. -/
structure HalfTurns (c : Cfg) (m z : ℤ) : Prop where
  m_pos : 1 ≤ m
  rate_pos : 1 ≤ c.rate
  fs_eq : c.fs = c.sps * c.rate
  freq_eq : ∀ i, 2 * c.freq i = ((z + (2 * i.index - 3) * m : ℤ) : Rat) * c.rate
  low : 0 < z - 3 * m
  high : z + 3 * m < c.sps

theorem Cfg.Orthogonal.halfTurns {c : Cfg} (h : c.Orthogonal) : ∃ m z, HalfTurns c m z := by
  obtain ⟨⟨-, hrate, -, -, -⟩, hdvd, ⟨m, hm, hdf⟩, ⟨z, hz⟩, hlow, hhigh⟩ := h
  have hfs : c.fs = c.sps * c.rate := (Nat.div_mul_cancel hdvd).symm
  have hr : (0 : Rat) < c.rate := by exact_mod_cast hrate
  have hfreq (i : Row) : 2 * c.freq i = ((z + (2 * i.index - 3) * m : ℤ) : Rat) * c.rate := by
    rw [two_mul_freq, hz, hdf]
    push_cast
    ring
  have h0 := hfreq .r0
  have h3 := hfreq .r3
  simp only [Row.index] at h0 h3
  refine ⟨m, z, by exact_mod_cast hm, hrate, hfs, hfreq, ?_, ?_⟩
  · have hpos : (0 : Rat) < ((z + (2 * 0 - 3) * m : ℤ) : Rat) * c.rate := by linarith
    have hint := Int.cast_pos.1 (pos_of_mul_pos_left hpos hr.le)
    linarith
  · have hlt : ((z + (2 * 3 - 3) * m : ℤ) : Rat) * c.rate < ((c.sps : ℤ) : Rat) * c.rate := by
      rw [← h3, Int.cast_natCast, ← Nat.cast_mul, ← hfs]
      linarith
    have hint := Int.cast_lt.1 (lt_of_mul_lt_mul_right hlt hr.le)
    linarith

section
variable {c : Cfg} {m z : ℤ}

theorem HalfTurns.toneReal_eq (h : HalfTurns c m z) (i : Row) (n : Nat) :
    c.toneReal i n = Real.cos (Real.pi * ((z + (2 * i.index - 3) * m : ℤ) * n / c.sps)) := by
  have hr : (c.rate : ℝ) ≠ 0 := by exact_mod_cast (Nat.one_le_iff_ne_zero.1 h.rate_pos)
  have hfreq : 2 * (c.freq i : ℝ) = ((z + (2 * i.index - 3) * m : ℤ) : ℝ) * c.rate := by exact_mod_cast h.freq_eq i
  have hphase : 2 * Real.pi * (c.freq i : ℝ) = Real.pi * (((z + (2 * i.index - 3) * m : ℤ) : ℝ) * c.rate) := by
    rw [← hfreq]
    ring
  rw [Cfg.toneReal, hphase, h.fs_eq, Nat.cast_mul]
  congr 1
  field_simp

/-- The product of two bursts is half the sum of the cosines of `(i - j)m` and `z + (i + j - 3)m` turns. -/
theorem HalfTurns.gram_eq (h : HalfTurns c m z) (i j : Row) : c.gram i j =
    (∑ n ∈ Finset.range c.sps, Real.cos (2 * Real.pi * (((i.index - j.index) * m : ℤ) * n / c.sps)) +
      ∑ n ∈ Finset.range c.sps, Real.cos (2 * Real.pi * ((z + (i.index + j.index - 3) * m : ℤ) * n / c.sps))) / 2 := by
  rw [← Finset.sum_add_distrib, Finset.sum_div]
  refine Finset.sum_congr rfl fun n _ => ?_
  rw [h.toneReal_eq, h.toneReal_eq, eq_div_iff two_ne_zero, mul_comm, ← mul_assoc, Real.two_mul_cos_mul_cos]
  congr 2 <;>
  · push_cast
    ring

theorem not_dvd_of_between {N u : ℤ} (h0 : u ≠ 0) (hlow : -N < u) (hhigh : u < N) : ¬N ∣ u :=
  fun hdvd => h0 (Int.eq_zero_of_abs_lt_dvd hdvd (abs_lt.2 ⟨hlow, hhigh⟩))

theorem Row.index_bounds (i : Row) : 0 ≤ i.index ∧ i.index ≤ 3 := by
  cases i <;> decide

/-- The bursts are orthogonal and of energy SPS/2. -/
theorem HalfTurns.gram_eq_ite (h : HalfTurns c m z) (i j : Row) : c.gram i j = if i = j then (c.sps : ℝ) / 2 else 0 := by
  obtain ⟨hi0, hi3⟩ := i.index_bounds
  obtain ⟨hj0, hj3⟩ := j.index_bounds
  have hm := h.m_pos
  have hlow := h.low
  have hhigh := h.high
  have hN : c.sps ≠ 0 := by omega
  have hsum : ¬(c.sps : ℤ) ∣ z + (i.index + j.index - 3) * m :=
    not_dvd_of_between (by nlinarith) (by nlinarith) (by nlinarith)
  rw [h.gram_eq, sum_cos_turns hN hsum, add_zero]
  split
  next hij => rw [hij, sub_self, zero_mul, sum_cos_no_turns]
  next hij =>
    have hne : (i.index - j.index) * m ≠ 0 :=
      mul_ne_zero (sub_ne_zero.2 fun e => hij (Row.index_injective e)) (by omega)
    have hdiff : ¬(c.sps : ℤ) ∣ (i.index - j.index) * m := not_dvd_of_between hne (by nlinarith) (by nlinarith)
    rw [sum_cos_turns hN hdiff, zero_div]

end

section
variable {c : Cfg}

theorem Cfg.Orthogonal.gram_eq (h : c.Orthogonal) (i j : Row) : c.gram i j = if i = j then (c.sps : ℝ) / 2 else 0 := by
  obtain ⟨m, z, hturns⟩ := h.halfTurns
  exact hturns.gram_eq_ite i j

theorem Cfg.Orthogonal.one_le_sps (h : c.Orthogonal) : 1 ≤ c.sps := by
  obtain ⟨hlegal, -⟩ := h
  exact hlegal.one_le_sps

/-- Orthogonal bursts have equal norms, so the two scores decide alike. -/
theorem Cfg.Orthogonal.decideRow_eq_dot (h : c.Orthogonal) {x : SampleSeq} (hx : x.length = c.sps) (score : Score) :
    decideRow exactNum score c x = decideRow exactNum .dot c x := by
  cases score with
  | dot => rfl
  | ndot =>
    obtain ⟨-, -, halike⟩ := normalisedScoreDecision c x h.one_le_sps hx
    exact halike fun i j => by rw [h.gram_eq, h.gram_eq, if_pos rfl, if_pos rfl]

/-- Row `k` of the alphabet is decided where its score is the first greatest. -/
theorem decideRow_dot_eq_ofIndex {x : SampleSeq} (hx : x.length = c.sps) {k : Nat}
    (hk : FirstMax (fun i => c.scoreAt x 0 (Row.ofIndex i)) 4 k) : decideRow exactNum .dot c x = Row.ofIndex k :=
  (eq_ofIndex_iff_firstMax (decideRow_dot c x hx) hk.1).2 hk

end

/-- Settles O31: the Gram condition of O30 holds of SPS/2 times the identity. -/
theorem orthogonalTones : Obligations.OrthogonalTones := by
  refine fun c hc => ⟨hc.gram_eq, fun score => (roundTrip_iff hc.one_le_sps).2 ?_⟩
  have hpos : (0 : ℝ) < (c.sps : ℝ) / 2 := half_pos (Nat.cast_pos.2 hc.one_le_sps)
  refine forall_row_iff.2 fun j hj => ?_
  rw [hc.decideRow_eq_dot (tone_length _ c _), decideRow_dot_tone_iff hj]
  refine .of_strict hj fun k hk hne => ?_
  simp only [hc.gram_eq, ofIndex_inj k hk j hj, if_neg hne, if_pos]
  exact hpos

/-! ## Amplitude (43_demodulator.md R169) -/

section
variable {g : ℝ}

theorem realDot_scale (g : ℝ) (x t : List ℝ) : realNum.dot (x.map (g * ·)) t = g * realNum.dot x t := by
  have hterms : List.zipWith realNum.mul (x.map (g * ·)) t = (List.zipWith realNum.mul x t).map (g * ·) := by
    rw [List.zipWith_map_left, List.map_zipWith]
    simp only [realNum, mul_assoc]
  rw [Num.dot, Num.dot, realSum_eq, realSum_eq, hterms, List.sum_map_mul_left _ fun a => a, List.map_id']

theorem realLt_scale (hg : 0 < g) (a b : ℝ) : realNum.lt a b = realNum.lt (g * a) (g * b) := by
  rw [Bool.eq_iff_iff, realLt_iff, realLt_iff, mul_lt_mul_iff_right₀ hg]

theorem realSignedSquare_eq (a : ℝ) : signedSquare realNum a = a * |a| := by
  have hneg : realNum.lt a (realNum.ofRat 0) = true ↔ a < 0 := by simp [realNum]
  by_cases h : a < 0
  · rw [signedSquare, if_pos (hneg.2 h), abs_of_neg h]
    simp [realNum]
  · rw [signedSquare, if_neg fun hlt => h (hneg.1 hlt), abs_of_nonneg (not_lt.1 h)]
    rfl

theorem realNdotLt_iff (u v : ℝ × ℝ) :
    ndotLt realNum u v = true ↔ u.1 * |u.1| * v.2 < v.1 * |v.1| * u.2 := by
  rw [ndotLt, realLt_iff, realSignedSquare_eq, realSignedSquare_eq]
  rfl

theorem realNdotLt_scale (hg : 0 < g) (u v : ℝ × ℝ) :
    ndotLt realNum u v = ndotLt realNum (g * u.1, u.2) (g * v.1, v.2) := by
  have hfactor (a h : ℝ) : g * a * |g * a| * h = g * g * (a * |a| * h) := by
    rw [abs_mul, abs_of_pos hg]
    ring
  rw [Bool.eq_iff_iff, realNdotLt_iff, realNdotLt_iff, hfactor, hfactor, mul_lt_mul_iff_right₀ (mul_pos hg hg)]

/-- A positive factor on the window does not change the decision. -/
theorem realDecideRow_scale (hg : 0 < g) (score : Score) (c : Cfg) (x : List ℝ) :
    decideRow realNum score c (x.map (g * ·)) = decideRow realNum score c x := by
  cases score with
  | dot =>
    have hmax := argmaxFirst_map realNum.lt realNum.lt (g * ·) (realLt_scale hg)
      (Row.all.map fun i => realNum.dot x (c.tone realNum i))
    simp only [decideRow, realDot_scale, hmax, List.map_map, Function.comp_def]
  | ndot =>
    have hmax := argmaxFirst_map (ndotLt realNum) (ndotLt realNum) (fun u => (g * u.1, u.2)) (realNdotLt_scale hg)
      (Row.all.map fun i => (realNum.dot x (c.tone realNum i), realNum.dot (c.tone realNum i) (c.tone realNum i)))
    simp only [decideRow, realDot_scale, hmax, List.map_map, Function.comp_def]

end

/-- Waveforms of one length are given by their samples. -/
theorem waveReal_eq_map {x y : SampleSeq} {f : ℝ → ℝ} (hlen : y.length = x.length)
    (h : ∀ n, sampleAt y n = f (sampleAt x n)) : waveReal y = (waveReal x).map f := by
  refine List.ext_getElem (by simp [hlen]) fun n hy hx => ?_
  have hx' : n < (waveReal x).length := by simpa using hx
  have hn := h n
  rw [sampleAt, sampleAt, List.getD_eq_getElem _ _ hy, List.getD_eq_getElem _ _ hx'] at hn
  rw [hn, List.getElem_map]

theorem decideRow_scale {g : ℝ} (hg : 0 < g) (score : Score) (c : Cfg) {x y : SampleSeq} (hlen : y.length = x.length)
    (h : ∀ n, sampleAt y n = g * sampleAt x n) : decideRow exactNum score c y = decideRow exactNum score c x := by
  rw [exactNum_hom.decideRow, exactNum_hom.decideRow, ← waveReal, ← waveReal, waveReal_eq_map hlen h,
    realDecideRow_scale hg]

/-! ## Polarity (43_demodulator.md R169) -/

section
variable {c : Cfg} {x y : SampleSeq}

theorem scoreAt_neg (h : ∀ n, sampleAt y n = -sampleAt x n) (i : Row) : c.scoreAt y 0 i = -c.scoreAt x 0 i := by
  simp only [Cfg.scoreAt, h, neg_mul, Finset.sum_neg_distrib]

/-- The row that a negated burst decides: the first one that is not its own. -/
theorem decideRow_of_negated_burst (hc : c.Orthogonal) (score : Score) (j : Row)
    (hlen : y.length = c.sps) (hy : ∀ n, sampleAt y n = -sampleAt (c.tone exactNum j) n) :
    decideRow exactNum score c y = if j = .r0 then .r1 else .r0 := by
  have hscore (i : Row) : c.scoreAt y 0 i = -c.gram i j := by rw [scoreAt_neg hy, scoreAt_tone]
  have hown : c.scoreAt y 0 j < 0 := by
    rw [hscore, hc.gram_eq, if_pos rfl]
    exact neg_lt_zero.2 (half_pos (Nat.cast_pos.2 hc.one_le_sps))
  have hother {i : Row} (hi : i ≠ j) : c.scoreAt y 0 i = 0 := by rw [hscore, hc.gram_eq, if_neg hi, neg_zero]
  have hle (i : Row) : c.scoreAt y 0 i ≤ 0 := by
    rcases eq_or_ne i j with rfl | hi
    · exact hown.le
    · exact (hother hi).le
  rw [hc.decideRow_eq_dot hlen]
  split
  next hj =>
    subst hj
    have hzero : c.scoreAt y 0 .r1 = 0 := hother nofun
    refine decideRow_dot_eq_ofIndex (k := 1) hlen ⟨by decide, fun k _ => (hle _).trans_eq hzero.symm, fun k hk => ?_⟩
    obtain rfl : k = 0 := by omega
    exact hown.trans_eq hzero.symm
  next hj =>
    have hzero : c.scoreAt y 0 .r0 = 0 := hother (Ne.symm hj)
    exact decideRow_dot_eq_ofIndex (k := 0) hlen
      ⟨by decide, fun k _ => (hle _).trans_eq hzero.symm, fun k hk => absurd hk (Nat.not_lt_zero k)⟩

end

/-- Settles O32. -/
theorem amplitudeAndPolarity : Obligations.AmplitudeAndPolarity := by
  refine fun score c x y hlen => ⟨fun g hg h => decideRow_scale hg score c hlen h, ?_⟩
  rintro j hc rfl hy
  exact decideRow_of_negated_burst hc score j (hlen.trans (tone_length _ c j)) hy

end Sys2Proof.Machine
end

section
/-! PROOFS. The block over the real numbers (00_scope.md R10, R13): exact samples compute as real numbers do,
emitted waveforms are in the canonical form of log 6, and commands and steps run alike. -/

namespace Sys2Proof.Machine

/-! ## The algorithms (00_scope.md R13) -/

/-- Settles O29: a sample and its real number are related by a map that respects NUM. -/
theorem exactNumericsIsReal : Obligations.ExactNumericsIsReal :=
  ⟨exactNum_hom.modulate, exactNum_hom.hit, exactNum_hom.locateFrame, exactNum_hom.demodulate, exactNum_hom.receive⟩

/-! ## Emitted waveforms (42_modulator.md R133 to R138, log 6) -/

/-- Every sample is a cosine that the numerics made. -/
def MadeOfCosines (x : SampleSeq) : Prop := ∀ a ∈ x, ∃ θ, a = exactCos1 θ

theorem madeOfCosines_modulate (c : Cfg) (bits : BitSeq) : MadeOfCosines (modulate exactNum c bits) := by
  intro a ha
  obtain ⟨i, -, hi⟩ := List.mem_flatMap.1 ha
  obtain ⟨n, -, rfl⟩ := List.mem_map.1 hi
  exact ⟨_, rfl⟩

theorem madeOfCosines_frame (c : Cfg) (payload : BitSeq) : MadeOfCosines (frame exactNum c payload) := by
  intro a ha
  rw [frame, List.mem_append, List.mem_append] at ha
  obtain (ha | ha) | ha := ha
  · exact madeOfCosines_modulate c _ a ha
  · exact madeOfCosines_modulate c _ a ha
  · exact madeOfCosines_modulate c _ a ha

theorem MadeOfCosines.all_wf {x : SampleSeq} (h : MadeOfCosines x) : x.all Sample.wf = true := by
  rw [List.all_eq_true]
  intro a ha
  obtain ⟨θ, rfl⟩ := h a ha
  exact exactCos1_wf θ

theorem MadeOfCosines.abs_sampleAt_le_one {x : SampleSeq} (h : MadeOfCosines x) (n : Nat) : |sampleAt x n| ≤ 1 := by
  rcases Nat.lt_or_ge n x.length with hn | hn
  · obtain ⟨θ, hθ⟩ := h x[n] (List.getElem_mem hn)
    rw [sampleAt_getElem? (List.getElem?_eq_getElem hn), hθ, exactCos1_toReal]
    exact Real.abs_cos_le_one _
  · rw [sampleAt_beyond hn, abs_zero]
    exact zero_le_one

/-- The only waveforms that MODBITS and TXFRAME respond are made by the modulator. -/
theorem madeOfCosines_of_exec {s s' : State} {b : BitSeq} {x : SampleSeq}
    (h : exec (.modbits b) s = .next s' ∨ exec (.txframe b) s = .next s')
    (hr : s'.responses = s.responses ++ [.ok (.samples x) []]) : MadeOfCosines x := by
  obtain h | h := h
  · cases effect_of_exec h with
    | raised => simp at hr
    | modulated =>
      obtain rfl : modulate exactNum s.cfg b = x := by simpa using hr
      exact madeOfCosines_modulate _ _
  · cases effect_of_exec h with
    | raised => simp at hr
    | framed =>
      obtain rfl : frame exactNum s.cfg b = x := by simpa using hr
      exact madeOfCosines_frame _ _

/-- Settles O56. -/
theorem emittedWaveformsAreCanonical : Obligations.EmittedWaveformsAreCanonical := by
  intro s s' b x h hr
  have hx := madeOfCosines_of_exec h hr
  exact ⟨hx.all_wf, hx.all_wf, hx.all_wf, hx.abs_sampleAt_le_one⟩

/-! ## Commands and steps over another carrier (00_scope.md R9, R10) -/

section
variable {S T : Type} {w : Nat}

/-- `Q` is the build `P` over another carrier, the other parameters the same. -/
structure BuildHom (P : Build S) (Q : Build T) (f : S → T) : Prop where
  num : NumHom P.num Q.num f
  score : Q.score = P.score
  maxFrameChunks : Q.maxFrameChunks = P.maxFrameChunks
  guess2 : Q.guess2 = P.guess2

theorem buildHom_toReal {P : Build Sample} (h : P.num = exactNum) : BuildHom P P.toReal Sample.toReal :=
  ⟨h ▸ exactNum_hom, rfl, rfl, rfl⟩

/-- An outcome with the samples of its next state mapped. -/
def mapOut (f : S → T) : Out S w → Out T w
  | .next s => .next (s.map f)
  | .fault r => .fault r
  | .refused r => .refused r

variable {P : Build S} {Q : Build T} {f : S → T} {s : State S w}

@[simp] theorem mapOut_next : mapOut f (.next s) = .next (s.map f) := rfl

@[simp] theorem State.map_cfg : (s.map f).cfg = s.cfg := rfl

@[simp] theorem State.map_detRun : (s.map f).detRun = s.detRun := rfl

@[simp] theorem State.map_detState : (s.map f).detState = s.detState := rfl

@[simp] theorem State.map_detBuf : (s.map f).detBuf = s.detBuf.map f := rfl

@[simp] theorem State.map_txActive : (s.map f).txActive = s.txActive := rfl

/-- A response of a mapped state, result and events. -/
theorem respond_eq_map {s' : State T w} {r : Result S w} {r' : Result T w} {ev : List (Event S)} {ev' : List (Event T)}
    (hs : s' = s.map f) (hr : r' = r.map f) (hev : ev' = ev.map (Event.map f)) :
    s'.respond r' ev' = (s.respond r ev).map f := by
  subst hs hr hev
  exact (State.map_respond s r ev).symm

/-- The preamble before outcomes that correspond. -/
theorem configured_map {o : Out S w} {o' : Out T w} (h : o' = mapOut f o) :
    configured (s.map f) o' = mapOut f (configured s o) := by
  subst h
  cases hv : s.cfgValid with
  | true => rw [configured_of_valid hv, configured_of_valid (s := s.map f) hv]
  | false => rw [configured_of_invalid hv, configured_of_invalid (s := s.map f) hv, mapOut_next, State.map_raise]

/-- The preamble before next states that correspond. -/
theorem configured_next_map {t : State S w} {t' : State T w} (h : t' = t.map f) :
    configured (s.map f) (.next t') = mapOut f (configured s (.next t)) :=
  configured_map (congrArg _ h)

theorem cfgloadOn_map (c : CfgRecord) (s : State S w) : cfgloadOn c (s.map f) = mapOut f (cfgloadOn c s) := by
  cases hv : s.cfgValid with
  | true => rw [cfgloadOn_of_valid hv, cfgloadOn_of_valid (s := s.map f) hv, mapOut_next, State.map_raise]
  | false =>
    cases hl : loadCfg c with
    | error e => rw [cfgloadOn_of_error hv hl, cfgloadOn_of_error (s := s.map f) hv hl, mapOut_next, State.map_raise]
    | ok cf =>
      rw [cfgloadOn_of_ok hv hl, cfgloadOn_of_ok (s := s.map f) hv hl]
      exact congrArg _ (respond_eq_map rfl rfl rfl)

theorem detNchunks_map (s : State S w) : (s.map f).detNchunks = s.detNchunks := by
  simp only [State.detNchunks, State.map, List.length_map]

theorem rdstatOn_map (s : State S w) : rdstatOn (s.map f) = mapOut f (rdstatOn s) := by
  rw [rdstatOn, rdstatOn, detNchunks_map]
  exact congrArg _ (respond_eq_map rfl rfl rfl)

theorem locateWith_map (h : BuildHom P Q f) (x : List S) :
    locateWith Q (x.map f) (s.map f) = mapOut f (locateWith P x s) := by
  refine configured_map ?_
  rw [State.map_cfg, ← h.num.startRef, ← h.num.endRef, ← h.num.locateFrame]
  cases locateFrame P.num x (s.cfg.startRef P.num) (s.cfg.endRef P.num) with
  | none => exact congrArg _ (State.map_raise s _).symm
  | some p => exact congrArg Host.Outcome.next (respond_eq_map rfl rfl rfl)

theorem rxframeWith_map (h : BuildHom P Q f) (x : List S) :
    rxframeWith Q (x.map f) (s.map f) = mapOut f (rxframeWith P x s) := by
  refine configured_map ?_
  rw [State.map_cfg, h.score, h.guess2, ← h.num.receive]
  cases receive P.num P.score P.guess2 s.cfg x with
  | none => exact congrArg _ (State.map_raise s _).symm
  | some p => exact congrArg Host.Outcome.next (respond_eq_map rfl rfl rfl)

theorem detstartOn_map (s : State S w) : detstartOn (s.map f) = mapOut f (detstartOn s) := by
  refine configured_map ?_
  rw [State.map_cfg, State.map_detRun]
  cases s.cfg.chunkLen with
  | none => exact congrArg _ (State.map_raise s _).symm
  | some n =>
    dsimp only
    split
    · exact congrArg _ (respond_eq_map rfl rfl rfl)
    · exact congrArg _ (respond_eq_map rfl rfl rfl)

theorem detTransition_map (h : BuildHom P Q f) (n : Nat) (x : List S) (s : State S w) :
    detTransition Q n (x.map f) (s.map f) = (detTransition P n x s).map f := by
  simp only [detTransition, State.map_detState, State.map_txActive, State.map_cfg, State.map_detBuf,
    ← h.num.startRef, ← h.num.endRef, ← h.num.hit, h.maxFrameChunks, ← List.map_append, List.length_map]
  cases s.detState with
  | idle =>
    dsimp only
    split
    · exact respond_eq_map rfl rfl rfl
    · exact respond_eq_map rfl rfl rfl
  | recording =>
    dsimp only
    split
    · exact respond_eq_map rfl rfl rfl
    · split
      · exact respond_eq_map rfl rfl rfl
      · exact respond_eq_map rfl rfl rfl

theorem detChunk_map (h : BuildHom P Q f) (x : List S) (s : State S w) :
    detChunk Q (x.map f) (s.map f) = (detChunk P x s).map f := by
  simp only [detChunk, State.map_cfg, State.map_detRun, List.length_map]
  cases s.cfg.chunkLen with
  | none => exact (State.map_raise s _).symm
  | some n =>
    dsimp only
    split
    · exact (State.map_raise s _).symm
    · split
      · exact (State.map_raise s _).symm
      · exact detTransition_map h n x s

/-- Every command of a build maps to that of the build over the other carrier. -/
theorem execWith_map (h : BuildHom P Q f) (i : Instr S) (s : State S w) :
    execWith Q (i.map f) (s.map f) = mapOut f (execWith P i s) := by
  cases i with
  | cfgload c => exact cfgloadOn_map c s
  | rdstat => exact rdstatOn_map s
  | eccenc b => exact configured_next_map (respond_eq_map rfl rfl rfl)
  | eccdec b =>
    simp only [execWith, Instr.map, eccdecWith, h.guess2]
    exact configured_next_map (respond_eq_map rfl rfl rfl)
  | modbits b => exact configured_next_map (respond_eq_map rfl (congrArg _ (h.num.modulate _ b).symm) rfl)
  | txframe b => exact configured_next_map (respond_eq_map rfl (congrArg _ (h.num.frame _ b).symm) rfl)
  | locate x => exact locateWith_map h x
  | demod x =>
    simp only [execWith, Instr.map, demodWith, h.score, ← h.num.demodulate]
    exact configured_next_map (respond_eq_map rfl rfl rfl)
  | rxframe x => exact rxframeWith_map h x
  | detstart => exact detstartOn_map s
  | detchunk x => exact configured_next_map (detChunk_map h x s)
  | detstop => exact configured_next_map (respond_eq_map rfl rfl rfl)
  | txon => exact configured_next_map (respond_eq_map rfl rfl rfl)
  | txoff => exact configured_next_map (respond_eq_map rfl rfl rfl)

/-- The decoder reads no sample. -/
theorem decode_map (c : Command S) :
    decode (⟨c.op, c.cfgin, c.bitin, c.sampin.map f⟩ : Command T) = (decode c).map (Instr.map f) := by
  simp only [decode]
  split
  case h_15 => split <;> rfl
  all_goals rfl

/-- One input and its map have effects that correspond. -/
theorem takeInput_map (h : BuildHom P Q f) (i : Input S) (s : State S w) :
    takeInput (execWith Q) (i.map f) (s.map f) = mapOut f (takeInput (execWith P) i s) := by
  cases i with
  | reset => rfl
  | command c =>
    simp only [takeInput, Input.map, decode_map]
    cases decode c with
    | ok i => exact execWith_map h i s
    | error e => exact congrArg _ (State.map_raise s _).symm

theorem stepWith_map (h : BuildHom P Q f) (s : State S w) : stepWith Q (s.map f) = mapOut f (stepWith P s) := by
  cases hin : s.inputs with
  | nil =>
    have hin' : (s.map f).inputs = [] := congrArg (List.map (Input.map f)) hin
    rw [stepWith, stepWith, takeOldest_idle hin, takeOldest_idle hin', mapOut_next]
  | cons i rest =>
    have hin' : (s.map f).inputs = i.map f :: rest.map (Input.map f) := congrArg (List.map (Input.map f)) hin
    rw [stepWith, stepWith, takeOldest_input hin, takeOldest_input hin']
    exact takeInput_map h i { s with inputs := rest }

end

/-- Settles O58: the map of samples to real numbers is one of builds. -/
theorem realBlockRunsAlike : Obligations.RealBlockRunsAlike := by
  refine ⟨exec_eq_execWith, step_eq_stepWith, fun w P s t hP => ⟨fun i h => ?_, fun h => ?_⟩⟩
  · rw [execWith_map (buildHom_toReal hP), h, mapOut_next]
  · rw [stepWith_map (buildHom_toReal hP), h, mapOut_next]

end Sys2Proof.Machine
end

section
/-! PROOFS. The receiving commands and the detector on samples that are arbitrary real numbers (00_scope.md R10,
43_demodulator.md R151 to R168, 44_detector.md R181 to R189). -/

namespace Sys2Proof.Machine

variable {S : Type} {w : Nat}

/-! ## LOCATE (43_demodulator.md R153, R154, R157) -/

/-- The locator takes the first greatest real correlations, and finds a frame where they leave a segment. -/
theorem realLocateFrame_of_firstMax {x r e : List ℝ} {a b : Nat} (hr : r.length ≤ x.length) (he : e.length ≤ x.length)
    (ha : FirstMax (corrReal x r) (x.length - r.length + 1) a)
    (hb : FirstMax (corrReal x e) (x.length - e.length + 1) b) :
    locateFrame realNum x r e = if a + r.length < b then some (a + r.length, b) else none := by
  have hstart : argmaxFirst realNum.lt (xcorrValid realNum x r) = a := (realXcorr_firstMax x r hr).unique ha
  have hend : argmaxFirst realNum.lt (xcorrValid realNum x e) = b := (realXcorr_firstMax x e he).unique hb
  rw [locateFrame, if_neg (by omega), hstart, hend, ← ite_not]
  simp only [ge_iff_le, not_le]

section
variable {P : Build S} {s : State S w} {x : List S}

theorem respond_ne_raise (r : Result S w) (ev : List (Event S)) (e : Error) : s.respond r ev ≠ s.raise e := by
  intro h
  have hresp : s.responses ++ [.ok r ev] = s.responses ++ [.error e] := congrArg State.responses h
  cases List.singleton_inj.1 (List.append_cancel_left hresp)

/-- LOCATE raises only where the locator finds nothing. -/
theorem locateFrame_of_raise (hv : s.cfgValid = true) (h : locateWith P x s = .next (s.raise .noSyncFound)) :
    locateFrame P.num x (s.cfg.startRef P.num) (s.cfg.endRef P.num) = none := by
  cases hl : locateFrame P.num x (s.cfg.startRef P.num) (s.cfg.endRef P.num) with
  | none => rfl
  | some p =>
    rw [locateWith_of_some hv hl] at h
    injection h with h
    exact absurd h (respond_ne_raise _ _ _)

/-- LOCATE answers only what the locator finds. -/
theorem locateFrame_of_indices (hv : s.cfgValid = true) {a b : Nat}
    (h : locateWith P x s = .next (s.respond (.indices a b) [])) :
    locateFrame P.num x (s.cfg.startRef P.num) (s.cfg.endRef P.num) = some (a, b) := by
  cases hl : locateFrame P.num x (s.cfg.startRef P.num) (s.cfg.endRef P.num) with
  | none =>
    rw [locateWith_of_none hv hl] at h
    injection h with h
    exact absurd h.symm (respond_ne_raise _ _ _)
  | some p =>
    rw [locateWith_of_some hv hl] at h
    injection h with h
    injection respond_result_injective h with ha hb
    rw [← ha, ← hb]

/-! ## DEMOD and RXFRAME (43_demodulator.md R164, R168) -/

theorem demodWith_of_valid (hv : s.cfgValid = true) :
    demodWith P x s = .next (s.respond (.bits (demodulate P.num P.score s.cfg x)) []) :=
  configured_of_valid hv _

/-- The bits that DEMOD answers are those of `demodulate`. -/
theorem eq_demodulate_of_demodWith (hv : s.cfgValid = true) {out : BitSeq}
    (h : demodWith P x s = .next (s.respond (.bits out) [])) : out = demodulate P.num P.score s.cfg x := by
  rw [demodWith_of_valid hv] at h
  injection h with h
  injection respond_result_injective h with h
  exact h.symm

/-- RXFRAME is LOCATE, DEMOD of the segment between the delimiters, and ECCDEC if the payload is encoded. -/
theorem rxframeWith_of_parts (hv : s.cfgValid = true) {a b : Nat} {out : BitSeq}
    (hl : locateWith P x s = .next (s.respond (.indices a b) []))
    (hd : demodWith P (slice x a b) s = .next (s.respond (.bits out) [])) :
    (s.cfg.eccEn.payload = true → rxframeWith P x s = eccdecWith P out s) ∧
    (s.cfg.eccEn.payload = false → rxframeWith P x s = .next (s.respond (.bitsGuessed out 0) [])) := by
  have hframe := locateFrame_of_indices hv hl
  rw [eq_demodulate_of_demodWith hv hd]
  refine ⟨fun hp => rxframeWith_of_encoded hv hp hframe, fun hp => ?_⟩
  rw [rxframeWith_of_plain hv hp hframe, State.countGuessed_zero]

end

/-- A sample of a window cut out of a signal, as the signal's own. -/
theorem slice_getD (x : List ℝ) {i j n : Nat} (h : n < j - i) : (slice x i j).getD n 0 = x.getD (i + n) 0 := by
  rw [List.getD_eq_getElem?_getD, List.getD_eq_getElem?_getD, slice_getElem? x i j n h]

/-- Under DOT the bits of a whole window are the dibit of the first greatest real score (43_demodulator.md R162). -/
theorem realDemodulate_dibit (c : Cfg) (x : List ℝ) {k m : Nat} (hk : k < x.length / c.sps)
    (hm : FirstMax (fun i => ∑ n ∈ Finset.range c.sps,
      x.getD (k * c.sps + n) 0 * c.toneReal (Row.ofIndex i) n) 4 m) :
    (demodulate realNum .dot c x)[2 * k]? = some (Row.ofIndex m).dibit.1 ∧
      (demodulate realNum .dot c x)[2 * k + 1]? = some (Row.ofIndex m).dibit.2 := by
  have hspan : (k + 1) * c.sps - k * c.sps = c.sps := by rw [Nat.succ_mul, Nat.add_sub_cancel_left]
  have hinside : (k + 1) * c.sps ≤ x.length := (Nat.mul_le_mul_right _ hk).trans (Nat.div_mul_le_self _ _)
  have hscore (i : Nat) : ∑ n ∈ Finset.range c.sps,
        (slice x (k * c.sps) ((k + 1) * c.sps)).getD n 0 * c.toneReal (Row.ofIndex i) n =
      ∑ n ∈ Finset.range c.sps, x.getD (k * c.sps + n) 0 * c.toneReal (Row.ofIndex i) n :=
    Finset.sum_congr rfl fun n hn => by rw [slice_getD x (hspan.symm ▸ Finset.mem_range.1 hn)]
  obtain ⟨m', hm', hrow⟩ := realDecide_dot c (slice x (k * c.sps) ((k + 1) * c.sps))
    ((slice_length x _ _ hinside).trans hspan)
  simp only [hscore] at hm'
  rw [hm'.unique hm] at hrow
  exact demodulate_dibit realNum .dot c x hk hrow

/-! ## DETCHUNK (44_detector.md R185 to R189) -/

theorem realHit_eq_false {th : Rat} {x r : List ℝ} (h : ¬HitReal th x r) : hit realNum th x r = false := by
  rwa [Bool.eq_false_iff, ne_eq, realHit_iff]

/-- Settles O59: the locator, the windows and the hits of `realNum` are the spec's, and the commands are the same
text for every build. -/
theorem realOperandsAreReceived : Obligations.RealOperandsAreReceived := by
  rintro w ⟨_, score, limit, g⟩ s x _ _ rfl hv rfl rfl
  refine ⟨fun h => locateWith_of_none hv (locateFrame_of_short _ h), fun a b hr he ha hb => ?_, ?_,
    fun h => rxframeWith_of_none hv (locateFrame_of_raise hv h),
    fun a b out hl hd => rxframeWith_of_parts hv hl hd, fun hrun hn hd ht => ?_, fun hrun hn hd hlimit => ?_⟩
  · have hframe := realLocateFrame_of_firstMax hr he ha hb
    exact ⟨fun h => locateWith_of_some hv (hframe.trans (if_pos h)),
      fun h => locateWith_of_none hv (hframe.trans (if_neg h.not_gt))⟩
  · rintro rfl
    exact ⟨_, demodWith_of_valid hv, demodulate_length _ _ _ x, fun k m hk hm => realDemodulate_dibit s.cfg x hk hm⟩
  · rw [execWith_detchunk_of_running _ hv hrun hn rfl]
    refine ⟨fun h => ?_, fun h => ?_⟩
    · rw [detTransition_starts hd ht ((realHit_iff _ _ _).2 h)]
    · rw [detTransition_drops hd (.inr (realHit_eq_false h))]
  · subst hlimit
    rw [execWith_detchunk_of_running _ hv hrun hn rfl]
    refine ⟨fun h => ?_, fun h => ?_⟩
    · rw [detTransition_completes hd rfl ((realHit_iff _ _ _).2 h)]
    · rw [detTransition_appends hd rfl (realHit_eq_false h)]

end Sys2Proof.Machine
end
